-- ==== Sys2Proof/Word.lean ====
section
/-!
DEFINITION. The words HCB carries (spec/00_scope.md R8, R9; spec/20_memory.md R42, R43): 32-bit command, operand,
response and register words, 8-bit indices and table entries, and binary32 bit patterns.
-/

namespace Sys2Proof

/-- A 32-bit word: a command, an operand, a response or a register (R6, R51). -/
abbrev Word := BitVec 32

/-- An 8-bit value: an index field (R52) or a scale-table entry (R36). -/
abbrev Byte := BitVec 8

/-- The bit pattern of a binary32 number, sign in bit 31 (R9). An f32 register holds and reads as this pattern (R21). -/
abbrev F32 := BitVec 32

end Sys2Proof
end

