-- ==== Sys2Proof/Config.lean ====
section
/-!
DEFINITION. What the spec leaves to an implementation, and the FREE VALUES: constants without a body, so that nothing in
Lean can evaluate one or prove what it is. Each is applied to the operands it may depend on. Every free value here stands
for an argument that no register of HCB can hold after hardware reset (spec/42_sample_command.md R86: every f32 register
stays finite); none is met on a run from reset. DESIGN CHOICE, log entries 4, 5 and 6.
-/

namespace Sys2Proof.Config

/-- `LAT_MAX - 1` (R6, R147, R148; spec/93_implementation_defined.md U4: a positive natural number, OPEN).
A command-level model ignores it; it is named so that a statement about cycles would have a constant to speak of. -/
opaque latMaxPred : Nat

/-- `LAT_MAX`, the greatest number of cycles from a command's acceptance to its response (R147): positive. -/
def latMax : Nat := latMaxPred + 1

/-- The sign and payload of the NaN that an invalid binary32 operation answers. R9 says "one IEEE 754 operation", and
IEEE 754 does not fix which NaN results; the first argument tells the operations apart. FREE VALUE (log entry 4). -/
opaque nanPayload : Nat → F32 → F32 → F32

/-- `floor_int(v)` for a `v` that is not finite: R9 defines it "for finite v" only. FREE VALUE (log entry 5). -/
opaque floorIntOutside : F32 → Int

/-- `HzToMidi(f)` outside its domain: R12 defines it for a finite `f > 0` only. FREE VALUE (log entry 5). -/
opaque hzToMidiOutside : F32 → F32

/-- `MidiToHz(m)` outside its domain: R13 defines it for a finite `m` only. FREE VALUE (log entry 5). -/
opaque midiToHzOutside : F32 → F32

/-- `Sin2Pi(p)` outside its domain: R14 defines it for a finite `p` only. FREE VALUE (log entry 5). -/
opaque sin2PiOutside : F32 → F32

end Sys2Proof.Config
end

