-- ==== Sys2Proof/Syntax.lean ====
section
/-!
DEFINITION. The command set HCB1 as syntax (spec/30_encoding.md R51 to R54): transactions, the nine commands with the
operands each one uses, the names of the registers (spec/10_state.md R20 to R35), and the lines of the assembler
(R60, R61).
-/

namespace Sys2Proof

/-- One transaction: a command word and an operand word, presented together (R51). -/
structure Transaction where
  /-- The command word CMD. -/
  cmd : Word
  /-- The operand word OPND. -/
  opnd : Word
  deriving DecidableEq, Repr

/-- The nine commands of R54, one constructor per row of the opcode table. A constructor holds the index field where the
row has one, and the operand word where the command reads it; a command that "uses no operand ignores all 32 bits of
OPND" (R51), so it holds none (DESIGN CHOICE, log entry 12). -/
inductive Instr where
  /-- NOP (R63). -/
  | nop
  /-- SAMPLE (R81): the input sample as binary32. -/
  | sample (x : Word)
  /-- MIX (R116): the filtered harmony sample as binary32. -/
  | mix (h : Word)
  /-- BLOCK (R73). -/
  | block
  /-- WRREG (R64): a register index and the value to write. -/
  | wrreg (idx : Byte) (v : Word)
  /-- RDREG (R65): a register index. -/
  | rdreg (idx : Byte)
  /-- WRTAB (R66): a table index and a note number. -/
  | wrtab (idx : Byte) (n : Word)
  /-- RDTAB (R67): a table index. -/
  | rdtab (idx : Byte)
  /-- SRESET (R68). -/
  | sreset
  deriving DecidableEq, Repr

/-- The configuration registers, in index order 0x00 to 0x1E (R22). -/
inductive CfgReg where
  | sampleRate | dcR | lpKeep | zcEps | holdoff | fMin | fMax | freqKeep | freqNew | certDecay | certThresh | floor
  | envOffset | envA | gateOnMin | gateOffRatio | intervalNarrow | intervalWide | sparseMin | octMin | octMax | qhyst
  | glideCMin | glideCMax | vibDepthMax | lfoInc | vcaScale | vcaAttack | vcaRelease | knobCoef | scaleMul
  deriving DecidableEq, Repr

/-- The seven knob slots, in slot order (R26). -/
inductive Knob where
  | glide | cutoff | mix | gate | vib | reverb | scale
  deriving DecidableEq, Repr

/-- The read-only registers beside the smoothed knobs: the derived block-rate registers (R28), the detector (R29), the
envelope and gate (R31), the quantizer and voice (R32), and the latches and LOCKED (R33). -/
inductive RoReg where
  | gateOn | gateOff | glideC | scaleIdx
  | dcX1 | dcY1 | lp | zcState | zcCount | periodLast | freq | cert
  | envS1 | envS2 | level | gate
  | qlast | target | smooth | lfoPhase | pitchOut | oscFreq | vcaGain | locked | xLast | yOut | vcaTgt
  deriving DecidableEq, Repr

/-- Every mapped register of the register space (R20). -/
inductive Reg where
  | cfg (r : CfgReg)
  | kraw (k : Knob)
  | ks (k : Knob)
  | ro (r : RoReg)
  | status
  | id
  | version
  deriving DecidableEq, Repr

/-- The access classes of R21. -/
inductive Access where
  | cfg | knob | ro | w1c | const
  deriving DecidableEq, Repr

/-- The types a register can have (R21). -/
inductive RegType where
  | f32 | u32 | s32
  deriving DecidableEq, Repr

/-- The legal range of a configuration register (R22), with the way R53 reads the operand written to it. -/
inductive CfgRange where
  /-- Read as binary32 (R23); the bounds are the nearest binary32 values. -/
  | f32 (lo hi : F32)
  /-- Read as an unsigned integer (R24). -/
  | u32 (lo hi : Nat)
  /-- Read as a two's-complement integer (R24). -/
  | s32 (lo hi : Int)
  deriving DecidableEq, Repr

/-- A literal of the assembler (R60): a decimal, converted to the nearest binary32, an integer, or a raw word. -/
inductive Literal where
  /-- The decimal `num / 10^scale`, with a minus sign where `neg` says so. -/
  | decimal (neg : Bool) (num scale : Nat)
  /-- A decimal integer. -/
  | integer (n : Int)
  /-- A raw `0x` word. -/
  | raw (w : Word)
  deriving DecidableEq, Repr

/-- A line of the assembly syntax (R60) or a pseudo-instruction (R61). -/
inductive AsmLine where
  | nop
  | sample (f : Literal)
  | mix (f : Literal)
  | block
  | wrreg (r : Reg) (v : Literal)
  /-- `wrreg` with a numeric index: the value is a raw word or an integer. -/
  | wrregAt (idx : Byte) (v : Literal)
  | rdreg (r : Reg)
  /-- `rdreg` with a numeric index. -/
  | rdregAt (idx : Byte)
  | wrtab (s j n : Nat)
  | rdtab (s j : Nat)
  | sreset
  /-- `.cmd <w>, <o>`: raw words, including illegal ones. -/
  | cmd (w o : Word)
  | wrknob (k : Knob) (f : Literal)
  | rdstatus
  | clrstatus
  | loadscale (s : Nat) (notes : List Nat)
  | knobs (g c m t v r s : Literal)
  deriving DecidableEq, Repr

end Sys2Proof
end

