-- ==== Sys2Proof/Machine/RegMap.lean ====
section
/-!
DEFINITION. The register map (spec/10_state.md R20 to R35): the index, the access class and the type of every mapped
register, the default and the legal range of every configuration register, and the inverse map from an index.
-/

namespace Sys2Proof

/-- The 31 configuration registers (R22). -/
def CfgReg.all : List CfgReg :=
  [.sampleRate, .dcR, .lpKeep, .zcEps, .holdoff, .fMin, .fMax, .freqKeep, .freqNew, .certDecay, .certThresh, .floor,
   .envOffset, .envA, .gateOnMin, .gateOffRatio, .intervalNarrow, .intervalWide, .sparseMin, .octMin, .octMax, .qhyst,
   .glideCMin, .glideCMax, .vibDepthMax, .lfoInc, .vcaScale, .vcaAttack, .vcaRelease, .knobCoef, .scaleMul]

/-- The seven knob slots (R26). -/
def Knob.all : List Knob := [.glide, .cutoff, .mix, .gate, .vib, .reverb, .scale]

/-- The read-only registers beside the smoothed knobs (R28, R29, R31, R32, R33). -/
def RoReg.all : List RoReg :=
  [.gateOn, .gateOff, .glideC, .scaleIdx, .dcX1, .dcY1, .lp, .zcState, .zcCount, .periodLast, .freq, .cert,
   .envS1, .envS2, .level, .gate, .qlast, .target, .smooth, .lfoPhase, .pitchOut, .oscFreq, .vcaGain, .locked,
   .xLast, .yOut, .vcaTgt]

/-- The index column of R22. -/
def CfgReg.index : CfgReg → Byte
  | .sampleRate     => 0x00#8
  | .dcR            => 0x01#8
  | .lpKeep         => 0x02#8
  | .zcEps          => 0x03#8
  | .holdoff        => 0x04#8
  | .fMin           => 0x05#8
  | .fMax           => 0x06#8
  | .freqKeep       => 0x07#8
  | .freqNew        => 0x08#8
  | .certDecay      => 0x09#8
  | .certThresh     => 0x0A#8
  | .floor          => 0x0B#8
  | .envOffset      => 0x0C#8
  | .envA           => 0x0D#8
  | .gateOnMin      => 0x0E#8
  | .gateOffRatio   => 0x0F#8
  | .intervalNarrow => 0x10#8
  | .intervalWide   => 0x11#8
  | .sparseMin      => 0x12#8
  | .octMin         => 0x13#8
  | .octMax         => 0x14#8
  | .qhyst          => 0x15#8
  | .glideCMin      => 0x16#8
  | .glideCMax      => 0x17#8
  | .vibDepthMax    => 0x18#8
  | .lfoInc         => 0x19#8
  | .vcaScale       => 0x1A#8
  | .vcaAttack      => 0x1B#8
  | .vcaRelease     => 0x1C#8
  | .knobCoef       => 0x1D#8
  | .scaleMul       => 0x1E#8

/-- The slot number of a knob: glide 0 to scale 6 (R26). -/
def Knob.slot : Knob → Byte
  | .glide => 0#8 | .cutoff => 1#8 | .mix => 2#8 | .gate => 3#8 | .vib => 4#8 | .reverb => 5#8 | .scale => 6#8

/-- The index columns of R28, R29, R31, R32 and R33. -/
def RoReg.index : RoReg → Byte
  | .gateOn     => 0x38#8
  | .gateOff    => 0x39#8
  | .glideC     => 0x3A#8
  | .scaleIdx   => 0x3B#8
  | .dcX1       => 0x40#8
  | .dcY1       => 0x41#8
  | .lp         => 0x42#8
  | .zcState    => 0x43#8
  | .zcCount    => 0x44#8
  | .periodLast => 0x45#8
  | .freq       => 0x46#8
  | .cert       => 0x47#8
  | .envS1      => 0x48#8
  | .envS2      => 0x49#8
  | .level      => 0x4A#8
  | .gate       => 0x4B#8
  | .qlast      => 0x4C#8
  | .target     => 0x4D#8
  | .smooth     => 0x4E#8
  | .lfoPhase   => 0x4F#8
  | .pitchOut   => 0x50#8
  | .oscFreq    => 0x51#8
  | .vcaGain    => 0x52#8
  | .locked     => 0x53#8
  | .xLast      => 0x54#8
  | .yOut       => 0x55#8
  | .vcaTgt     => 0x56#8

/-- The index of a register: KRAW from 0x20, KS from 0x30, STATUS 0x5F, ID 0x60, VERSION 0x61 (R26, R27, R34, R35). -/
def Reg.index : Reg → Byte
  | .cfg r   => r.index
  | .kraw k  => 0x20#8 + k.slot
  | .ks k    => 0x30#8 + k.slot
  | .ro r    => r.index
  | .status  => 0x5F#8
  | .id      => 0x60#8
  | .version => 0x61#8

/-- Every mapped register (R20). -/
def Reg.all : List Reg :=
  CfgReg.all.map .cfg ++ Knob.all.map .kraw ++ Knob.all.map .ks ++ RoReg.all.map .ro ++ [.status, .id, .version]

/-- The register an index names, `none` for an unmapped index (R20). -/
def Reg.ofIndex (i : Byte) : Option Reg := Reg.all.find? fun r => r.index == i

/-- The access class of a register (R21 to R35). -/
def Reg.access : Reg → Access
  | .cfg _   => .cfg
  | .kraw _  => .knob
  | .ks _    => .ro
  | .ro _    => .ro
  | .status  => .w1c
  | .id      => .const
  | .version => .const

/-- The legal-range column of R22; each decimal bound is its nearest binary32 value. -/
def CfgReg.range : CfgReg → CfgRange
  | .sampleRate     => .f32 0x45FA0000#32 0x483B8000#32
  | .dcR            => .f32 0x00000000#32 0x3F7FF972#32
  | .lpKeep         => .f32 0x00000000#32 0x3F800000#32
  | .zcEps          => .f32 0x00000000#32 0x3F800000#32
  | .holdoff        => .u32 0 65535
  | .fMin           => .f32 0x3F800000#32 0x47BB8000#32
  | .fMax           => .f32 0x3F800000#32 0x47BB8000#32
  | .freqKeep       => .f32 0x00000000#32 0x3F800000#32
  | .freqNew        => .f32 0x00000000#32 0x3F800000#32
  | .certDecay      => .f32 0x00000000#32 0x3F800000#32
  | .certThresh     => .f32 0x00000000#32 0x3F800000#32
  | .floor          => .f32 0x00000000#32 0x3A83126F#32
  | .envOffset      => .f32 0x00000000#32 0x3A83126F#32
  | .envA           => .f32 0x00000000#32 0x3F800000#32
  | .gateOnMin      => .f32 0x1E3CE508#32 0x3F800000#32
  | .gateOffRatio   => .f32 0x00000000#32 0x3F7D70A4#32
  | .intervalNarrow => .f32 0xC1C00000#32 0x41C00000#32
  | .intervalWide   => .f32 0xC1C00000#32 0x41C00000#32
  | .sparseMin      => .u32 0 6
  | .octMin         => .s32 (-4) 4
  | .octMax         => .s32 (-4) 4
  | .qhyst          => .f32 0x00000000#32 0x41400000#32
  | .glideCMin      => .f32 0x00000000#32 0x3F800000#32
  | .glideCMax      => .f32 0x00000000#32 0x3F800000#32
  | .vibDepthMax    => .f32 0x00000000#32 0x40000000#32
  | .lfoInc         => .f32 0x00000000#32 0x3F000000#32
  | .vcaScale       => .f32 0x00000000#32 0x447A0000#32
  | .vcaAttack      => .f32 0x00000000#32 0x3F800000#32
  | .vcaRelease     => .f32 0x00000000#32 0x3F800000#32
  | .knobCoef       => .f32 0x00000000#32 0x3F800000#32
  | .scaleMul       => .f32 0x00000000#32 0x40BFAE14#32

/-- The reset column of R22: the default of each configuration register, as its bit pattern. -/
def CfgReg.default : CfgReg → Word
  | .sampleRate     => 0x473B8000#32
  | .dcR            => 0x3F7EB852#32
  | .lpKeep         => 0x3F666666#32
  | .zcEps          => 0x3A83126F#32
  | .holdoff        => 0x0000001E#32
  | .fMin           => 0x42700000#32
  | .fMax           => 0x44BB8000#32
  | .freqKeep       => 0x3F333333#32
  | .freqNew        => 0x3E99999A#32
  | .certDecay      => 0x3F7FFCB9#32
  | .certThresh     => 0x3F59999A#32
  | .floor          => 0x26901D7D#32
  | .envOffset      => 0x2B8CBCCC#32
  | .envA           => 0x3B2A64C3#32
  | .gateOnMin      => 0x3727C5AC#32
  | .gateOffRatio   => 0x3F000000#32
  | .intervalNarrow => 0x40800000#32
  | .intervalWide   => 0x40E00000#32
  | .sparseMin      => 0x00000004#32
  | .octMin         => 0xFFFFFFFF#32
  | .octMax         => 0x00000003#32
  | .qhyst          => 0x3F000000#32
  | .glideCMin      => 0x3951B717#32
  | .glideCMax      => 0x3F800000#32
  | .vibDepthMax    => 0x3F000000#32
  | .lfoInc         => 0x38DA740E#32
  | .vcaScale       => 0x40A00000#32
  | .vcaAttack      => 0x3C23D70A#32
  | .vcaRelease     => 0x3951B717#32
  | .knobCoef       => 0x3DCCCCCD#32
  | .scaleMul       => 0x40BFAE14#32

/-- The type column of R22, read off the range: HOLDOFF and SPARSE_MIN u32, OCT_MIN and OCT_MAX s32, the rest f32. -/
def CfgReg.type (r : CfgReg) : RegType :=
  match r.range with
  | .f32 _ _ => .f32
  | .u32 _ _ => .u32
  | .s32 _ _ => .s32

/-- The type columns of R28, R29, R31, R32 and R33. -/
def RoReg.type : RoReg → RegType
  | .scaleIdx | .zcState | .zcCount | .periodLast | .gate | .locked => .u32
  | .gateOn | .gateOff | .glideC | .dcX1 | .dcY1 | .lp | .freq | .cert | .envS1 | .envS2 | .level | .qlast | .target
  | .smooth | .lfoPhase | .pitchOut | .oscFreq | .vcaGain | .xLast | .yOut | .vcaTgt => .f32

/-- The type of a register (R21). R35 gives ID and VERSION none, and R53 no reading of a value written to them: they are taken as
u32 (DESIGN CHOICE, log entry 16). -/
def Reg.type : Reg → RegType
  | .cfg r   => r.type
  | .kraw _  => .f32
  | .ks _    => .f32
  | .ro r    => r.type
  | .status  => .u32
  | .id      => .u32
  | .version => .u32

/-- The value ID reads: ASCII "HCB1", most significant byte first (R2, R35). -/
def idWord : Word := 0x48434231#32

/-- The value VERSION reads (R2, R35). -/
def versionWord : Word := 0x00000001#32

end Sys2Proof
end

