-- ==== Sys2Proof/WellFormed.lean ====
section
/-!
DEFINITION. Static checks. An `Instr` always fits its encoding (its fields have the widths of R52), and a command whose
index names nothing it may reach still decodes and then raises ILL when it runs (spec/30_encoding.md R56);
`Instr.WellFormed` says that the index is reachable. `AsmLine.WellFormed` is what an assembler refuses (R60).
-/

namespace Sys2Proof

/-- WRREG may reach a register of access CFG, KNOB or W1C (R56). -/
def Access.writable : Access → Bool
  | .cfg | .knob | .w1c => true
  | .ro | .const => false

/-- Whether WRREG may reach the index (R56). -/
def writableIndex (i : Byte) : Bool :=
  match Reg.ofIndex i with
  | some r => r.access.writable
  | none => false

/-- Whether RDREG may reach the index: it names a mapped register (R56). -/
def readableIndex (i : Byte) : Bool := (Reg.ofIndex i).isSome

/-- Whether WRTAB and RDTAB may reach the index: it is at most 89 (R56). -/
def tableIndex (i : Byte) : Bool := decide (i.toNat ≤ 89)

/-- A command whose index is reachable (R56); a command without an index always is. -/
def Instr.WellFormed : Instr → Bool
  | .nop => true
  | .sample _ => true
  | .mix _ => true
  | .block => true
  | .wrreg idx _ => writableIndex idx
  | .rdreg idx => readableIndex idx
  | .wrtab idx _ => tableIndex idx
  | .rdtab idx => tableIndex idx
  | .sreset => true

/-- Whether a literal can stand for a value of the type (R60): an f32 register takes a decimal or a raw word, an integer
register an integer or a raw word; the integer fits in 32 bits, signed or unsigned (DESIGN CHOICE where R60 is silent, log entry 16;
so is the type of ID and VERSION, and that a literal past the greatest binary32 number is accepted). -/
def Literal.Fits : Literal → RegType → Bool
  | .raw _, _ => true
  | .decimal _ _ _, .f32 => true
  | .decimal _ _ _, _ => false
  | .integer _, .f32 => true
  | .integer n, .u32 => decide (0 ≤ n ∧ n < 2 ^ 32)
  | .integer n, .s32 => decide (-2 ^ 31 ≤ n ∧ n < 2 ^ 31)

/-- The type a numeric index gives its value: the register's, or u32 where the index is unmapped (DESIGN CHOICE, log
entry 16). -/
def typeAt (i : Byte) : RegType :=
  match Reg.ofIndex i with
  | some r => r.type
  | none => .u32

/-- What an assembler accepts: `<s>` is 0..5, `<j>` is 0..14 and `<n>` is 0..127, literals fit, and `loadscale` has its 15
notes (R60, R61). -/
def AsmLine.WellFormed : AsmLine → Bool
  | .nop | .block | .sreset | .rdreg _ | .rdregAt _ | .cmd _ _ | .rdstatus | .clrstatus => true
  | .sample f | .mix f => f.Fits .f32
  | .wrreg r v => v.Fits r.type
  | .wrregAt i v => v.Fits (typeAt i)
  | .wrtab s j n => decide (s ≤ 5 ∧ j ≤ 14 ∧ n ≤ 127)
  | .rdtab s j => decide (s ≤ 5 ∧ j ≤ 14)
  | .wrknob _ f => f.Fits .f32
  | .loadscale s notes => decide (s ≤ 5 ∧ notes.length = 15) && notes.all fun n => decide (n ≤ 127)
  | .knobs g c m t v r s => [g, c, m, t, v, r, s].all fun f => f.Fits .f32

end Sys2Proof
end

