-- ==== Sys2Proof/Decode.lean ====
section
/-!
DEFINITION. The decoder and the encoder of the command set (spec/30_encoding.md R51 to R59). Decoding a transaction is
total: "Every 32-bit word is either exactly one legal command of rule R54 or illegal" (R55), and it reads no state (R59).
-/

namespace Sys2Proof

/-- Why a transaction is not a legal command: the three clauses of R55, and a byte stream that ends inside one. -/
inductive Reject where
  /-- OPC >= 0x09. -/
  | opcode
  /-- RSV != 0. -/
  | reserved
  /-- IDX != 0 for NOP, SAMPLE, MIX, BLOCK or SRESET. -/
  | index
  /-- Fewer than the eight bytes of a transaction (R51). -/
  | truncated
  deriving DecidableEq, Repr

/-- OPC = CMD[31:24] (R52). -/
def opcField (cmd : Word) : Byte := cmd.extractLsb' 24 8

/-- RSV = CMD[23:8] (R52). -/
def rsvField (cmd : Word) : BitVec 16 := cmd.extractLsb' 8 16

/-- IDX = CMD[7:0] (R52). -/
def idxField (cmd : Word) : Byte := cmd.extractLsb' 0 8

/-- A command that takes no index: IDX must be 0 (R55). -/
def noIndex (cmd : Word) (i : Instr) : Except Reject Instr := if idxField cmd = 0#8 then .ok i else .error .index

/-- The command a transaction stands for (R54, R55, R59). The operand word selects nothing (R58); it is carried along. -/
def decode (t : Transaction) : Except Reject Instr :=
  if rsvField t.cmd ≠ 0#16 then .error .reserved
  else
    match (opcField t.cmd).toNat with
    | 0 => noIndex t.cmd .nop
    | 1 => noIndex t.cmd (.sample t.opnd)
    | 2 => noIndex t.cmd (.mix t.opnd)
    | 3 => noIndex t.cmd .block
    | 4 => .ok (.wrreg (idxField t.cmd) t.opnd)
    | 5 => .ok (.rdreg (idxField t.cmd))
    | 6 => .ok (.wrtab (idxField t.cmd) t.opnd)
    | 7 => .ok (.rdtab (idxField t.cmd))
    | 8 => noIndex t.cmd .sreset
    | _ => .error .opcode

/-- The command word with an opcode and an index, RSV = 0 (R52): `{OPC, RSV, IDX}`. -/
def commandWord (opc idx : Byte) : Word := opc ++ 0#16 ++ idx

/-- The transaction of a command (R54). "An unused OPND assembles as 0" (R60). -/
def encode : Instr → Transaction
  | .nop         => ⟨commandWord 0x00#8 0x00#8, 0#32⟩
  | .sample x    => ⟨commandWord 0x01#8 0x00#8, x⟩
  | .mix h       => ⟨commandWord 0x02#8 0x00#8, h⟩
  | .block       => ⟨commandWord 0x03#8 0x00#8, 0#32⟩
  | .wrreg idx v => ⟨commandWord 0x04#8 idx, v⟩
  | .rdreg idx   => ⟨commandWord 0x05#8 idx, 0#32⟩
  | .wrtab idx n => ⟨commandWord 0x06#8 idx, n⟩
  | .rdtab idx   => ⟨commandWord 0x07#8 idx, 0#32⟩
  | .sreset      => ⟨commandWord 0x08#8 0x00#8, 0#32⟩

/-- One row of the opcode map: a word encodes the command of the row "when `(w & mask) == match`" (R54). -/
structure CommandRow where
  /-- The column `match`. -/
  pattern : Word
  /-- The column `mask`. -/
  mask : Word
  deriving DecidableEq, Repr

/-- Whether a word encodes the command of the row (R54). -/
def CommandRow.covers (r : CommandRow) (w : Word) : Bool := w &&& r.mask == r.pattern

/-- The row of a command (R54). -/
def Instr.row : Instr → CommandRow
  | .nop       => ⟨0x00000000#32, 0xFFFFFFFF#32⟩
  | .sample _  => ⟨0x01000000#32, 0xFFFFFFFF#32⟩
  | .mix _     => ⟨0x02000000#32, 0xFFFFFFFF#32⟩
  | .block     => ⟨0x03000000#32, 0xFFFFFFFF#32⟩
  | .wrreg _ _ => ⟨0x04000000#32, 0xFFFFFF00#32⟩
  | .rdreg _   => ⟨0x05000000#32, 0xFFFFFF00#32⟩
  | .wrtab _ _ => ⟨0x06000000#32, 0xFFFFFF00#32⟩
  | .rdtab _   => ⟨0x07000000#32, 0xFFFFFF00#32⟩
  | .sreset    => ⟨0x08000000#32, 0xFFFFFFFF#32⟩

/-- The nine rows of the opcode map, in opcode order (R54). -/
def commandRows : List CommandRow :=
  [Instr.row .nop, Instr.row (.sample 0#32), Instr.row (.mix 0#32), Instr.row .block, Instr.row (.wrreg 0#8 0#32),
   Instr.row (.rdreg 0#8), Instr.row (.wrtab 0#8 0#32), Instr.row (.rdtab 0#8), Instr.row .sreset]

/-- A word as bytes, "little-endian: bits 7:0 first" (R42). -/
def wordBytes (w : Word) : List Byte :=
  [w.extractLsb' 0 8, w.extractLsb' 8 8, w.extractLsb' 16 8, w.extractLsb' 24 8]

/-- The word four bytes carry, the first in bits 7:0 (R42). -/
def wordOfBytes (b0 b1 b2 b3 : Byte) : Word := b3 ++ b2 ++ b1 ++ b0

/-- A transaction as bytes: the command word, then the operand word (DEDUCED, log entry 11). -/
def transactionBytes (t : Transaction) : List Byte := wordBytes t.cmd ++ wordBytes t.opnd

/-- The first transaction of a byte stream and the bytes after it. -/
def takeTransaction : List Byte → Option (Transaction × List Byte)
  | a0 :: a1 :: a2 :: a3 :: b0 :: b1 :: b2 :: b3 :: rest => some (⟨wordOfBytes a0 a1 a2 a3, wordOfBytes b0 b1 b2 b3⟩, rest)
  | _ => none

/-- Decoding from a byte stream: the command of its first transaction, and the bytes after it. -/
def decodeBytes (bytes : List Byte) : Except Reject (Instr × List Byte) :=
  match takeTransaction bytes with
  | none => .error .truncated
  | some (t, rest) =>
    match decode t with
    | .error e => .error e
    | .ok i => .ok (i, rest)

/-- The eight bytes of a transaction given as one number: bit 0 is bit 0 of the command word, the operand word follows at
bit 32, and every bit from `nbits` on is 0. -/
def tableBytes (nbits w : Nat) : List Byte :=
  (List.range 8).map fun i => BitVec.ofNat 8 ((w % 2 ^ nbits) >>> (8 * i))

/-- The instruction the decoder reads from an opcode-table word of `nbits` bits. -/
def decodeTableWord (nbits w : Nat) : Option Instr :=
  match decodeBytes (tableBytes nbits w) with
  | .ok (i, _) => some i
  | .error _ => none

end Sys2Proof
end

