-- ==== Sys2Proof/Machine/Float.lean ====
section
/-!
DEFINITION. IEEE 754 binary32 arithmetic, round to nearest, ties to even (spec/00_scope.md R9, R10, R11). A finite pattern
is an integer number of units of 2^-149; each operation computes its exact result as a fraction of such units and rounds
once. No fused operation, no flush to zero, no exception flag.
-/

namespace Sys2Proof.Machine.Fp

/-- The magnitude bits `v[30:0]` as a number. -/
def mag (x : F32) : Nat := x.toNat % 2 ^ 31

/-- The sign bit `v[31]`. -/
def sign (x : F32) : Bool := x.msb

/-- The magnitude bits of infinity. -/
def infMag : Nat := 0x7F800000

/-- Not a number: exponent all ones, fraction not zero. -/
def isNaN (x : F32) : Bool := infMag < mag x

/-- Plus or minus infinity. -/
def isInf (x : F32) : Bool := mag x == infMag

/-- Neither NaN nor infinite. -/
def isFinite (x : F32) : Bool := mag x < infMag

/-- The value of a finite magnitude `m`, in units of 2^-149: a subnormal counts its fraction, a normal number its
24-bit significand shifted by its exponent. -/
def units (m : Nat) : Nat := if m < 2 ^ 23 then m else (2 ^ 23 + m % 2 ^ 23) * 2 ^ (m / 2 ^ 23 - 1)

/-- The value of a finite number, in units of 2^-149. -/
def toInt (x : F32) : Int := if sign x then -(units (mag x) : Int) else (units (mag x) : Int)

/-- The integer nearest to `n / d`, ties to the even one. -/
def rne (n d : Nat) : Nat :=
  if 2 * (n % d) < d then n / d
  else if d < 2 * (n % d) then n / d + 1
  else n / d + n / d % 2

/-- The exponent of one unit in the last place of the number nearest to `n / d` units: 24 bits of `n / d` stand above it. -/
def ulpExp (n d : Nat) : Nat := Nat.log2 (n / d) - 23

/-- The magnitude bits of the number nearest to `n / d` units, ties to even, with the exponent unbounded. The significand
`rne n (d * 2^e)` has at most 24 bits or is 2^24, and the carry into the exponent is the addition itself. -/
def nearestMag (n d : Nat) : Nat := ulpExp n d * 2 ^ 23 + rne n (d * 2 ^ ulpExp n d)

/-- The magnitude bits of the binary32 number nearest to `n / d` units: from 2^128 - 2^103 on, infinity. -/
def roundMag (n d : Nat) : Nat := min infMag (nearestMag n d)

/-- The pattern with a given sign and magnitude. -/
def ofMag (s : Bool) (m : Nat) : F32 := BitVec.ofNat 32 (if s then 2 ^ 31 + m else m)

/-- The binary32 number nearest to plus or minus `n / d` units. -/
def round (s : Bool) (n d : Nat) : F32 := ofMag s (roundMag n d)

/-- `+0.0`. -/
def zero : F32 := 0x00000000#32

/-- `1.0`. -/
def one : F32 := 0x3F800000#32

/-- `-1.0`. -/
def negOne : F32 := 0xBF800000#32

/-- Infinity of a given sign. -/
def inf (s : Bool) : F32 := ofMag s infMag

/-- The quiet NaN an invalid operation answers; its sign and payload are free (`Config.nanPayload`;
DESIGN CHOICE, log entry 4). -/
def nan (op : Nat) (x y : F32) : F32 := 0x7FC00000#32 ||| Config.nanPayload op x y

/-- `-v`: the sign bit changed. The spec writes it in `lp < -R[ZC_EPS]` only (R90; DEDUCED, log entry
8). -/
def neg (x : F32) : F32 := x ^^^ 0x80000000#32

/-- `abs(v)` "clears the sign bit" (R9). -/
def abs (x : F32) : F32 := x &&& 0x7FFFFFFF#32

/-- `a + b`. An exact zero sum is `+0.0` but where both operands are `-0.0` (round to nearest). -/
def add (x y : F32) : F32 :=
  if isNaN x || isNaN y then nan 0 x y
  else if isInf x then (if isInf y && (sign x != sign y) then nan 0 x y else x)
  else if isInf y then y
  else
    let v := toInt x + toInt y
    if v = 0 then ofMag (sign x && sign y) 0 else round (decide (v < 0)) v.natAbs 1

/-- `a - b`. -/
def sub (x y : F32) : F32 := add x (neg y)

/-- `a * b`. -/
def mul (x y : F32) : F32 :=
  if isNaN x || isNaN y then nan 1 x y
  else if isInf x || isInf y then
    (if mag x == 0 || mag y == 0 then nan 1 x y else inf (sign x != sign y))
  else round (sign x != sign y) (units (mag x) * units (mag y)) (2 ^ 149)

/-- `a / b`. -/
def div (x y : F32) : F32 :=
  if isNaN x || isNaN y then nan 2 x y
  else if isInf x then (if isInf y then nan 2 x y else inf (sign x != sign y))
  else if isInf y then ofMag (sign x != sign y) 0
  else if mag y == 0 then (if mag x == 0 then nan 2 x y else inf (sign x != sign y))
  else round (sign x != sign y) (units (mag x) * 2 ^ 149) (units (mag y))

/-- The integer square root of `n`, exact for `n < 4 ^ fuel`: two bits of `n` give one bit of the root. -/
def isqrt : Nat → Nat → Nat
  | 0, _ => 0
  | fuel + 1, n =>
    let r := 2 * isqrt fuel (n / 4)
    if (r + 1) * (r + 1) ≤ n then r + 1 else r

/-- The magnitude of the root of `u` units: the root of `u * 2^149` is taken to one unit, and a half unit stands for a
remainder, which decides every rounding because the result has at least 50 bits below its last place. -/
def sqrtMag (u : Nat) : Nat :=
  let n := u * 2 ^ 149
  let r := isqrt 214 n
  roundMag (2 * r + (if r * r = n then 0 else 1)) 2

/-- `sqrt(v)`, correctly rounded; the root of `-0.0` is `-0.0`, of a negative number NaN. -/
def sqrt (x : F32) : F32 :=
  if isNaN x then nan 3 x x
  else if mag x == 0 then x
  else if sign x then nan 3 x x
  else if isInf x then x
  else ofMag false (sqrtMag (units (mag x)))

/-- The order of the non-NaN numbers as an integer: magnitude bits with the sign, so that `+0 == -0` and an infinity lies
beyond every finite number. -/
def key (x : F32) : Int := if sign x then -(mag x : Int) else (mag x : Int)

/-- `a < b`; false where either is NaN (R9). -/
def lt (x y : F32) : Bool := !isNaN x && !isNaN y && decide (key x < key y)

/-- `a <= b`; false where either is NaN (R9). -/
def le (x y : F32) : Bool := !isNaN x && !isNaN y && decide (key x ≤ key y)

/-- `a == b`; false where either is NaN, and `+0 == -0` (R9). -/
def eq (x y : F32) : Bool := !isNaN x && !isNaN y && decide (key x = key y)

/-- `clamp(v, lo, hi)` (R10). -/
def clamp (v lo hi : F32) : F32 := if lt v lo then lo else if lt hi v then hi else v

/-- `max(a, b)` (R10): `b` if `a < b`, else `a`. -/
def max (a b : F32) : F32 := if lt a b then b else a

/-- `min(a, b)` (R10): `b` if `b < a`, else `a`. -/
def min (a b : F32) : F32 := if lt b a then b else a

/-- `f32(n)` for a natural number (R9). -/
def ofNat (n : Nat) : F32 := round false (n * 2 ^ 149) 1

/-- `f32(n)` for an integer (R9). -/
def ofInt (n : Int) : F32 := round (decide (n < 0)) (n.natAbs * 2 ^ 149) 1

/-- The binary32 number nearest to plus or minus `n / d` (an assembler's decimal literal, R60). -/
def ofRatio (s : Bool) (n d : Nat) : F32 := round s (n * 2 ^ 149) d

/-- `floor_int(v)`, "the greatest integer not above v, for finite v" (R9). -/
def floorInt (x : F32) : Int := if isFinite x then toInt x / 2 ^ 149 else Config.floorIntOutside x

/-- `Snap(v)` with the register FLOOR (R11). -/
def snap (floor v : F32) : F32 := if lt (abs v) floor then zero else v

end Sys2Proof.Machine.Fp
end

