-- ==== Sys2Proof/Machine/Parts.lean ====
section
/-!
DEFINITION. The parts of HCB's register state, as plain data (spec/10_state.md R22 to R33), each register under its own
name, grouped by the stage that writes it; the value every part has after hardware reset (R136); and reading and writing a
configuration register or a knob slot by name.
-/

namespace Sys2Proof.Machine

/-- The 31 configuration registers (R22). Only WRREG and hardware reset change one. -/
structure Cfg where
  /-- SAMPLE_RATE (0x00, f32): sample rate in Hz; used by R93. -/
  sampleRate : Word
  /-- DC_R (0x01, f32): pole of the DC blocker (R87). -/
  dcR : Word
  /-- LP_KEEP (0x02, f32): retention of the low-pass (R88). -/
  lpKeep : Word
  /-- ZC_EPS (0x03, f32): half-width of the hysteresis band (R90). -/
  zcEps : Word
  /-- HOLDOFF (0x04, u32): least sample count of a period (R92). -/
  holdoff : Word
  /-- F_MIN (0x05, f32): band floor, inclusive (R93). -/
  fMin : Word
  /-- F_MAX (0x06, f32): band ceiling, exclusive (R93). -/
  fMax : Word
  /-- FREQ_KEEP (0x07, f32): weight of the old estimate (R94). -/
  freqKeep : Word
  /-- FREQ_NEW (0x08, f32): weight of the candidate (R94). -/
  freqNew : Word
  /-- CERT_DECAY (0x09, f32): per-sample decay of the certainty (R95). -/
  certDecay : Word
  /-- CERT_THRESH (0x0A, f32): confidence threshold (R84, R78, R114). -/
  certThresh : Word
  /-- FLOOR (0x0B, f32): the floor of `Snap` (R11). -/
  floor : Word
  /-- ENV_OFFSET (0x0C, f32): offset added to the energy (R97). -/
  envOffset : Word
  /-- ENV_A (0x0D, f32): coefficient of both envelope sections (R98). -/
  envA : Word
  /-- GATE_ON_MIN (0x0E, f32): floor of the on-threshold (R75). -/
  gateOnMin : Word
  /-- GATE_OFF_RATIO (0x0F, f32): off-threshold over on-threshold (R75). -/
  gateOffRatio : Word
  /-- INTERVAL_NARROW (0x10, f32): semitones added for dense scales (R105). -/
  intervalNarrow : Word
  /-- INTERVAL_WIDE (0x11, f32): semitones added for sparse scales (R105). -/
  intervalWide : Word
  /-- SPARSE_MIN (0x12, u32): first sparse scale index (R105). -/
  sparseMin : Word
  /-- OCT_MIN (0x13, s32): lowest octave offset of the search (R106). -/
  octMin : Word
  /-- OCT_MAX (0x14, s32): highest octave offset of the search (R106). -/
  octMax : Word
  /-- QHYST (0x15, f32): hysteresis margin of the commit (R108). -/
  qhyst : Word
  /-- GLIDE_C_MIN (0x16, f32): glide coefficient at knob 1 (R76). -/
  glideCMin : Word
  /-- GLIDE_C_MAX (0x17, f32): glide coefficient at knob 0 (R76). -/
  glideCMax : Word
  /-- VIB_DEPTH_MAX (0x18, f32): full-scale vibrato depth (R113). -/
  vibDepthMax : Word
  /-- LFO_INC (0x19, f32): LFO cycles per sample (R112). -/
  lfoInc : Word
  /-- VCA_SCALE (0x1A, f32): level to target-gain scale (R114). -/
  vcaScale : Word
  /-- VCA_ATTACK (0x1B, f32): rate of a rising gain (R115). -/
  vcaAttack : Word
  /-- VCA_RELEASE (0x1C, f32): rate of a falling gain (R115). -/
  vcaRelease : Word
  /-- KNOB_COEF (0x1D, f32): coefficient of the knob smoother (R74). -/
  knobCoef : Word
  /-- SCALE_MUL (0x1E, f32): knob to scale-index factor (R77). -/
  scaleMul : Word
  deriving DecidableEq, Repr

/-- Reading a configuration register by name. -/
def Cfg.get (c : Cfg) : CfgReg → Word
  | .sampleRate => c.sampleRate
  | .dcR => c.dcR
  | .lpKeep => c.lpKeep
  | .zcEps => c.zcEps
  | .holdoff => c.holdoff
  | .fMin => c.fMin
  | .fMax => c.fMax
  | .freqKeep => c.freqKeep
  | .freqNew => c.freqNew
  | .certDecay => c.certDecay
  | .certThresh => c.certThresh
  | .floor => c.floor
  | .envOffset => c.envOffset
  | .envA => c.envA
  | .gateOnMin => c.gateOnMin
  | .gateOffRatio => c.gateOffRatio
  | .intervalNarrow => c.intervalNarrow
  | .intervalWide => c.intervalWide
  | .sparseMin => c.sparseMin
  | .octMin => c.octMin
  | .octMax => c.octMax
  | .qhyst => c.qhyst
  | .glideCMin => c.glideCMin
  | .glideCMax => c.glideCMax
  | .vibDepthMax => c.vibDepthMax
  | .lfoInc => c.lfoInc
  | .vcaScale => c.vcaScale
  | .vcaAttack => c.vcaAttack
  | .vcaRelease => c.vcaRelease
  | .knobCoef => c.knobCoef
  | .scaleMul => c.scaleMul

/-- Writing a configuration register by name. -/
def Cfg.set (c : Cfg) (r : CfgReg) (v : Word) : Cfg :=
  match r with
  | .sampleRate => { c with sampleRate := v }
  | .dcR => { c with dcR := v }
  | .lpKeep => { c with lpKeep := v }
  | .zcEps => { c with zcEps := v }
  | .holdoff => { c with holdoff := v }
  | .fMin => { c with fMin := v }
  | .fMax => { c with fMax := v }
  | .freqKeep => { c with freqKeep := v }
  | .freqNew => { c with freqNew := v }
  | .certDecay => { c with certDecay := v }
  | .certThresh => { c with certThresh := v }
  | .floor => { c with floor := v }
  | .envOffset => { c with envOffset := v }
  | .envA => { c with envA := v }
  | .gateOnMin => { c with gateOnMin := v }
  | .gateOffRatio => { c with gateOffRatio := v }
  | .intervalNarrow => { c with intervalNarrow := v }
  | .intervalWide => { c with intervalWide := v }
  | .sparseMin => { c with sparseMin := v }
  | .octMin => { c with octMin := v }
  | .octMax => { c with octMax := v }
  | .qhyst => { c with qhyst := v }
  | .glideCMin => { c with glideCMin := v }
  | .glideCMax => { c with glideCMax := v }
  | .vibDepthMax => { c with vibDepthMax := v }
  | .lfoInc => { c with lfoInc := v }
  | .vcaScale => { c with vcaScale := v }
  | .vcaAttack => { c with vcaAttack := v }
  | .vcaRelease => { c with vcaRelease := v }
  | .knobCoef => { c with knobCoef := v }
  | .scaleMul => { c with scaleMul := v }

/-- The configuration after hardware reset: every register at its default (R22, R136). -/
def Cfg.reset : Cfg where
  sampleRate := CfgReg.default .sampleRate
  dcR := CfgReg.default .dcR
  lpKeep := CfgReg.default .lpKeep
  zcEps := CfgReg.default .zcEps
  holdoff := CfgReg.default .holdoff
  fMin := CfgReg.default .fMin
  fMax := CfgReg.default .fMax
  freqKeep := CfgReg.default .freqKeep
  freqNew := CfgReg.default .freqNew
  certDecay := CfgReg.default .certDecay
  certThresh := CfgReg.default .certThresh
  floor := CfgReg.default .floor
  envOffset := CfgReg.default .envOffset
  envA := CfgReg.default .envA
  gateOnMin := CfgReg.default .gateOnMin
  gateOffRatio := CfgReg.default .gateOffRatio
  intervalNarrow := CfgReg.default .intervalNarrow
  intervalWide := CfgReg.default .intervalWide
  sparseMin := CfgReg.default .sparseMin
  octMin := CfgReg.default .octMin
  octMax := CfgReg.default .octMax
  qhyst := CfgReg.default .qhyst
  glideCMin := CfgReg.default .glideCMin
  glideCMax := CfgReg.default .glideCMax
  vibDepthMax := CfgReg.default .vibDepthMax
  lfoInc := CfgReg.default .lfoInc
  vcaScale := CfgReg.default .vcaScale
  vcaAttack := CfgReg.default .vcaAttack
  vcaRelease := CfgReg.default .vcaRelease
  knobCoef := CfgReg.default .knobCoef
  scaleMul := CfgReg.default .scaleMul

/-- One f32 value per knob slot: the raw knobs KRAW_* (0x20 to 0x26, R26) or the smoothed knobs KS_* (0x30 to 0x36, R27). -/
structure Knobs where
  /-- Slot 0: KRAW_GLIDE (0x20) or KS_GLIDE (0x30). -/
  glide : F32
  /-- Slot 1: KRAW_CUTOFF (0x21) or KS_CUTOFF (0x31). -/
  cutoff : F32
  /-- Slot 2: KRAW_MIX (0x22) or KS_MIX (0x32). -/
  mix : F32
  /-- Slot 3: KRAW_GATE (0x23) or KS_GATE (0x33). -/
  gate : F32
  /-- Slot 4: KRAW_VIB (0x24) or KS_VIB (0x34). -/
  vib : F32
  /-- Slot 5: KRAW_REVERB (0x25) or KS_REVERB (0x35). -/
  reverb : F32
  /-- Slot 6: KRAW_SCALE (0x26) or KS_SCALE (0x36). -/
  scale : F32
  deriving DecidableEq, Repr

/-- Reading a knob slot by name. -/
def Knobs.get (n : Knobs) : Knob → F32
  | .glide => n.glide
  | .cutoff => n.cutoff
  | .mix => n.mix
  | .gate => n.gate
  | .vib => n.vib
  | .reverb => n.reverb
  | .scale => n.scale

/-- Writing a knob slot by name. -/
def Knobs.set (n : Knobs) (k : Knob) (v : F32) : Knobs :=
  match k with
  | .glide => { n with glide := v }
  | .cutoff => { n with cutoff := v }
  | .mix => { n with mix := v }
  | .gate => { n with gate := v }
  | .vib => { n with vib := v }
  | .reverb => { n with reverb := v }
  | .scale => { n with scale := v }

/-- Every knob at `+0.0`, the reset value of KRAW (R26) and of KS (R27). -/
def Knobs.reset : Knobs where
  glide := Fp.zero
  cutoff := Fp.zero
  mix := Fp.zero
  gate := Fp.zero
  vib := Fp.zero
  reverb := Fp.zero
  scale := Fp.zero

/-- The derived block-rate registers (R28), written by BLOCK, SRESET and hardware reset. -/
structure Derived where
  /-- GATE_ON (0x38, f32): the gate's on-threshold (R75). -/
  gateOn : F32
  /-- GATE_OFF (0x39, f32): the gate's off-threshold (R75). -/
  gateOff : F32
  /-- GLIDE_C (0x3A, f32): the portamento coefficient (R76). -/
  glideC : F32
  /-- SCALE_IDX (0x3B, u32): the scale index, 0 to 5 (R77). -/
  scaleIdx : Word
  deriving DecidableEq, Repr

/-- The pitch detector's registers (R29), written by stage P of SAMPLE. ZC_STATE (0x43) is its two fields FALL and ARMED
(R30); its bits 31:2 "are always 0", so nothing holds them. -/
structure Detector where
  /-- DC_X1 (0x40, f32): previous sanitised input sample. -/
  dcX1 : F32
  /-- DC_Y1 (0x41, f32): previous DC-blocker output. -/
  dcY1 : F32
  /-- LP (0x42, f32): low-pass state. -/
  lp : F32
  /-- ZC_STATE bit 0, FALL: false for WaitingForRise, true for WaitingForFall (R30). -/
  fall : Bool
  /-- ZC_STATE bit 1, ARMED: true from the first valid rising edge after reset (R30). -/
  armed : Bool
  /-- ZC_COUNT (0x44, u32): samples since the last valid rising edge, saturating. -/
  zcCount : Word
  /-- PERIOD_LAST (0x45, u32): last period measured past the hold-off. -/
  periodLast : Word
  /-- FREQ (0x46, f32): frequency estimate in Hz, 0.0 before the first. -/
  freq : F32
  /-- CERT (0x47, f32): certainty in [0, 1]. -/
  cert : F32
  deriving DecidableEq, Repr

/-- The detector after reset: all `+0.0` or 0 (R29). -/
def Detector.reset : Detector where
  dcX1 := Fp.zero
  dcY1 := Fp.zero
  lp := Fp.zero
  fall := false
  armed := false
  zcCount := 0#32
  periodLast := 0#32
  freq := Fp.zero
  cert := Fp.zero

/-- The envelope follower's and the gate's registers (R31), written by stage E of SAMPLE. GATE (0x4B) is its bit 0, OPEN. -/
structure Envelope where
  /-- ENV_S1 (0x48, f32): first low-pass section. -/
  envS1 : F32
  /-- ENV_S2 (0x49, f32): second low-pass section, the mean-square estimate. -/
  envS2 : F32
  /-- LEVEL (0x4A, f32): RMS level. -/
  level : F32
  /-- GATE bit 0, OPEN. -/
  gateOpen : Bool
  deriving DecidableEq, Repr

/-- The envelope after reset (R31). -/
def Envelope.reset : Envelope where
  envS1 := Fp.zero
  envS2 := Fp.zero
  level := Fp.zero
  gateOpen := false

/-- The quantizer's registers (R32), written by stage Q of SAMPLE. -/
structure Quant where
  /-- QLAST (0x4C, f32): last quantizer result, committed or not. -/
  qlast : F32
  /-- TARGET (0x4D, f32): TargetPitch, fractional MIDI. -/
  target : F32
  deriving DecidableEq, Repr

/-- The quantizer after reset (R32). -/
def Quant.reset : Quant where
  qlast := Fp.zero
  target := Fp.zero

/-- The voice driver's registers (R32), written by stage V of SAMPLE. -/
structure Voice where
  /-- SMOOTH (0x4E, f32): SmoothedPitch, fractional MIDI. -/
  smooth : F32
  /-- LFO_PHASE (0x4F, f32): vibrato phase in [0, 1). -/
  lfoPhase : F32
  /-- PITCH_OUT (0x50, f32): SMOOTH plus the vibrato offset. -/
  pitchOut : F32
  /-- OSC_FREQ (0x51, f32): `MidiToHz(PITCH_OUT)`, for the external oscillator. -/
  oscFreq : F32
  /-- VCA_GAIN (0x52, f32): the VCA gain in [0, 1]. -/
  vcaGain : F32
  /-- VCA_TGT (0x56, f32): target gain of the last SAMPLE. -/
  vcaTgt : F32
  deriving DecidableEq, Repr

/-- The voice after reset (R32). -/
def Voice.reset : Voice where
  smooth := Fp.zero
  lfoPhase := Fp.zero
  pitchOut := Fp.zero
  oscFreq := Fp.zero
  vcaGain := Fp.zero
  vcaTgt := Fp.zero

end Sys2Proof.Machine
end

