-- ==== Sys2Proof/Machine/Derive.lean ====
section
/-!
DEFINITION. The steps BLOCK calls on the register parts (spec/41_block_command.md R74 to R79): the knob smoother, the gate
thresholds, the glide coefficient, the scale index, and the locked indicator. `derive` is also what SRESET and hardware
reset run (R79).
-/

namespace Sys2Proof.Machine

/-- One step of the one-pole knob smoother: `Snap(KS + KNOB_COEF * (KRAW - KS))` (R74). -/
def smoothKnob (c : Cfg) (ks kraw : F32) : F32 :=
  Fp.snap c.floor (Fp.add ks (Fp.mul c.knobCoef (Fp.sub kraw ks)))

/-- SmoothKnobs: every smoothed knob takes one step toward its raw knob (R74). No slot reads another, so the slot order
cannot be seen. -/
def smoothKnobs (c : Cfg) (ks kraw : Knobs) : Knobs where
  glide  := smoothKnob c ks.glide kraw.glide
  cutoff := smoothKnob c ks.cutoff kraw.cutoff
  mix    := smoothKnob c ks.mix kraw.mix
  gate   := smoothKnob c ks.gate kraw.gate
  vib    := smoothKnob c ks.vib kraw.vib
  reverb := smoothKnob c ks.reverb kraw.reverb
  scale  := smoothKnob c ks.scale kraw.scale

/-- The on-threshold: the square of KS_GATE, raised to GATE_ON_MIN where it is below it (R75; R28 writes it
`max(g * g, GATE_ON_MIN)`). -/
def gateOnOf (c : Cfg) (ks : Knobs) : F32 := Fp.max (Fp.mul ks.gate ks.gate) c.gateOnMin

/-- The off-threshold: `on * GATE_OFF_RATIO` (R75). -/
def gateOffOf (c : Cfg) (ks : Knobs) : F32 := Fp.mul (gateOnOf c ks) c.gateOffRatio

/-- The glide coefficient: `d = MAX - MIN`, `u = 1 - KS_GLIDE`, `w = u * u`, `MIN + d * w` (R76). -/
def glideCOf (c : Cfg) (ks : Knobs) : F32 :=
  let u := Fp.sub Fp.one ks.glide
  Fp.add c.glideCMin (Fp.mul (Fp.sub c.glideCMax c.glideCMin) (Fp.mul u u))

/-- The scale index: `min(5, floor_int(KS_SCALE * SCALE_MUL))`, stored as 32 bits (R77;
DESIGN CHOICE for a negative floor, which no run reaches, log entry 15). -/
def scaleIdxOf (c : Cfg) (ks : Knobs) : Word :=
  BitVec.ofInt 32 (min 5 (Fp.floorInt (Fp.mul ks.scale c.scaleMul)))

/-- Derive(): R75, R76 and R77, in that order, "and nothing else" (R79). -/
def derive (c : Cfg) (ks : Knobs) : Derived where
  gateOn   := gateOnOf c ks
  gateOff  := gateOffOf c ks
  glideC   := glideCOf c ks
  scaleIdx := scaleIdxOf c ks

/-- Confident(): `CERT > CERT_THRESH`, strict (R84). -/
def confident (c : Cfg) (d : Detector) : Bool := Fp.lt c.certThresh d.cert

/-- The locked indicator: the gate open and the pitch confident (R78). -/
def lockedOf (c : Cfg) (d : Detector) (e : Envelope) : Bool := e.gateOpen && confident c d

end Sys2Proof.Machine
end

