-- ==== Sys2Proof/Machine/State.lean ====
section
/-!
DEFINITION. The machine's state as plain data, its faults and refusals, and the state after hardware reset
(spec/10_state.md R20 to R40; spec/70_reset_and_hazards.md R136). The registers stand in `Cfg`, `Knobs`, `Derived`,
`Detector`, `Envelope`, `Quant` and `Voice` (Machine/Parts.lean). "HCB has no hidden state" (R40): beside the registers
and the table there are only the response port (R51) and the host's side of the command port (R38, R145).
-/

namespace Sys2Proof.Machine

/-- The response of a completed transaction: the response word RSP and the error bit RERR (R51). -/
structure Response where
  /-- RSP. -/
  rsp : Word
  /-- RERR: "1 exactly when the command raised ILL" (R57). -/
  rerr : Bool
  deriving DecidableEq, Repr

/-- What the host does at HCB's ports: it presents a transaction (R51), or asserts `rst` (R136, R147). -/
inductive HostEvent where
  | command (t : Transaction)
  | hardReset
  deriving DecidableEq, Repr

/-- The scale table as a list of cells (R36): an entry that is listed holds the listed byte, any other its default. -/
abbrev Memory := List Host.Cell

/-- The faults. HCB "has no trap mechanism" and no condition stops it (R120). -/
inductive Fault where
  /-- A read of scale-table entry `index`, which does not exist (R41: entries 0 to 89). Raised by SAMPLE's search only, when
  SCALE_IDX is above 5. No run from hardware reset reaches such a state (R28: SCALE_IDX is in 0..5). Safe: the machine
  stops where the spec gives nothing (DESIGN CHOICE, log entry 7). -/
  | noTableEntry (index : Nat)
  deriving DecidableEq, Repr

/-- The refusals: what the model has no meaning for. -/
inductive Refusal where
  /-- A command of the opcode table whose arm has no meaning yet. Raised by no arm: every command has its meaning. Safe. -/
  | notModelled (mnemonic : String)
  deriving DecidableEq, Repr

/-- The machine. Registers that only constants stand behind (ID, VERSION, R35) need no field. -/
structure State where
  /-- CFG registers, 0x00 to 0x1E (R22). -/
  cfg : Cfg
  /-- Raw knobs KRAW_*, 0x20 to 0x26 (R26). -/
  kraw : Knobs
  /-- Smoothed knobs KS_*, 0x30 to 0x36 (R27). -/
  ks : Knobs
  /-- Derived block-rate registers, 0x38 to 0x3B (R28). -/
  drv : Derived
  /-- Pitch detector, 0x40 to 0x47 (R29). -/
  det : Detector
  /-- Envelope and gate, 0x48 to 0x4B (R31). -/
  env : Envelope
  /-- Quantizer, 0x4C and 0x4D (R32). -/
  quant : Quant
  /-- Voice, 0x4E to 0x52 and 0x56 (R32). -/
  voice : Voice
  /-- LOCKED (0x53) bit 0; bits 31:1 read 0 (R33). -/
  locked : Bool
  /-- X_LAST (0x54, f32): the sanitised input of the last SAMPLE (R33). -/
  xLast : F32
  /-- Y_OUT (0x55, f32): the mixed output of the last MIX (R33). -/
  yOut : F32
  /-- STATUS (0x5F, W1C): ILL, CFGERR, NANIN, KCLAMP in bits 0 to 3 (R34). -/
  status : Word
  /-- The scale table TAB[0..89] (R36), as the cells that differ from the default. -/
  table : Memory
  /-- The response port: the response of the last completed command, none after hardware reset (R51, R136). -/
  response : Option Response
  /-- The MODEL's own field: what the host has still to do at the ports, oldest first (R5, R145; DESIGN CHOICE,
  log entry 1). -/
  inbox : List HostEvent
  /-- The position in the host's command sequence, "a natural number, advanced by 1 per command" (R38; its start at 0 is
  a DESIGN CHOICE, log entry 1). -/
  pos : Nat
  deriving DecidableEq, Repr

/-- The machine right after hardware reset (R136): the CFG defaults, knobs and dynamic state at +0.0 or 0, STATUS 0, the
default table, then Derive(); no response (R136), the host yet to present a command (R139), position 0. -/
def State.reset : State where
  cfg := Cfg.reset
  kraw := Knobs.reset
  ks := Knobs.reset
  drv := derive Cfg.reset Knobs.reset
  det := Detector.reset
  env := Envelope.reset
  quant := Quant.reset
  voice := Voice.reset
  locked := false
  xLast := Fp.zero
  yOut := Fp.zero
  status := 0#32
  table := []
  response := none
  inbox := []
  pos := 0

end Sys2Proof.Machine
end

