-- ==== Sys2Proof/Machine/Flags.lean ====
section
/-!
DEFINITION. The flags of HCB "and no others" (spec/10_state.md R39): the STATUS bits, raised and cleared here only, and the
flag registers ZC_STATE, GATE and LOCKED as the words they read.
-/

namespace Sys2Proof.Machine

/-- The sticky conditions of STATUS; the code of each is its bit number (R34, R121). -/
inductive StatusBit where
  | ill | cfgErr | nanIn | kClamp
  deriving DecidableEq, Repr

/-- The bit of STATUS a condition sets (R34). -/
def StatusBit.mask : StatusBit → Word
  | .ill    => 0x00000001#32
  | .cfgErr => 0x00000002#32
  | .nanIn  => 0x00000004#32
  | .kClamp => 0x00000008#32

/-- `raise ILL` and the like: "the write is an OR" (R15, R124). -/
def State.raise (s : State) (b : StatusBit) : State := { s with status := s.status ||| b.mask }

/-- Raising a condition where it holds, and nothing else. -/
def State.raiseIf (s : State) (c : Bool) (b : StatusBit) : State := if c then s.raise b else s

/-- Write-1-to-clear of STATUS: `STATUS & ~zext_32(OPND[3:0])` (R64). -/
def clearedStatus (status opnd : Word) : Word := status &&& ~~~(opnd &&& 0x0000000F#32)

/-- A flag in bit 0 of a word, bits 31:1 zero (R31, R33). -/
def flagWord (b : Bool) : Word := if b then 1#32 else 0#32

/-- ZC_STATE: bit 0 FALL, bit 1 ARMED, bits 31:2 zero (R30). -/
def zcStateWord (fall armed : Bool) : Word := flagWord fall ||| (if armed then 2#32 else 0#32)

end Sys2Proof.Machine
end

