-- ==== Sys2Proof/Machine/Operands.lean ====
section
/-!
DEFINITION. How the operand word is read (spec/30_encoding.md R53) and made legal: the sanitisers of SAMPLE (R82) and MIX
(R117), the WARL rules of the CFG and KNOB registers (R23, R24, R26), and the note number of WRTAB (R66). Each answers the
value used and whether the operand was corrected in a way that raises a status bit.
-/

namespace Sys2Proof.Machine

/-- `asf32(OPND)`: the operand as binary32 (R53). -/
def asF32 (opnd : Word) : F32 := opnd

/-- `u32(OPND)`: the operand as an unsigned integer (R53). -/
def u32 (opnd : Word) : Nat := opnd.toNat

/-- `s32(OPND)`: the operand as a two's-complement integer (R53). -/
def s32 (opnd : Word) : Int := opnd.toInt

/-- SanitizeX (R82): NaN and the infinities are replaced (NANIN), a finite value is clipped to [-1, 1] silently. -/
def sanitizeX (opnd : Word) : F32 × Bool :=
  let v := asF32 opnd
  if Fp.isNaN v then (Fp.zero, true)
  else if v = Fp.inf false then (Fp.one, true)
  else if v = Fp.inf true then (Fp.negOne, true)
  else if Fp.lt Fp.one v then (Fp.one, false)
  else if Fp.lt v Fp.negOne then (Fp.negOne, false)
  else (v, false)

/-- SanitizeH (R117): a NaN or infinite h is replaced by +0.0 (NANIN), any finite h used unchanged. -/
def sanitizeH (opnd : Word) : F32 × Bool :=
  let v := asF32 opnd
  if Fp.isFinite v then (v, false) else (Fp.zero, true)

/-- A write to an f32 CFG register with legal range [lo, hi] and old value `old` (R23); the flag is CFGERR. -/
def warlF32 (lo hi old : F32) (opnd : Word) : F32 × Bool :=
  let v := asF32 opnd
  if Fp.isNaN v then (old, true)
  else if Fp.lt v lo then (lo, true)
  else if Fp.lt hi v then (hi, true)
  else if Fp.eq v Fp.zero then (Fp.zero, false)
  else (v, false)

/-- A write of `n` to an integer CFG register with legal range [lo, hi] (R24); the flag is CFGERR. -/
def warlInt (lo hi n : Int) : Word × Bool :=
  if n < lo then (BitVec.ofInt 32 lo, true)
  else if hi < n then (BitVec.ofInt 32 hi, true)
  else (BitVec.ofInt 32 n, false)

/-- A write to a CFG register: R23 or R24 by its type. -/
def warlCfg (r : CfgReg) (old opnd : Word) : Word × Bool :=
  match r.range with
  | .f32 lo hi => warlF32 lo hi old opnd
  | .u32 lo hi => warlInt lo hi (u32 opnd)
  | .s32 lo hi => warlInt lo hi (s32 opnd)

/-- A write to a KNOB register (R26): clamped to [0, 1], NaN stored as 0.0; the flag is KCLAMP. -/
def warlKnob (opnd : Word) : F32 × Bool :=
  let v := asF32 opnd
  if Fp.isNaN v then (Fp.zero, true)
  else if Fp.lt v Fp.zero then (Fp.zero, true)
  else if Fp.lt Fp.one v then (Fp.one, true)
  else if Fp.eq v Fp.zero then (Fp.zero, false)
  else (v, false)

/-- The note number WRTAB stores: `u32(OPND)`, at most 127 (R66); the flag is CFGERR. -/
def noteOperand (opnd : Word) : Byte × Bool :=
  if 127 < u32 opnd then (127#8, true) else (BitVec.ofNat 8 (u32 opnd), false)

end Sys2Proof.Machine
end

