-- ==== Sys2Proof/Machine/Ops.lean ====
section
/-!
DEFINITION. The named operations over the scale table, the registers and the response port. A condition that stops a
command is taken by ONE operation, `State.takeIll`: HCB has no traps, so "an exception" is the status bit ILL with RERR
(spec/60_exceptions.md R120, R121); there is nothing to return from (R126), and the host ends a condition by clearing its
bit (`clearedStatus`, R64).
-/

namespace Sys2Proof.Machine

/-- The default contents of the scale table, one row of 15 degrees per scale (R37). -/
def defaultRows : List (List Byte) :=
  [[40, 42, 44, 45, 47, 49, 51, 52, 54, 56, 57, 59, 61, 63, 64],
   [40, 42, 43, 45, 47, 48, 50, 52, 54, 55, 57, 59, 60, 62, 64],
   [40, 42, 43, 45, 47, 49, 50, 52, 54, 55, 57, 59, 61, 62, 64],
   [40, 42, 44, 45, 47, 49, 50, 52, 54, 56, 57, 59, 61, 62, 64],
   [40, 43, 45, 47, 50, 52, 55, 57, 59, 62, 64, 67, 69, 71, 74],
   [40, 43, 45, 46, 47, 50, 52, 55, 57, 58, 59, 62, 64, 67, 69]]

/-- What an entry of the table that is not listed reads as: its default, TAB[15s + j] (R36, R37); none from 90 on, where
the table space has no entry (R41). Listing only the cells that differ is the model's (DESIGN CHOICE, log entry 10). -/
def Memory.unlisted (a : Nat) : Option Byte := (defaultRows[a / 15]?).bind fun row => row[a % 15]?

/-- Reading one entry; none where there is no such entry (R41). -/
def Memory.read (m : Memory) (a : Nat) : Option Byte :=
  (Memory.unlisted a).map fun d => (List.lookup a m).getD d

/-- Listing a byte at an address, addresses rising. -/
def Memory.insert : Memory → Nat → Byte → Memory
  | [], a, b => [(a, b)]
  | (x, y) :: rest, a, b =>
    if a < x then (a, b) :: (x, y) :: rest
    else if a = x then (a, b) :: rest
    else (x, y) :: Memory.insert rest a b

/-- Writing one entry. A byte equal to the default is not listed; an address without an entry is left alone (no command
writes one: R66 checks the index). -/
def Memory.write (m : Memory) (a : Nat) (b : Byte) : Memory :=
  match Memory.unlisted a with
  | none => m
  | some d => if b = d then m.filter (fun c => c.1 ≠ a) else Memory.insert m a b

/-- The canonical form: addresses strictly rising, every listed entry exists and differs from its default. -/
abbrev Memory.wf (m : Memory) : Prop :=
  (m.map Prod.fst).Pairwise (· < ·) ∧ ∀ c ∈ m, (Memory.unlisted c.1).isSome ∧ Memory.unlisted c.1 ≠ some c.2

/-- Reading a read-only register beside the smoothed knobs (R28 to R33). -/
def State.readRo (s : State) : RoReg → Word
  | .gateOn     => s.drv.gateOn
  | .gateOff    => s.drv.gateOff
  | .glideC     => s.drv.glideC
  | .scaleIdx   => s.drv.scaleIdx
  | .dcX1       => s.det.dcX1
  | .dcY1       => s.det.dcY1
  | .lp         => s.det.lp
  | .zcState    => zcStateWord s.det.fall s.det.armed
  | .zcCount    => s.det.zcCount
  | .periodLast => s.det.periodLast
  | .freq       => s.det.freq
  | .cert       => s.det.cert
  | .envS1      => s.env.envS1
  | .envS2      => s.env.envS2
  | .level      => s.env.level
  | .gate       => flagWord s.env.gateOpen
  | .qlast      => s.quant.qlast
  | .target     => s.quant.target
  | .smooth     => s.voice.smooth
  | .lfoPhase   => s.voice.lfoPhase
  | .pitchOut   => s.voice.pitchOut
  | .oscFreq    => s.voice.oscFreq
  | .vcaGain    => s.voice.vcaGain
  | .locked     => flagWord s.locked
  | .xLast      => s.xLast
  | .yOut       => s.yOut
  | .vcaTgt     => s.voice.vcaTgt

/-- The 32 bits a register reads as (R21, R65): `bitsof`, the unsigned integer, or two's complement. -/
def State.readReg (s : State) : Reg → Word
  | .cfg r   => s.cfg.get r
  | .kraw k  => s.kraw.get k
  | .ks k    => s.ks.get k
  | .ro r    => s.readRo r
  | .status  => s.status
  | .id      => idWord
  | .version => versionWord

/-- Completing a command: `RSP <- w`, `RERR = 0` (R51, R57). -/
def State.answer (s : State) (w : Word) : State := { s with response := some ⟨w, false⟩ }

/-- Taking the one condition that stops a command: `raise ILL; RERR <- 1; RSP <- 0`, "no other state changes" (R69). -/
def State.takeIll (s : State) : State := { s.raise .ill with response := some ⟨0#32, true⟩ }

/-- Hardware reset (R136): every piece of HCB's state takes its reset state. What the host has still to do, and the position
in its command sequence, are the host's (DESIGN CHOICE, log entry 2). -/
def State.hardReset (s : State) : State := { State.reset with inbox := s.inbox, pos := s.pos }

/-- A write to STATUS (W1C, R64). -/
def State.clearStatus (s : State) (opnd : Word) : State := { s with status := clearedStatus s.status opnd }

/-- A write to a CFG register (R23, R24). -/
def State.writeCfg (s : State) (r : CfgReg) (opnd : Word) : State :=
  let w := warlCfg r (s.cfg.get r) opnd
  { s with cfg := s.cfg.set r w.1 }.raiseIf w.2 .cfgErr

/-- A write to a KNOB register (R26). -/
def State.writeKnob (s : State) (k : Knob) (opnd : Word) : State :=
  let w := warlKnob opnd
  { s with kraw := s.kraw.set k w.1 }.raiseIf w.2 .kClamp

/-- The continuously driven outputs (R147; R85 names SAMPLE's). -/
structure Ports where
  /-- `osc_freq`: OSC_FREQ. -/
  oscFreq : F32
  /-- `pitch_out`: PITCH_OUT. -/
  pitchOut : F32
  /-- `vca_gain`: VCA_GAIN. -/
  vcaGain : F32
  /-- `gate_open`: GATE.OPEN. -/
  gateOpen : Bool
  /-- `locked`: LOCKED bit 0. -/
  locked : Bool
  /-- `y_out`: Y_OUT, for both output channels. -/
  yOut : F32
  /-- `ks_cutoff`: KS_CUTOFF, for the external filter. -/
  ksCutoff : F32
  /-- `ks_reverb`: KS_REVERB, for the external reverb. -/
  ksReverb : F32
  deriving DecidableEq, Repr

/-- What the output ports carry in a state: they "reflect the state after" the last completed command (R147). -/
def State.ports (s : State) : Ports where
  oscFreq  := s.voice.oscFreq
  pitchOut := s.voice.pitchOut
  vcaGain  := s.voice.vcaGain
  gateOpen := s.env.gateOpen
  locked   := s.locked
  yOut     := s.yOut
  ksCutoff := s.ks.cutoff
  ksReverb := s.ks.reverb

end Sys2Proof.Machine
end

