-- ==== Sys2Proof/Machine/Block.lean ====
section
/-!
DEFINITION. The BLOCK command (spec/41_block_command.md R73).
-/

namespace Sys2Proof.Machine

/-- BLOCK (R73): SmoothKnobs, Derive on the knobs just smoothed, then UpdateLocked on GATE and CERT "as the last SAMPLE left
them". -/
def execBlock (s : State) : Host.Outcome State Fault Refusal :=
  let ks := smoothKnobs s.cfg s.ks s.kraw
  .next ({ s with ks := ks, drv := derive s.cfg ks, locked := lockedOf s.cfg s.det s.env }.answer 0#32)

end Sys2Proof.Machine
end

