-- ==== Sys2Proof/Machine/Control.lean ====
section
/-!
DEFINITION. NOP, SRESET and the illegal command (spec/40_register_commands.md R63, R68, R69).
-/

namespace Sys2Proof.Machine

/-- NOP (R63): `RSP <- 0`, nothing else. -/
def execNop (s : State) : Host.Outcome State Fault Refusal := .next (s.answer 0#32)

/-- The registers SRESET resets: indices 0x30 to 0x36 and 0x40 to 0x56, then Derive() with the smoothed knobs at 0.0 under
the configuration in force (R68). CFG, KNOB, STATUS and the table stay. -/
def State.softReset (s : State) : State :=
  { s with
    ks := Knobs.reset
    drv := derive s.cfg Knobs.reset
    det := Detector.reset
    env := Envelope.reset
    quant := Quant.reset
    voice := Voice.reset
    locked := false
    xLast := Fp.zero
    yOut := Fp.zero }

/-- SRESET (R68). -/
def execSreset (s : State) : Host.Outcome State Fault Refusal := .next (s.softReset.answer 0#32)

/-- The illegal command (R69): "any command word 30_encoding.md rule R55 calls illegal". It is no row of the opcode table;
the step runs it where the decoder rejects. -/
def execIllegal (s : State) : Host.Outcome State Fault Refusal := .next s.takeIll

end Sys2Proof.Machine
end

