-- ==== Sys2Proof/Machine/RegisterCommands.lean ====
section
/-!
DEFINITION. The register and table commands (spec/40_register_commands.md R64 to R67). The index is checked when the command
runs (R56): an index it may not reach takes ILL and has no other effect.
-/

namespace Sys2Proof.Machine

/-- WRREG (R64): by the access class of the register; an unmapped, RO or CONST index takes ILL. -/
def execWrreg (idx : Byte) (opnd : Word) (s : State) : Host.Outcome State Fault Refusal :=
  match Reg.ofIndex idx with
  | some (.cfg r)  => .next ((s.writeCfg r opnd).answer 0#32)
  | some (.kraw k) => .next ((s.writeKnob k opnd).answer 0#32)
  | some .status   => .next ((s.clearStatus opnd).answer 0#32)
  | some (.ks _)   => .next s.takeIll
  | some (.ro _)   => .next s.takeIll
  | some .id       => .next s.takeIll
  | some .version  => .next s.takeIll
  | none           => .next s.takeIll

/-- RDREG (R65): the register's 32 bits, without side effect (R45); an unmapped index takes ILL. -/
def execRdreg (idx : Byte) (s : State) : Host.Outcome State Fault Refusal :=
  match Reg.ofIndex idx with
  | some r => .next (s.answer (s.readReg r))
  | none   => .next s.takeIll

/-- WRTAB (R66): the note, at most 127, into the entry; an index above 89 takes ILL. -/
def execWrtab (idx : Byte) (opnd : Word) (s : State) : Host.Outcome State Fault Refusal :=
  if 89 < idx.toNat then .next s.takeIll
  else
    let n := noteOperand opnd
    .next (({ s with table := Memory.write s.table idx.toNat n.1 }.raiseIf n.2 .cfgErr).answer 0#32)

/-- RDTAB (R67): the entry zero-extended; an index above 89 takes ILL. -/
def execRdtab (idx : Byte) (s : State) : Host.Outcome State Fault Refusal :=
  match Memory.read s.table idx.toNat with
  | some b => .next (s.answer (b.setWidth 32))
  | none   => .next s.takeIll

end Sys2Proof.Machine
end

