-- ==== Sys2Proof/Machine/EnvelopeGate.lean ====
section
/-!
DEFINITION. Stage E of SAMPLE, the envelope follower and the Schmitt gate (spec/44_envelope_gate.md R97 to R100). It writes
ENV_S1, ENV_S2, LEVEL and GATE, "and nothing else".
-/

namespace Sys2Proof.Machine

/-- The energy: `x * x + ENV_OFFSET`, two roundings (R97). -/
def energyOf (c : Cfg) (x : F32) : F32 := Fp.add (Fp.mul x x) c.envOffset

/-- One low-pass section: `Snap(S + ENV_A * (in - S))` (R98). -/
def envSection (c : Cfg) (s input : F32) : F32 :=
  Fp.snap c.floor (Fp.add s (Fp.mul c.envA (Fp.sub input s)))

/-- The RMS level: the root of the mean square, of +0.0 where that is not positive (R99). -/
def levelOf (envS2 : F32) : F32 := Fp.sqrt (Fp.max Fp.zero envS2)

/-- The gate: opens only above GATE_ON while closed, closes only below GATE_OFF while open (R100). -/
def gateAfter (v : Derived) (gateOpen : Bool) (level : F32) : Bool :=
  if gateOpen then !Fp.lt level v.gateOff else Fp.lt v.gateOn level

/-- StageE(x) (R97 to R100). -/
def stageE (c : Cfg) (v : Derived) (e : Envelope) (x : F32) : Envelope :=
  let s1 := envSection c e.envS1 (energyOf c x)
  let s2 := envSection c e.envS2 s1
  let level := levelOf s2
  { envS1 := s1, envS2 := s2, level := level, gateOpen := gateAfter v e.gateOpen level }

end Sys2Proof.Machine
end

