-- ==== Sys2Proof/Machine/Pitch.lean ====
section
/-!
DEFINITION. Stage P of SAMPLE, the pitch detector (spec/43_pitch_detector.md R87 to R95). It reads the configuration, its own
registers and the sanitised sample, and writes its own registers "and nothing else".
-/

namespace Sys2Proof.Machine

/-- The DC blocker's output: `Snap((x - DC_X1) + DC_R * DC_Y1)` (R87). -/
def pitchHp (c : Cfg) (d : Detector) (x : F32) : F32 :=
  Fp.snap c.floor (Fp.add (Fp.sub x d.dcX1) (Fp.mul c.dcR d.dcY1))

/-- The low-pass output: `k = 1 - LP_KEEP`, `Snap(LP_KEEP * LP + k * hp)` (R88). -/
def pitchLp (c : Cfg) (d : Detector) (x : F32) : F32 :=
  let k := Fp.sub Fp.one c.lpKeep
  Fp.snap c.floor (Fp.add (Fp.mul c.lpKeep d.lp) (Fp.mul k (pitchHp c d x)))

/-- The sample counter adds 1, saturating at 0xFFFFFFFF (R89). -/
def countUp (n : Word) : Word := if n = 0xFFFFFFFF#32 then 0xFFFFFFFF#32 else n + 1#32

/-- What the edge test of one SAMPLE finds (R90 to R92). -/
inductive Edge where
  /-- No edge. -/
  | none
  /-- A falling edge (R90). -/
  | fall
  /-- The first rising edge after reset, which only arms (R91). -/
  | arm
  /-- A rising edge inside the hold-off, which is discarded (R92). -/
  | heldOff
  /-- A rising edge past the hold-off, which measures a period (R92, R93). -/
  | measure
  deriving DecidableEq, Repr

/-- The edge test on the new low-pass output and the counter already advanced (R90, R91, R92). -/
def edgeOf (c : Cfg) (d : Detector) (lp : F32) (count : Word) : Edge :=
  if !d.fall && Fp.lt c.zcEps lp then
    (if !d.armed then .arm else if c.holdoff.toNat ≤ count.toNat then .measure else .heldOff)
  else if d.fall && Fp.lt lp (Fp.neg c.zcEps) then .fall
  else .none

/-- FALL after an edge: 1 at a rising edge (discarded or not), 0 at a falling edge (R90, R92). -/
def Edge.fallAfter (e : Edge) (fall : Bool) : Bool :=
  match e with
  | .none => fall
  | .fall => false
  | .arm | .heldOff | .measure => true

/-- The candidate frequency of a period: `SAMPLE_RATE / f32_of_u32(P)` (R93). -/
def candidateFreq (c : Cfg) (period : Word) : F32 := Fp.div c.sampleRate (Fp.ofNat period.toNat)

/-- The band check: `F_MIN <= cand` and `cand < F_MAX` (R93). -/
def inBand (c : Cfg) (cand : F32) : Bool := Fp.le c.fMin cand && Fp.lt cand c.fMax

/-- FREQ after an accepted candidate: the seed where there is no estimate yet, else the blend (R94). -/
def blendFreq (c : Cfg) (freq cand : F32) : F32 :=
  if Fp.eq freq Fp.zero then cand
  else Fp.snap c.floor (Fp.add (Fp.mul c.freqKeep freq) (Fp.mul c.freqNew cand))

/-- The edge this SAMPLE finds. -/
def pitchEdge (c : Cfg) (d : Detector) (x : F32) : Edge := edgeOf c d (pitchLp c d x) (countUp d.zcCount)

/-- Whether this SAMPLE accepts a candidate: a measuring edge with a candidate in band (R93). -/
def pitchAccepted (c : Cfg) (d : Detector) (x : F32) : Bool :=
  pitchEdge c d x == .measure && inBand c (candidateFreq c (countUp d.zcCount))

/-- Certainty decays where the SAMPLE did not accept (R95). -/
def decayedCert (c : Cfg) (cert : F32) : F32 := Fp.snap c.floor (Fp.mul cert c.certDecay)

/-- StageP(x) (R87 to R95). -/
def stageP (c : Cfg) (d : Detector) (x : F32) : Detector :=
  let count := countUp d.zcCount
  let edge := pitchEdge c d x
  let accepted := pitchAccepted c d x
  { dcX1       := x
    dcY1       := pitchHp c d x
    lp         := pitchLp c d x
    fall       := edge.fallAfter d.fall
    armed      := d.armed || edge == .arm
    zcCount    := if edge = .arm ∨ edge = .measure then 0#32 else count
    periodLast := if edge = .measure then count else d.periodLast
    freq       := if accepted then blendFreq c d.freq (candidateFreq c count) else d.freq
    cert       := if accepted then Fp.one else decayedCert c d.cert }

end Sys2Proof.Machine
end

