-- ==== Sys2Proof/Machine/Elementary.lean ====
section
/-!
DEFINITION. `HzToMidi`, `MidiToHz` and `Sin2Pi`, correctly rounded to binary32 (spec/00_scope.md R12, R13, R14).
Each is enclosed between two rational bounds, computed in fixed point with `p` fraction bits, every division rounded
outward. Where both bounds round to one binary32 number, that number is the correctly rounded result; else the bounds are
computed again with twice the bits. Assumption log entry 3.
-/

namespace Sys2Proof.Machine.Fp

/-- `n / d` rounded up. -/
def ceilDiv (n d : Nat) : Nat := (n + d - 1) / d

/-- How many terms of a series are summed for `p` fraction bits. -/
def terms (p : Nat) : Nat := p / 3 + 4

/-- A lower bound of `2^p * S_k`, where `S_k = 1 + (z/k) * S_{k+1}` and `exp z = S_1`; `z` is in units of `2^-p`. -/
def expLo (p z : Nat) : Nat → Nat → Nat
  | 0, _ => 2 ^ p
  | n + 1, k => 2 ^ p + z * expLo p z n (k + 1) / (k * 2 ^ p)

/-- An upper bound of `2^p * S_k` for `z <= 1`, where `S_k` is at most 2 from `k = 2` on. -/
def expHi (p z : Nat) : Nat → Nat → Nat
  | 0, _ => 2 * 2 ^ p
  | n + 1, k => 2 ^ p + ceilDiv (z * expHi p z n (k + 1)) (k * 2 ^ p)

/-- A lower bound of `2^p * T_j`, where `T_j = 1/(2j+1) + x^2 * T_{j+1}` and `artanh x = x * T_0`; `x2` bounds `x^2`
from below, in units of `2^-p`. -/
def artanhLo (p x2 : Nat) : Nat → Nat → Nat
  | 0, _ => 0
  | n + 1, j => 2 ^ p / (2 * j + 1) + x2 * artanhLo p x2 n (j + 1) / 2 ^ p

/-- An upper bound of `2^p * T_j` for `x <= 1/3` and `j >= 1`, where every `T_j` is at most 1. -/
def artanhHi (p x2 : Nat) : Nat → Nat → Nat
  | 0, _ => 2 ^ p
  | n + 1, j => ceilDiv (2 ^ p) (2 * j + 1) + ceilDiv (x2 * artanhHi p x2 n (j + 1)) (2 ^ p)

/-- Bounds of `2^p * ln(r)` for `r = (b + a)/(b - a)` and `a/b <= 1/3`: `ln r = 2 * artanh (a/b)`. -/
def lnBounds (p a b : Nat) : Nat × Nat :=
  (2 * a * artanhLo p (a * a * 2 ^ p / (b * b)) (terms p) 0 / b,
   ceilDiv (2 * a * artanhHi p (ceilDiv (a * a * 2 ^ p) (b * b)) (terms p) 0) b)

/-- Bounds of `2^p * ln 2`, with `2 = (3 + 1)/(3 - 1)`. -/
def ln2Bounds (p : Nat) : Nat × Nat := lnBounds p 1 3

/-- Bounds of `2^p * A_j`, where `A_j = 1/(2j+1) - A_{j+1}/q^2` and `arctan (1/q) = A_0 / q`; every `A_j` is in [0,1]. -/
def atanBounds (p q : Nat) : Nat → Nat → Nat × Nat
  | 0, _ => (0, 2 ^ p)
  | n + 1, j =>
    let r := atanBounds p q n (j + 1)
    (2 ^ p / (2 * j + 1) - ceilDiv r.2 (q * q), ceilDiv (2 ^ p) (2 * j + 1) - r.1 / (q * q))

/-- Bounds of `2^p * pi`, with `pi = 16 arctan (1/5) - 4 arctan (1/239)`. -/
def piBounds (p : Nat) : Nat × Nat :=
  let u := atanBounds p 5 (terms p) 0
  let v := atanBounds p 239 (terms p) 0
  (16 * u.1 / 5 - ceilDiv (4 * v.2) 239, ceilDiv (16 * u.2) 5 - 4 * v.1 / 239)

/-- Bounds of `2^p * U_k`, where `U_k = 1 - (z^2/(2k(2k+1))) * U_{k+1}` and `sin z = z * U_1`; `lo` and `hi` bound `z^2`
in units of `2^-p`. For `z` in [0, pi/2] every `U_k` is in [0,1]. -/
def sinBounds (p lo hi : Nat) : Nat → Nat → Nat × Nat
  | 0, _ => (0, 2 ^ p)
  | n + 1, k =>
    let r := sinBounds p lo hi n (k + 1)
    (2 ^ p - ceilDiv (hi * r.2) (2 * k * (2 * k + 1) * 2 ^ p), 2 ^ p - lo * r.1 / (2 * k * (2 * k + 1) * 2 ^ p))

/-- The result whose two bounds round alike at 96, 192 or 384 bits. At 384 bits the lower bound's rounding is taken
(UNVERIFIED in Lean that no argument comes to that, log entry 3). -/
def settle (bounds : Nat → F32 × F32) : F32 :=
  if (bounds 96).1 = (bounds 96).2 then (bounds 96).1
  else if (bounds 192).1 = (bounds 192).2 then (bounds 192).1
  else (bounds 384).1

/-- The binary32 number nearest to the signed fixed-point value `v / 2^p`. -/
def roundFixed (p : Nat) (v : Int) : F32 := round (decide (v < 0)) (v.natAbs * 2 ^ 149) (2 ^ p)

/-- The exponent `k` with `440 * 2^k <= f < 440 * 2^(k+1)`, for `u` units of `f`: `440` is `55 * 2^152` units. -/
def octaveOf (u : Nat) : Int :=
  let k : Int := (Nat.log2 u : Int) - 157
  if u * 2 ^ (157 : Nat) < 55 * 2 ^ (152 : Nat) * 2 ^ Nat.log2 u then k - 1 else k

/-- The fraction `r = f / (440 * 2^k)` in [1, 2) as a pair, for `u` units of `f` and `k = octaveOf u`. -/
def octaveFraction (u : Nat) (k : Int) : Nat × Nat :=
  (u * 2 ^ (-k).toNat, 55 * 2 ^ 152 * 2 ^ k.toNat)

/-- Both bounds of `69 + 12 * log2(f/440)`, rounded to binary32: `log2(f/440) = k + ln r / ln 2`. -/
def hzToMidiBounds (u p : Nat) : F32 × F32 :=
  let k := octaveOf u
  let r := octaveFraction u k
  let l := lnBounds p (r.1 - r.2) (r.1 + r.2)
  let c := ln2Bounds p
  let base : Int := (69 + 12 * k) * 2 ^ p
  (roundFixed p (base + 12 * (l.1 * 2 ^ p / c.2 : Nat)), roundFixed p (base + 12 * (ceilDiv (l.2 * 2 ^ p) c.1 : Nat)))

/-- `HzToMidi(f)`: the binary32 value nearest to `69 + 12 * log2(f / 440)`, for a finite `f > 0` (R12). -/
def hzToMidi (f : F32) : F32 :=
  if isFinite f && !sign f && mag f != 0 then settle (hzToMidiBounds (units (mag f))) else Config.hzToMidiOutside f

/-- `440 * 2^k * (e / 2^p)` rounded to binary32. -/
def roundOctave (p : Nat) (k : Int) (e : Nat) : F32 :=
  round false (440 * e * 2 ^ k.toNat * 2 ^ 149) (2 ^ p * 2 ^ (-k).toNat)

/-- Both bounds of `440 * 2^(k + b/d)`, rounded to binary32, where `d = 12 * 2^149`: `2^(b/d) = exp((b/d) ln 2)`. -/
def midiToHzBounds (k : Int) (b p : Nat) : F32 × F32 :=
  let d := 12 * 2 ^ 149
  let c := ln2Bounds p
  (roundOctave p k (expLo p (b * c.1 / d) (terms p) 1),
   roundOctave p k (expHi p (ceilDiv (b * c.2) d) (terms p) 1))

/-- `MidiToHz(m)`: the binary32 value nearest to `440 * 2^((m - 69)/12)`, for a finite `m` (R13). Beyond 300 octaves up
the value is past the largest binary32 number, and beyond 400 down below half the smallest (DEDUCED, log entry 17). -/
def midiToHz (m : F32) : F32 :=
  if isFinite m then
    let t : Int := toInt m - 69 * 2 ^ 149
    let k : Int := t / (12 * 2 ^ 149)
    let b : Nat := (t % (12 * 2 ^ 149)).toNat
    if 300 ≤ k then inf false
    else if k ≤ -400 then zero
    else if b = 0 then roundOctave 0 k 1
    else settle (midiToHzBounds k b)
  else Config.midiToHzOutside m

/-- Both bounds of `sin(2 pi w / 2^149)` with a given sign, rounded to binary32, for `w` in (0, 2^147]: a quarter turn. The
sine of a quarter turn or less is at most 1. -/
def sin2PiBounds (s : Bool) (w p : Nat) : F32 × F32 :=
  let c := piBounds p
  let z := (2 * c.1 * w / 2 ^ 149, ceilDiv (2 * c.2 * w) (2 ^ 149))
  let u := sinBounds p (z.1 * z.1 / 2 ^ p) (ceilDiv (z.2 * z.2) (2 ^ p)) (terms p) 1
  let d := 2 ^ p * 2 ^ p
  (round s (Nat.min (2 * w * c.1 * u.1) (2 ^ 149 * d)) d, round s (Nat.min (2 * w * c.2 * u.2) (2 ^ 149 * d)) d)

/-- `Sin2Pi(p)`: the binary32 value nearest to `sin(2 pi p)`, for a finite `p`; an exact zero is `+0.0` (R14). The phase
is reduced to a fraction `w` of a turn, in units of 2^-149, then to the first quarter. -/
def sin2Pi (x : F32) : F32 :=
  if isFinite x then
    let w := units (mag x) % 2 ^ 149
    let h := w % 2 ^ 148
    if h = 0 then zero
    else settle (sin2PiBounds (sign x != decide (2 ^ 148 < w)) (if h ≤ 2 ^ 147 then h else 2 ^ 148 - h))
  else Config.sin2PiOutside x

end Sys2Proof.Machine.Fp
end

