-- ==== Sys2Proof/Machine/Quantizer.lean ====
section
/-!
DEFINITION. Stage Q of SAMPLE, the scale quantizer (spec/45_scale_quantizer.md R103 to R108). It writes QLAST and TARGET,
"and nothing else".
-/

namespace Sys2Proof.Machine

/-- The enable: the gate open, confident, and FREQ > 0.0 (R103). -/
def quantEnabled (c : Cfg) (d : Detector) (e : Envelope) : Bool :=
  e.gateOpen && confident c d && Fp.lt Fp.zero d.freq

/-- The interval: wide for scale indices from SPARSE_MIN on, narrow below, compared unsigned (R105). -/
def intervalOf (c : Cfg) (v : Derived) : F32 :=
  if c.sparseMin.toNat ≤ v.scaleIdx.toNat then c.intervalWide else c.intervalNarrow

/-- The raw target: `HzToMidi(FREQ) + iv`, one rounded addition (R104, R105). -/
def rawTarget (c : Cfg) (v : Derived) (d : Detector) : F32 := Fp.add (Fp.hzToMidi d.freq) (intervalOf c v)

/-- The octave offsets OCT_MIN to OCT_MAX, ascending; none where OCT_MIN > OCT_MAX (R106). -/
def octaves (c : Cfg) : List Int :=
  let lo := c.octMin.toInt
  (List.range (c.octMax.toInt - lo + 1).toNat).map fun (i : Nat) => lo + (i : Int)

/-- The order of the search: ascending octave, then ascending degree (R106, R107). -/
def searchOrder (c : Cfg) : List (Int × Nat) :=
  (octaves c).flatMap fun k => (List.range 15).map fun j => (k, j)

/-- A candidate as a number: the entry's note plus twelve per octave, "an integer in [-48, 175], exact in binary32"
(R106). -/
def candidateNote (note : Byte) (k : Int) : F32 := Fp.ofInt ((note.toNat : Int) + 12 * k)

/-- The candidates of scale `s` in search order, or the index of the first table entry that does not exist (R106, R41). -/
def readCandidates (m : Memory) (s : Nat) : List (Int × Nat) → Except Nat (List F32)
  | [] => .ok []
  | (k, j) :: rest =>
    match Memory.read m (15 * s + j) with
    | none => .error (15 * s + j)
    | some note =>
      match readCandidates m s rest with
      | .error a => .error a
      | .ok cs => .ok (candidateNote note k :: cs)

/-- The distance of a candidate: one rounded subtraction, then the exact absolute value (R106). -/
def distance (t c : F32) : F32 := Fp.abs (Fp.sub t c)

/-- One step of the search: the candidate becomes the best so far when it is the first or strictly nearer (R106, R107). -/
def searchStep (t : F32) (best : Option (F32 × F32)) (c : F32) : Option (F32 × F32) :=
  match best with
  | none => some (c, distance t c)
  | some (b, bd) => if Fp.lt (distance t c) bd then some (c, distance t c) else some (b, bd)

/-- Nearest over a list of candidates: the first at the least distance, none where there is no candidate (R106, R107). -/
def nearestOf (t : F32) (cs : List F32) : Option F32 := (cs.foldl (searchStep t) none).map Prod.fst

/-- Nearest(t, s): over the table and the octave range in force (R106). -/
def nearest (c : Cfg) (m : Memory) (t : F32) (s : Nat) : Except Nat (Option F32) :=
  match readCandidates m s (searchOrder c) with
  | .error a => .error a
  | .ok cs => .ok (nearestOf t cs)

/-- The commit: QLAST takes every result; TARGET takes it where it differs by more than QHYST (R108). -/
def commit (c : Cfg) (n : Quant) (q : F32) : Quant where
  qlast := q
  target := if Fp.lt c.qhyst (Fp.abs (Fp.sub q n.target)) then q else n.target

/-- StageQ(confident) (R103 to R108): nothing changes where the stage is not enabled or nothing is found. -/
def stageQ (c : Cfg) (v : Derived) (m : Memory) (d : Detector) (e : Envelope) (n : Quant) : Except Nat Quant :=
  if quantEnabled c d e then
    match nearest c m (rawTarget c v d) v.scaleIdx.toNat with
    | .error a => .error a
    | .ok none => .ok n
    | .ok (some q) => .ok (commit c n q)
  else .ok n

end Sys2Proof.Machine
end

