-- ==== Sys2Proof/Machine/Voice.lean ====
section
/-!
DEFINITION. Stage V of SAMPLE, the control part of the voice driver, and the MIX command (spec/46_voice_driver.md R111 to
R117). Stage V writes SMOOTH, LFO_PHASE, PITCH_OUT, OSC_FREQ, VCA_TGT and VCA_GAIN, "and nothing else".
-/

namespace Sys2Proof.Machine

/-- Portamento: `Snap(SMOOTH + GLIDE_C * (TARGET - SMOOTH))` (R111). -/
def glide (c : Cfg) (v : Derived) (smooth target : F32) : F32 :=
  Fp.snap c.floor (Fp.add smooth (Fp.mul v.glideC (Fp.sub target smooth)))

/-- The vibrato phase after one increment, wrapped below 1.0 (R112). -/
def lfoAdvance (c : Cfg) (phase : F32) : F32 :=
  let ph := Fp.add phase c.lfoInc
  if Fp.le Fp.one ph then Fp.sub ph Fp.one else ph

/-- The vibrato offset: `dep * lfo`, with `dep = VIB_DEPTH_MAX * KS_VIB` and `lfo = Sin2Pi` of the phase before the
increment (R112, R113). -/
def vibrato (c : Cfg) (ksVib phase : F32) : F32 := Fp.mul (Fp.mul c.vibDepthMax ksVib) (Fp.sin2Pi phase)

/-- The target gain: LEVEL * VCA_SCALE clamped to [0, 1] while the gate is open and the pitch confident, else 0 (R114).
`clamp(v, 0, 1)` is `v > 1 ? 1 : (v < 0 ? 0 : v)`. -/
def vcaTarget (c : Cfg) (d : Detector) (e : Envelope) : F32 :=
  if e.gateOpen && confident c d then Fp.clamp (Fp.mul e.level c.vcaScale) Fp.zero Fp.one else Fp.zero

/-- The slew rate: VCA_ATTACK while the target is above the gain, VCA_RELEASE otherwise (R115). -/
def vcaRate (c : Cfg) (gt gain : F32) : F32 := if Fp.lt gain gt then c.vcaAttack else c.vcaRelease

/-- The gain after one sample: `Snap(VCA_GAIN + rate * (gt - VCA_GAIN))` (R115). -/
def vcaSlew (c : Cfg) (gt gain : F32) : F32 :=
  Fp.snap c.floor (Fp.add gain (Fp.mul (vcaRate c gt gain) (Fp.sub gt gain)))

/-- StageV(confident) (R111 to R115). -/
def stageV (c : Cfg) (v : Derived) (ksVib : F32) (d : Detector) (e : Envelope) (n : Quant) (w : Voice) : Voice :=
  let smooth := glide c v w.smooth n.target
  let pitch := Fp.add smooth (vibrato c ksVib w.lfoPhase)
  let gt := vcaTarget c d e
  { smooth   := smooth
    lfoPhase := lfoAdvance c w.lfoPhase
    pitchOut := pitch
    oscFreq  := Fp.midiToHz pitch
    vcaTgt   := gt
    vcaGain  := vcaSlew c gt w.vcaGain }

/-- The mix law: `X_LAST * (1 - m) + (h * VCA_GAIN) * m`, two rounded products, then a rounded sum (R116). -/
def mixOf (xLast gain m h : F32) : F32 :=
  Fp.add (Fp.mul xLast (Fp.sub Fp.one m)) (Fp.mul (Fp.mul h gain) m)

/-- MIX (R116): the harmony sample scaled by VCA_GAIN and mixed with the dry input of the last SAMPLE. It changes no state but
Y_OUT and STATUS.NANIN, as R116 says, so that a second MIX of the same operand answers the same; R45 counts MIX among the
commands that advance filter state, and no ruling settles the two (DESIGN CHOICE: R116 is followed, log entry 18). -/
def execMix (opnd : Word) (s : State) : Host.Outcome State Fault Refusal :=
  let h := sanitizeH opnd
  let y := mixOf s.xLast s.voice.vcaGain s.ks.mix h.1
  .next (({ s with yOut := y }.raiseIf h.2 .nanIn).answer y)

end Sys2Proof.Machine
end

