-- ==== Sys2Proof/Machine/Sample.lean ====
section
/-!
DEFINITION. The SAMPLE command (spec/42_sample_command.md R81 to R85): sanitise, then stages P, E, Q and V in that order, the
later ones reading the results of the earlier ones of the same sample (R83).
-/

namespace Sys2Proof.Machine

/-- SAMPLE (R81). The only stop is a read of a table entry that does not exist, which needs SCALE_IDX above 5. -/
def execSample (opnd : Word) (s : State) : Host.Outcome State Fault Refusal :=
  let x := sanitizeX opnd
  let det := stageP s.cfg s.det x.1
  let env := stageE s.cfg s.drv s.env x.1
  match stageQ s.cfg s.drv s.table det env s.quant with
  | .error a => .fault (.noTableEntry a)
  | .ok quant =>
    let voice := stageV s.cfg s.drv s.ks.vib det env quant s.voice
    .next (({ s with xLast := x.1, det := det, env := env, quant := quant, voice := voice }.raiseIf x.2 .nanIn).answer
      voice.oscFreq)

end Sys2Proof.Machine
end

