-- ==== Sys2Proof/Machine/Dispatch.lean ====
section
/-!
DEFINITION. The meaning of each command of spec/opcode_table.json, one arm per constructor (spec/30_encoding.md R54).
-/

namespace Sys2Proof.Machine

def exec (i : Instr) (s : State) : Host.Outcome State Fault Refusal :=
  match i with
  | .nop => Sys2Proof.Machine.execNop s
  | .sample x => Sys2Proof.Machine.execSample x s
  | .mix h => Sys2Proof.Machine.execMix h s
  | .block => Sys2Proof.Machine.execBlock s
  | .wrreg idx v => Sys2Proof.Machine.execWrreg idx v s
  | .rdreg idx => Sys2Proof.Machine.execRdreg idx s
  | .wrtab idx n => Sys2Proof.Machine.execWrtab idx n s
  | .rdtab idx => Sys2Proof.Machine.execRdtab idx s
  | .sreset => Sys2Proof.Machine.execSreset s

end Sys2Proof.Machine
end

