-- ==== Sys2Proof/Machine/Fetch.lean ====
section
/-!
DEFINITION. What one step does with the host's next event (spec/30_encoding.md R51; spec/70_reset_and_hazards.md R136, R145).
HCB fetches nothing (spec/20_memory.md R49): the host presents one transaction at a time, and each command is one state
transition (R44, R147).
-/

namespace Sys2Proof.Machine

/-- Running one transaction: its command where it is legal, the illegal command otherwise (R54, R55, R69). -/
def runTransaction (t : Transaction) (s : State) : Host.Outcome State Fault Refusal :=
  match decode t with
  | .ok i => exec i s
  | .error _ => execIllegal s

/-- The state with the oldest host event taken from the port. -/
def State.takeEvent (s : State) (rest : List HostEvent) : State := { s with inbox := rest }

/-- The state in which an accepted transaction runs: the event taken, the position advanced by 1 (R38). -/
def State.accept (s : State) (rest : List HostEvent) : State := { s.takeEvent rest with pos := s.pos + 1 }

/-- One step. Without an event HCB "holds all state unchanged" (R133); hardware reset is R136; a transaction runs. -/
def stepEvent (s : State) : Host.Outcome State Fault Refusal :=
  match s.inbox with
  | [] => .next s
  | .hardReset :: rest => .next (s.takeEvent rest).hardReset
  | .command t :: rest => runTransaction t (s.accept rest)

/-- The transaction an opcode-table word of `nbits` bits stands for, carried as bytes. -/
def tableTransaction (nbits w : Nat) : Transaction :=
  match takeTransaction (tableBytes nbits w) with
  | some (t, _) => t
  | none => ⟨0#32, 0#32⟩

end Sys2Proof.Machine
end

