-- ==== Sys2Proof/Machine/Step.lean ====
section
/-!
DEFINITION. One step of the machine, and placing an instruction where the next step takes it.
-/

namespace Sys2Proof.Machine

/-- One step: one event of the host at HCB's ports (Machine/Fetch.lean). -/
def step (s : State) : Host.Outcome State Fault Refusal := stepEvent s

/-- The state with the transaction of an opcode-table word as the next thing the host presents. HCB loads no program (R49);
this stands for the host presenting that command (DESIGN CHOICE, log entry 1). -/
def State.withFetchWord (s : State) (nbits w : Nat) : State :=
  { s with inbox := .command (tableTransaction nbits w) :: s.inbox.tail }

end Sys2Proof.Machine
end

