-- ==== Sys2Proof/Machine/Assembler.lean ====
section
/-!
DEFINITION. The assembler of spec/30_encoding.md on its syntax as terms: what each line (R60) and each pseudo-instruction
(R61) assembles to, and the host's sequence for one audio block (R62) and for bringing HCB up (spec/70_reset_and_hazards.md
R140). No line stands for a command of its own beyond the nine.
-/

namespace Sys2Proof.Machine

/-- The word of a literal for a value of the type (R60): a decimal is converted to the nearest binary32, ties to even. R60 says no
more of one of magnitude 2^128 - 2^103 or above, which becomes an infinity, nor of the sign of a zero, which is the literal's; and
an integer may stand for an f32 value (DESIGN CHOICE, log entry 16). -/
def literalWord (t : RegType) (l : Literal) : Word :=
  match l, t with
  | .raw w, _ => w
  | .decimal neg num scale, _ => Fp.ofRatio neg num (10 ^ scale)
  | .integer n, .f32 => Fp.ofInt n
  | .integer n, _ => BitVec.ofInt 32 n

/-- The table index of degree `j` of scale `s`: `15*s + j` (R60). -/
def tableIndexOf (s j : Nat) : Byte := BitVec.ofNat 8 (15 * s + j)

/-- `wrknob <k>, <f>`: `wrreg KRAW_<K>, <f>` (R61). -/
def wrknob (k : Knob) (f : Literal) : Transaction := encode (.wrreg (Reg.index (.kraw k)) (literalWord .f32 f))

/-- The transactions an accepted line assembles to (R60, R61). -/
def expand : AsmLine → List Transaction
  | .nop => [encode .nop]
  | .sample f => [encode (.sample (literalWord .f32 f))]
  | .mix f => [encode (.mix (literalWord .f32 f))]
  | .block => [encode .block]
  | .wrreg r v => [encode (.wrreg r.index (literalWord r.type v))]
  | .wrregAt i v => [encode (.wrreg i (literalWord (typeAt i) v))]
  | .rdreg r => [encode (.rdreg r.index)]
  | .rdregAt i => [encode (.rdreg i)]
  | .wrtab s j n => [encode (.wrtab (tableIndexOf s j) (BitVec.ofNat 32 n))]
  | .rdtab s j => [encode (.rdtab (tableIndexOf s j))]
  | .sreset => [encode .sreset]
  | .cmd w o => [⟨w, o⟩]
  | .wrknob k f => [wrknob k f]
  | .rdstatus => [encode (.rdreg (Reg.index .status))]
  | .clrstatus => [encode (.wrreg (Reg.index .status) 0x0000000F#32)]
  | .loadscale s notes =>
    notes.zipIdx.map fun (n, j) => encode (.wrtab (tableIndexOf s j) (BitVec.ofNat 32 n))
  | .knobs g c m t v r s =>
    [wrknob .glide g, wrknob .cutoff c, wrknob .mix m, wrknob .gate t, wrknob .vib v, wrknob .reverb r, wrknob .scale s,
     encode .block]

/-- Assembling a line; none where the assembler refuses it (R60). -/
def assemble (l : AsmLine) : Option (List Transaction) := if l.WellFormed then some (expand l) else none

/-- The host's commands for one audio block (R62): the raw knob writes, `block`, then for each input sample `sample x` and
`mix h`, where `h` is what the external oscillator and filter gave for that sample. -/
def audioBlock (knobs : List (Knob × Word)) (samples : List (Word × Word)) : List Transaction :=
  knobs.map (fun (k, w) => encode (.wrreg (Reg.index (.kraw k)) w)) ++ [encode .block] ++
    samples.flatMap fun (x, h) => [encode (.sample x), encode (.mix h)]

/-- The host's events to bring HCB up (R140, steps 1 to 6): hardware reset, CFG writes, table writes, knob writes, `block`. -/
def bootSequence (cfg : List (CfgReg × Word)) (table : List (Byte × Word)) (knobs : List (Knob × Word)) :
    List HostEvent :=
  .hardReset ::
    (cfg.map (fun (r, w) => encode (.wrreg (CfgReg.index r) w)) ++ table.map (fun (i, n) => encode (.wrtab i n)) ++
      audioBlock knobs []).map .command

end Sys2Proof.Machine
end

