-- ==== Sys2Proof/Safety.lean ====
section
/-!
DEFINITION. The terms in which claims about HCB are made: the legal values of each group of registers, the machine invariant,
finiteness of every f32 register (spec/42_sample_command.md R86), what a run from hardware reset is, the host's duties
(spec/70_reset_and_hazards.md R144), and what "correctly rounded" means (spec/00_scope.md R12, R13, R14).
-/

namespace Sys2Proof.Machine

/-- `v` lies in [lo, hi] in the IEEE order; false where `v` is NaN. -/
def Fp.within (lo hi v : F32) : Bool := Fp.le lo v && Fp.le v hi

/-- A value a configuration register of this range may hold (R22, R23, R24); an f32 register never holds -0.0, which a write
stores as +0.0 (R23). -/
def rangeHolds : CfgRange → Word → Bool
  | .f32 lo hi, w => Fp.within lo hi w && w != 0x80000000#32
  | .u32 lo hi, w => decide (lo ≤ w.toNat ∧ w.toNat ≤ hi)
  | .s32 lo hi, w => decide (lo ≤ w.toInt ∧ w.toInt ≤ hi)

/-- Every configuration register holds a value of its legal range (R22). -/
abbrev Cfg.Legal (c : Cfg) : Prop := ∀ r ∈ CfgReg.all, rangeHolds r.range (c.get r) = true

/-- Every knob slot holds a value in [0, 1] (R26, R27). -/
abbrev Knobs.Unit (n : Knobs) : Prop := ∀ k ∈ Knob.all, Fp.within Fp.zero Fp.one (n.get k) = true

/-- What the derived registers keep at all times (R28): GATE_ON > GATE_OFF >= 0, GLIDE_C in [0, 1], SCALE_IDX in 0..5. -/
abbrev Derived.Ok (v : Derived) : Prop :=
  Fp.lt v.gateOff v.gateOn = true ∧ Fp.le Fp.zero v.gateOff = true ∧ Fp.within Fp.zero Fp.one v.gateOn = true ∧
    Fp.within Fp.zero Fp.one v.glideC = true ∧ v.scaleIdx.toNat ≤ 5

/-- Bounds the detector's registers keep (R86): DC_X1 in [-1, 1], DC_Y1 and LP within 2^15, FREQ in [0, 2^42], CERT in
[0, 1]. -/
abbrev Detector.Ok (d : Detector) : Prop :=
  Fp.within Fp.negOne Fp.one d.dcX1 = true ∧ Fp.within 0xC7000000#32 0x47000000#32 d.dcY1 = true ∧
    Fp.within 0xC7000000#32 0x47000000#32 d.lp = true ∧ Fp.within Fp.zero 0x54800000#32 d.freq = true ∧
    Fp.within Fp.zero Fp.one d.cert = true

/-- Bounds the envelope's registers keep (R86, R99): each in [0, 2]. -/
abbrev Envelope.Ok (e : Envelope) : Prop :=
  Fp.within Fp.zero 0x40000000#32 e.envS1 = true ∧ Fp.within Fp.zero 0x40000000#32 e.envS2 = true ∧
    Fp.within Fp.zero 0x40000000#32 e.level = true

/-- A value TARGET or QLAST may hold (R110): the binary32 form of an integer in [-48, 175]; 0.0 is one of them. -/
abbrev noteValue (q : F32) : Prop := ∃ i < 224, q = Fp.ofInt ((i : Nat) - 48)

/-- What the quantizer's registers keep (R110). -/
abbrev Quant.Ok (n : Quant) : Prop := noteValue n.qlast ∧ noteValue n.target

/-- Bounds the voice's registers keep (R86, R112, R115): SMOOTH within 256, LFO_PHASE in [0, 1), PITCH_OUT within 260, OSC_FREQ
finite and not negative, VCA_GAIN and VCA_TGT in [0, 1]. -/
abbrev Voice.Ok (w : Voice) : Prop :=
  Fp.within 0xC3800000#32 0x43800000#32 w.smooth = true ∧
    (Fp.le Fp.zero w.lfoPhase = true ∧ Fp.lt w.lfoPhase Fp.one = true) ∧
    Fp.within 0xC3820000#32 0x43820000#32 w.pitchOut = true ∧ Fp.within Fp.zero 0x7F7FFFFF#32 w.oscFreq = true ∧
    Fp.within Fp.zero Fp.one w.vcaGain = true ∧ Fp.within Fp.zero Fp.one w.vcaTgt = true

/-- What the scale table keeps (R36): the canonical form, and every listed entry a note number 0..127. -/
abbrev Memory.Ok (m : Memory) : Prop := Memory.wf m ∧ ∀ c ∈ m, c.2.toNat ≤ 127

/-- The invariant of the machine. Every conjunct holds after hardware reset, and every step keeps the whole. -/
structure State.Inv (s : State) : Prop where
  cfg : s.cfg.Legal
  kraw : s.kraw.Unit
  ks : s.ks.Unit
  drv : s.drv.Ok
  det : s.det.Ok
  env : s.env.Ok
  quant : s.quant.Ok
  voice : s.voice.Ok
  xLast : Fp.within Fp.negOne Fp.one s.xLast = true
  yOut : Fp.isFinite s.yOut = true
  status : s.status.toNat < 16
  table : Memory.Ok s.table

/-- "every f32 register of HCB holds a finite value: no NaN and no infinity" (R86). -/
def State.Finite (s : State) : Prop := ∀ r : Reg, r.type = .f32 → Fp.isFinite (s.readReg r) = true

/-- A safe outcome: the machine goes on. -/
def Continues (o : Host.Outcome State Fault Refusal) : Prop := ∃ t, o = .next t

/-- `t` is reached from hardware reset by some sequence of events at the ports and some number of steps. -/
def Reached (t : State) : Prop :=
  ∃ (es : List HostEvent) (k : Nat), core.run k { State.reset with inbox := es } = .next t

/-- The registers of every kind but the response port, the inbox and the position: HCB's own state (R40). -/
structure SameRegisters (s t : State) : Prop where
  cfg : t.cfg = s.cfg
  kraw : t.kraw = s.kraw
  ks : t.ks = s.ks
  drv : t.drv = s.drv
  det : t.det = s.det
  env : t.env = s.env
  quant : t.quant = s.quant
  voice : t.voice = s.voice
  locked : t.locked = s.locked
  xLast : t.xLast = s.xLast
  yOut : t.yOut = s.yOut
  status : t.status = s.status
  table : t.table = s.table

/-- The indices that name a register (R20): 0x00-0x1E, 0x20-0x26, 0x30-0x36, 0x38-0x3B, 0x40-0x56, 0x5F, 0x60 and 0x61. -/
def mappedIndex (n : Nat) : Bool :=
  n ≤ 0x1E || (0x20 ≤ n && n ≤ 0x26) || (0x30 ≤ n && n ≤ 0x36) || (0x38 ≤ n && n ≤ 0x3B) || (0x40 ≤ n && n ≤ 0x56) ||
    n == 0x5F || n == 0x60 || n == 0x61

/-- The indices of access CFG, KNOB and W1C, which WRREG reaches (R22, R26, R34, R56). -/
def writtenIndex (n : Nat) : Bool := n ≤ 0x1E || (0x20 ≤ n && n ≤ 0x26) || n == 0x5F

/-- The frame of a command: every register but those listed and every table entry but those listed reads after it as it did
before, and the host's inbox and the position stay. Flags are read through their registers. -/
structure UnchangedBut (s t : State) (regs : List Reg) (entries : List Nat) : Prop where
  registers : ∀ r : Reg, r ∉ regs → t.readReg r = s.readReg r
  table : ∀ a : Nat, a ∉ entries → Memory.read t.table a = Memory.read s.table a
  inbox : t.inbox = s.inbox
  pos : t.pos = s.pos

/-- The registers at 0x40 to 0x56: detector, envelope, gate, quantizer, voice and latches (R29 to R33, R68). -/
def dynamicRegs : List RoReg :=
  [.dcX1, .dcY1, .lp, .zcState, .zcCount, .periodLast, .freq, .cert, .envS1, .envS2, .level, .gate, .qlast, .target,
   .smooth, .lfoPhase, .pitchOut, .oscFreq, .vcaGain, .locked, .xLast, .yOut, .vcaTgt]

/-- The derived block-rate registers, 0x38 to 0x3B (R28). -/
def derivedRegs : List RoReg := [.gateOn, .gateOff, .glideC, .scaleIdx]

/-- The registers SAMPLE may write beside STATUS: all of 0x40 to 0x56 but LOCKED and Y_OUT (R81). -/
def sampleRegs : List RoReg := dynamicRegs.filter fun r => r != .locked && r != .yOut

/-- What hardware reset leaves, register by register and entry by entry (R136, with the values of R22, R26 to R37). -/
structure AfterHardReset (t : State) : Prop where
  cfg : CfgReg.all.map (fun r => t.readReg (.cfg r)) =
    [0x473B8000#32, 0x3F7EB852#32, 0x3F666666#32, 0x3A83126F#32, 0x0000001E#32, 0x42700000#32, 0x44BB8000#32,
     0x3F333333#32, 0x3E99999A#32, 0x3F7FFCB9#32, 0x3F59999A#32, 0x26901D7D#32, 0x2B8CBCCC#32, 0x3B2A64C3#32,
     0x3727C5AC#32, 0x3F000000#32, 0x40800000#32, 0x40E00000#32, 0x00000004#32, 0xFFFFFFFF#32, 0x00000003#32,
     0x3F000000#32, 0x3951B717#32, 0x3F800000#32, 0x3F000000#32, 0x38DA740E#32, 0x40A00000#32, 0x3C23D70A#32,
     0x3951B717#32, 0x3DCCCCCD#32, 0x40BFAE14#32]
  kraw : ∀ k : Knob, t.readReg (.kraw k) = 0#32
  ks : ∀ k : Knob, t.readReg (.ks k) = 0#32
  derived : derivedRegs.map (fun r => t.readReg (.ro r)) = [0x3727C5AC#32, 0x36A7C5AC#32, 0x3F800000#32, 0#32]
  dynamic : ∀ r ∈ dynamicRegs, t.readReg (.ro r) = 0#32
  status : t.readReg .status = 0#32
  constants : t.readReg .id = 0x48434231#32 ∧ t.readReg .version = 1#32
  table : (List.range 90).map (fun a => (Memory.read t.table a).map BitVec.toNat) =
    ([40, 42, 44, 45, 47, 49, 51, 52, 54, 56, 57, 59, 61, 63, 64] ++
     [40, 42, 43, 45, 47, 48, 50, 52, 54, 55, 57, 59, 60, 62, 64] ++
     [40, 42, 43, 45, 47, 49, 50, 52, 54, 55, 57, 59, 61, 62, 64] ++
     [40, 42, 44, 45, 47, 49, 50, 52, 54, 56, 57, 59, 61, 62, 64] ++
     [40, 43, 45, 47, 50, 52, 55, 57, 59, 62, 64, 67, 69, 71, 74] ++
     [40, 43, 45, 46, 47, 50, 52, 55, 57, 58, 59, 62, 64, 67, 69]).map some
  noResponse : t.response = none

/-- Two states that differ in STATUS and in the response only. -/
structure SameButStatus (s t : State) : Prop where
  registers : ∀ r : Reg, r ≠ .status → t.readReg r = s.readReg r
  table : t.table = s.table
  inbox : t.inbox = s.inbox
  pos : t.pos = s.pos

/-- `c` is candidate (k, j) of the search on row `s`: `TAB[15*s + j] + 12*k` with k in OCT_MIN..OCT_MAX and j in 0..14 (R106). -/
def IsCandidate (c : Cfg) (m : Memory) (s : Nat) (k : Int) (j : Nat) (q : F32) : Prop :=
  c.octMin.toInt ≤ k ∧ k ≤ c.octMax.toInt ∧ j < 15 ∧
    ∃ note, Memory.read m (15 * s + j) = some note ∧ q = Fp.ofInt ((note.toNat : Int) + 12 * k)

/-- `q` is what the search of row `s` finds for `t`: a candidate at the least distance `|t - c|`, and the first such one "by
ascending octave then ascending degree index" (R106, R107). -/
def IsNearest (c : Cfg) (m : Memory) (s : Nat) (t q : F32) : Prop :=
  ∃ k j, IsCandidate c m s k j q ∧
    ∀ k' j' q', IsCandidate c m s k' j' q' →
      Fp.lt (Fp.abs (Fp.sub t q')) (Fp.abs (Fp.sub t q)) = false ∧
        (k' < k ∨ (k' = k ∧ j' < j) → Fp.lt (Fp.abs (Fp.sub t q)) (Fp.abs (Fp.sub t q')) = true)

/-- The octave range covers the interval [lo, hi] of raw targets on scale `s`: some candidate lies at or below `lo`, some at or
above `hi` (R144). -/
def octavesCover (c : Cfg) (m : Memory) (s : Nat) (lo hi : F32) : Bool :=
  match readCandidates m s (searchOrder c) with
  | .error _ => false
  | .ok cs => cs.any (fun x => Fp.le x lo) && cs.any (fun x => Fp.le hi x)

/-- The row of scale `s` ascends (R36, R144): each note is above the one before it. Whether a row with equal neighbours ascends is
not stated; here it does not (DESIGN CHOICE, log entry 14). -/
def rowAscends (m : Memory) (s : Nat) : Bool :=
  (List.range 14).all fun j =>
    match Memory.read m (15 * s + j), Memory.read m (15 * s + j + 1) with
    | some a, some b => decide (a.toNat < b.toNat)
    | _, _ => false

/-- The relations R144 asks the host to keep, each the premise of a property of the source. A host that breaks one gets "the
behaviour its rules give" (R25). "FREQ_KEEP + FREQ_NEW = 1.0 (as nearly as binary32 allows)" is read as: their rounded sum is 1.0.
That also admits a FREQ_NEW one ulp from the value nearest to 1 - FREQ_KEEP. The quotient of HOLDOFF's relation and the two sums
of the octave range are rounded too, and the range covers an interval where candidates lie at or beyond both its ends
(DESIGN CHOICE, log entry 14). -/
structure HostDuties (c : Cfg) (m : Memory) : Prop where
  attackFaster : Fp.lt c.vcaRelease c.vcaAttack = true
  certaintyDecays : Fp.lt c.certDecay Fp.one = true
  band : Fp.lt c.fMin c.fMax = true
  weightsSum : Fp.add c.freqKeep c.freqNew = Fp.one
  octavesInOrder : c.octMin.toInt ≤ c.octMax.toInt
  octavesReach : ∀ s < 6, octavesCover c m s
    (Fp.add (Fp.hzToMidi c.fMin) (intervalOf c ⟨Fp.zero, Fp.zero, Fp.zero, BitVec.ofNat 32 s⟩))
    (Fp.add (Fp.hzToMidi c.fMax) (intervalOf c ⟨Fp.zero, Fp.zero, Fp.zero, BitVec.ofNat 32 s⟩)) = true
  glideInOrder : Fp.le c.glideCMin c.glideCMax = true
  holdoffShort : Fp.le (Fp.ofNat c.holdoff.toNat) (Fp.div c.sampleRate c.fMax) = true
  rowsAscend : ∀ s < 6, rowAscends m s = true

/-- The rational value of a finite pattern. -/
def Fp.value (x : F32) : ℚ := (Fp.toInt x : ℚ) / 2 ^ 149

/-- `r` is the binary32 number nearest to the real `x`, ties to even (R9, R12): finite, and no finite pattern is nearer; one as
near has the same value, or `r` has an even last place. -/
def Fp.RoundsTo (x : ℝ) (r : F32) : Prop :=
  Fp.isFinite r = true ∧
    ∀ w : F32, Fp.isFinite w = true →
      |(Fp.value r : ℝ) - x| < |(Fp.value w : ℝ) - x| ∨
        (|(Fp.value r : ℝ) - x| = |(Fp.value w : ℝ) - x| ∧ (Fp.value w = Fp.value r ∨ r.toNat % 2 = 0))

/-- The enclosure of an elementary function decides its rounding at one of the precisions tried (log entry 3). -/
def Fp.Decided (bounds : Nat → F32 × F32) : Prop :=
  (bounds 96).1 = (bounds 96).2 ∨ (bounds 192).1 = (bounds 192).2 ∨ (bounds 384).1 = (bounds 384).2

end Sys2Proof.Machine
end

