-- ==== Sys2Proof/Certificates/Slice0/Obligations.lean ====
section
/-!
DEFINITION. The statements about the model: what the numbered rules of spec/ say of encoding, reset, the commands, the stages
of SAMPLE, the arithmetic, and the machine as a whole.

Where a statement has the shape `∃ t, exec i s = .next t ∧ …`, it says that the command completes and what the new state
holds. Frames are `UnchangedBut` (Safety.lean): every register and every table entry not named reads as before.
-/

section Statements

open Sys2Proof Sys2Proof.Machine

/-! ### Encoding (spec/30_encoding.md) -/

/-- R42, R51, R52, R54: a command written as bytes, little-endian, the command word first, decodes to itself, whatever follows.
That the command word comes first is the model's reading (DEDUCED, log entry 11). -/
def Obligations.EncodedBytesDecodeToTheCommand : Prop :=
  ∀ (i : Instr) (rest : List Byte), decodeBytes (transactionBytes (encode i) ++ rest) = .ok (i, rest)

/-- R51, R54: a transaction that decodes is the encoding of its command, but for an operand word the command ignores
(log entry 12). -/
def Obligations.DecodedTransactionReencodes : Prop :=
  ∀ (t : Transaction) (i : Instr), decode t = .ok i →
    (encode i).cmd = t.cmd ∧
      ((encode i).opnd = t.opnd ∨ ((encode i).opnd = 0#32 ∧ ∀ o : Word, decode ⟨t.cmd, o⟩ = .ok i))

/-- R59, R54: decoding applies the nine patterns of the opcode map and, failing all of them, answers that the word is illegal;
no word matches two rows. -/
def Obligations.DecodeAppliesTheOpcodeMap : Prop :=
  (∀ w : Word, ∀ r ∈ commandRows, ∀ r' ∈ commandRows, r.covers w = true → r'.covers w = true → r = r') ∧
    ∀ t : Transaction,
      (∀ i, decode t = .ok i → i.row ∈ commandRows ∧ i.row.covers t.cmd = true) ∧
        ((∃ e, decode t = .error e) ↔ ∀ r ∈ commandRows, r.covers t.cmd = false)

/-- R55, R69: which command words are illegal, and that running one changes STATUS.ILL only and answers RSP = 0, RERR = 1. That
the step takes the word from the inbox and advances the position, by an illegal word too, is the model's choice (DESIGN CHOICE,
log entry 1). -/
def Obligations.IllegalWordOnlySetsIll : Prop :=
  ∀ t : Transaction,
    ((∃ e, decode t = .error e) ↔
      (9 ≤ t.cmd.toNat / 2 ^ 24 ∨ t.cmd.toNat / 2 ^ 8 % 2 ^ 16 ≠ 0 ∨
        (t.cmd.toNat % 2 ^ 8 ≠ 0 ∧ t.cmd.toNat / 2 ^ 24 ∈ [0, 1, 2, 3, 8]))) ∧
    ∀ (s : State) (rest : List HostEvent) (e : Reject), s.inbox = .command t :: rest → decode t = .error e →
      step s = .next { s with
        inbox := rest, pos := s.pos + 1, status := s.status ||| 0x00000001#32, response := some ⟨0#32, true⟩ }

/-- R52, R54: command words written out bit by bit, one of each row, and the commands they are. -/
def Obligations.WrittenWordsDecode : Prop :=
  decode ⟨0b00000000000000000000000000000000#32, 0x12345678#32⟩ = .ok .nop ∧
  decode ⟨0b00000001000000000000000000000000#32, 0x3F000000#32⟩ = .ok (.sample 0x3F000000#32) ∧
  decode ⟨0b00000010000000000000000000000000#32, 0x3E800000#32⟩ = .ok (.mix 0x3E800000#32) ∧
  decode ⟨0b00000011000000000000000000000000#32, 0#32⟩ = .ok .block ∧
  decode ⟨0b00000100000000000000000000001010#32, 0x3F666666#32⟩ = .ok (.wrreg 0x0A#8 0x3F666666#32) ∧
  decode ⟨0b00000101000000000000000001100000#32, 0#32⟩ = .ok (.rdreg 0x60#8) ∧
  decode ⟨0b00000110000000000000000000000011#32, 0x2E#32⟩ = .ok (.wrtab 3#8 0x2E#32) ∧
  decode ⟨0b00000111000000000000000001001010#32, 0#32⟩ = .ok (.rdtab 74#8) ∧
  decode ⟨0b00001000000000000000000000000000#32, 0#32⟩ = .ok .sreset ∧
  decode ⟨0b00000001000000000000000000000001#32, 0x3F000000#32⟩ = .error .index

/-- R60: each line of the assembler as the words it assembles to, or none where it is refused, and that every accepted line but a
raw `.cmd` assembles to legal commands. A pseudo-instruction (R61) is refused where a line it stands for is. A raw word stands for
itself; an f32 register takes a decimal literal, an integer register none, and its integer is read as R53 says. The model's own
(DESIGN CHOICE, log entry 16): that a u32 register takes 0 to 2^32 - 1 and an s32 one the range of 32-bit two's complement, that an
integer may stand for an f32 value, and how a value at an unmapped numeric index, or at ID or VERSION, is read. What word a decimal
literal becomes has its own statement. -/
def Obligations.AssembledLinesAreLegal : Prop :=
  (∀ (l : AsmLine) (ts : List Transaction), assemble l = some ts → (∀ w o : Word, l ≠ .cmd w o) →
    ∀ t ∈ ts, ∃ i, decode t = .ok i) ∧
  assemble .nop = some [⟨0x00000000#32, 0#32⟩] ∧ assemble .block = some [⟨0x03000000#32, 0#32⟩] ∧
  assemble .sreset = some [⟨0x08000000#32, 0#32⟩] ∧ (∀ w o : Word, assemble (.cmd w o) = some [⟨w, o⟩]) ∧
  (∀ f : Literal,
    assemble (.sample f) = (if f.Fits .f32 then some [⟨0x01000000#32, literalWord .f32 f⟩] else none) ∧
      assemble (.mix f) = if f.Fits .f32 then some [⟨0x02000000#32, literalWord .f32 f⟩] else none) ∧
  (∀ (r : Reg) (v : Literal),
    assemble (.rdreg r) = some [⟨0x05000000#32 ||| r.index.setWidth 32, 0#32⟩] ∧
      assemble (.wrreg r v) =
        if v.Fits r.type then some [⟨0x04000000#32 ||| r.index.setWidth 32, literalWord r.type v⟩] else none) ∧
  (∀ (idx : Byte) (v : Literal),
    assemble (.rdregAt idx) = some [⟨0x05000000#32 ||| idx.setWidth 32, 0#32⟩] ∧
      assemble (.wrregAt idx v) =
        if v.Fits (typeAt idx) then some [⟨0x04000000#32 ||| idx.setWidth 32, literalWord (typeAt idx) v⟩] else none) ∧
  (∀ s j n : Nat, assemble (.wrtab s j n) =
    if s ≤ 5 ∧ j ≤ 14 ∧ n ≤ 127 then some [⟨0x06000000#32 ||| BitVec.ofNat 32 (15 * s + j), BitVec.ofNat 32 n⟩]
    else none) ∧
  (∀ s j : Nat, assemble (.rdtab s j) =
    if s ≤ 5 ∧ j ≤ 14 then some [⟨0x07000000#32 ||| BitVec.ofNat 32 (15 * s + j), 0#32⟩] else none) ∧
  (∀ (k : Knob) (f : Literal), assemble (.wrknob k f) = assemble (.wrreg (.kraw k) f)) ∧
  (∀ g c m t v r s : Literal, assemble (.knobs g c m t v r s) =
    if ∀ f ∈ [g, c, m, t, v, r, s], f.Fits .f32 = true then some (expand (.knobs g c m t v r s)) else none) ∧
  (∀ (s : Nat) (notes : List Nat), assemble (.loadscale s notes) =
    if s ≤ 5 ∧ notes.length = 15 ∧ ∀ n ∈ notes, n ≤ 127 then some (expand (.loadscale s notes)) else none) ∧
  assemble .rdstatus = assemble (.rdreg .status) ∧ assemble .clrstatus = assemble (.wrreg .status (.raw 0xF#32)) ∧
  (∀ (ty : RegType) (w : Word), (Literal.raw w).Fits ty = true ∧ literalWord ty (.raw w) = w) ∧
  (∀ (ty : RegType) (neg : Bool) (num scale : Nat), (Literal.decimal neg num scale).Fits ty = true ↔ ty = .f32) ∧
  ∀ n : Int,
    ((Literal.integer n).Fits .f32 = true ∧ literalWord .f32 (.integer n) = Fp.ofInt n) ∧
    ((Literal.integer n).Fits .u32 = true ↔ 0 ≤ n ∧ n < 2 ^ 32) ∧
    ((Literal.integer n).Fits .s32 = true ↔ -2 ^ 31 ≤ n ∧ n < 2 ^ 31) ∧
    ((Literal.integer n).Fits .u32 = true → ((literalWord .u32 (.integer n)).toNat : Int) = n) ∧
    ((Literal.integer n).Fits .s32 = true → (literalWord .s32 (.integer n)).toInt = n)

/-- R61: the expansions of the pseudo-instructions. -/
def Obligations.PseudoInstructionsExpand : Prop :=
  (∀ (k : Knob) (f : Literal), expand (.wrknob k f) = expand (.wrreg (.kraw k) f)) ∧
  (Knob.all = [.glide, .cutoff, .mix, .gate, .vib, .reverb, .scale] ∧
    Knob.all.map (fun k => Reg.index (.kraw k)) = [0x20#8, 0x21#8, 0x22#8, 0x23#8, 0x24#8, 0x25#8, 0x26#8]) ∧
  expand .rdstatus = expand (.rdreg .status) ∧
  expand .clrstatus = expand (.wrreg .status (.raw 0xF#32)) ∧
  (∀ (s : Nat) (notes : List Nat), notes.length = 15 →
    expand (.loadscale s notes) = (List.range 15).flatMap fun j => expand (.wrtab s j (notes.getD j 0))) ∧
  ∀ g c m t v r s : Literal,
    expand (.knobs g c m t v r s) =
      expand (.wrknob .glide g) ++ expand (.wrknob .cutoff c) ++ expand (.wrknob .mix m) ++ expand (.wrknob .gate t) ++
        expand (.wrknob .vib v) ++ expand (.wrknob .reverb r) ++ expand (.wrknob .scale s) ++ expand .block

/-! ### The step and reset (spec/70_reset_and_hazards.md) -/

/-- R44, R51, R38: a step takes the transaction the host presents; where it decodes to a command, the step is that command,
run with the position advanced by 1. The inbox is the model's own field (log entry 1). -/
def Obligations.StepRunsTheDecodedCommand : Prop :=
  ∀ (s : State) (t : Transaction) (rest : List HostEvent) (i : Instr),
    s.inbox = .command t :: rest → decode t = .ok i → step s = exec i { s with inbox := rest, pos := s.pos + 1 }

/-- R133: with nothing presented, HCB holds all state. That an idle step exists is the model's choice (log entry 1). -/
def Obligations.IdleStepHoldsAllState : Prop :=
  ∀ s : State, s.inbox = [] → step s = .next s

/-- R136: hardware reset puts every piece of state into its reset state, and so does `State.reset`. What is left of the host's
events and the position stay, by the model's choice (log entry 2). -/
def Obligations.HardResetRestoresEverything : Prop :=
  AfterHardReset State.reset ∧
    ∀ (s : State) (rest : List HostEvent), s.inbox = .hardReset :: rest →
      ∃ t, step s = .next t ∧ AfterHardReset t ∧ t.inbox = rest ∧ t.pos = s.pos

/-- R68, R138: SRESET, register by register: what it clears, what Derive() gives, and that everything else stays. -/
def Obligations.SresetClearsDynamicState : Prop :=
  ∀ s : State, ∃ t, exec .sreset s = .next t ∧
    (∀ k : Knob, t.readReg (.ks k) = 0#32) ∧ (∀ r ∈ dynamicRegs, t.readReg (.ro r) = 0#32) ∧
    t.drv = derive s.cfg Knobs.reset ∧ t.response = some ⟨0#32, false⟩ ∧
    UnchangedBut s t (Knob.all.map .ks ++ (derivedRegs ++ dynamicRegs).map .ro) []

/-- R28, R79: the derived registers after SRESET, under any legal configuration. -/
def Obligations.SresetDerivesFromClearKnobs : Prop :=
  ∀ s : State, s.cfg.Legal → ∃ t, exec .sreset s = .next t ∧
    t.drv.gateOn = s.cfg.gateOnMin ∧ t.drv.gateOff = Fp.mul s.cfg.gateOnMin s.cfg.gateOffRatio ∧
    t.drv.glideC = Fp.add s.cfg.glideCMin (Fp.sub s.cfg.glideCMax s.cfg.glideCMin) ∧ t.drv.scaleIdx = 0#32

/-! ### Register and table commands (spec/40_register_commands.md) -/

/-- R63: NOP answers 0 and does nothing else; a word with opcode 0 and a nonzero index or reserved field is no NOP. -/
def Obligations.NopOnlyAnswers : Prop :=
  (∀ s : State, exec .nop s = .next { s with response := some ⟨0#32, false⟩ }) ∧
    ∀ w o : Word, w.toNat < 2 ^ 24 → w ≠ 0#32 → ∃ e, decode ⟨w, o⟩ = .error e

/-- R65: RDREG answers the 32 bits of any mapped register without a side effect; an unmapped index raises ILL. -/
def Obligations.RdregReadsAnyMappedRegister : Prop :=
  (∀ (r : Reg) (s : State), exec (.rdreg r.index) s = .next { s with response := some ⟨s.readReg r, false⟩ }) ∧
  (∀ idx : Byte, mappedIndex idx.toNat = true → ∃ r : Reg, r.index = idx) ∧
  ∀ (idx : Byte) (s : State), mappedIndex idx.toNat = false →
    exec (.rdreg idx) s = .next { s with status := s.status ||| 0x00000001#32, response := some ⟨0#32, true⟩ }

/-- R22, R26 to R35: which value stands behind each index, 0x00 to 0x61. -/
def Obligations.RegisterAddresses : Prop :=
  ∀ s : State, ∀ p ∈
    [(0x00#8, s.cfg.sampleRate), (0x01#8, s.cfg.dcR), (0x02#8, s.cfg.lpKeep), (0x03#8, s.cfg.zcEps),
     (0x04#8, s.cfg.holdoff), (0x05#8, s.cfg.fMin), (0x06#8, s.cfg.fMax), (0x07#8, s.cfg.freqKeep),
     (0x08#8, s.cfg.freqNew), (0x09#8, s.cfg.certDecay), (0x0A#8, s.cfg.certThresh), (0x0B#8, s.cfg.floor),
     (0x0C#8, s.cfg.envOffset), (0x0D#8, s.cfg.envA), (0x0E#8, s.cfg.gateOnMin), (0x0F#8, s.cfg.gateOffRatio),
     (0x10#8, s.cfg.intervalNarrow), (0x11#8, s.cfg.intervalWide), (0x12#8, s.cfg.sparseMin), (0x13#8, s.cfg.octMin),
     (0x14#8, s.cfg.octMax), (0x15#8, s.cfg.qhyst), (0x16#8, s.cfg.glideCMin), (0x17#8, s.cfg.glideCMax),
     (0x18#8, s.cfg.vibDepthMax), (0x19#8, s.cfg.lfoInc), (0x1A#8, s.cfg.vcaScale), (0x1B#8, s.cfg.vcaAttack),
     (0x1C#8, s.cfg.vcaRelease), (0x1D#8, s.cfg.knobCoef), (0x1E#8, s.cfg.scaleMul),
     (0x20#8, s.kraw.glide), (0x21#8, s.kraw.cutoff), (0x22#8, s.kraw.mix), (0x23#8, s.kraw.gate), (0x24#8, s.kraw.vib),
     (0x25#8, s.kraw.reverb), (0x26#8, s.kraw.scale), (0x30#8, s.ks.glide), (0x31#8, s.ks.cutoff), (0x32#8, s.ks.mix),
     (0x33#8, s.ks.gate), (0x34#8, s.ks.vib), (0x35#8, s.ks.reverb), (0x36#8, s.ks.scale),
     (0x38#8, s.drv.gateOn), (0x39#8, s.drv.gateOff), (0x3A#8, s.drv.glideC), (0x3B#8, s.drv.scaleIdx),
     (0x40#8, s.det.dcX1), (0x41#8, s.det.dcY1), (0x42#8, s.det.lp),
     (0x43#8, BitVec.ofNat 32 (s.det.fall.toNat + 2 * s.det.armed.toNat)), (0x44#8, s.det.zcCount),
     (0x45#8, s.det.periodLast), (0x46#8, s.det.freq), (0x47#8, s.det.cert), (0x48#8, s.env.envS1), (0x49#8, s.env.envS2),
     (0x4A#8, s.env.level), (0x4B#8, BitVec.ofNat 32 s.env.gateOpen.toNat), (0x4C#8, s.quant.qlast),
     (0x4D#8, s.quant.target), (0x4E#8, s.voice.smooth), (0x4F#8, s.voice.lfoPhase), (0x50#8, s.voice.pitchOut),
     (0x51#8, s.voice.oscFreq), (0x52#8, s.voice.vcaGain), (0x53#8, BitVec.ofNat 32 s.locked.toNat), (0x54#8, s.xLast),
     (0x55#8, s.yOut), (0x56#8, s.voice.vcaTgt), (0x5F#8, s.status), (0x60#8, 0x48434231#32), (0x61#8, 0x00000001#32)],
    exec (.rdreg p.1) s = .next { s with response := some ⟨p.2, false⟩ }

/-- R23: a WRREG to an f32 configuration register with legal range [lo, hi], in each of its five cases, with its frame, for the 27
f32 registers at the indices and with the legal ranges of R22, each bound the nearest binary32 value as a bit pattern. -/
def Obligations.WrregClampsFloatConfiguration : Prop :=
  ∀ (v : Word) (s : State), ∀ p ∈
    ([(0x00#8, .sampleRate, 0x45FA0000#32, 0x483B8000#32), (0x01#8, .dcR, 0x00000000#32, 0x3F7FF972#32),
      (0x02#8, .lpKeep, 0x00000000#32, 0x3F800000#32), (0x03#8, .zcEps, 0x00000000#32, 0x3F800000#32),
      (0x05#8, .fMin, 0x3F800000#32, 0x47BB8000#32), (0x06#8, .fMax, 0x3F800000#32, 0x47BB8000#32),
      (0x07#8, .freqKeep, 0x00000000#32, 0x3F800000#32), (0x08#8, .freqNew, 0x00000000#32, 0x3F800000#32),
      (0x09#8, .certDecay, 0x00000000#32, 0x3F800000#32), (0x0A#8, .certThresh, 0x00000000#32, 0x3F800000#32),
      (0x0B#8, .floor, 0x00000000#32, 0x3A83126F#32), (0x0C#8, .envOffset, 0x00000000#32, 0x3A83126F#32),
      (0x0D#8, .envA, 0x00000000#32, 0x3F800000#32), (0x0E#8, .gateOnMin, 0x1E3CE508#32, 0x3F800000#32),
      (0x0F#8, .gateOffRatio, 0x00000000#32, 0x3F7D70A4#32), (0x10#8, .intervalNarrow, 0xC1C00000#32, 0x41C00000#32),
      (0x11#8, .intervalWide, 0xC1C00000#32, 0x41C00000#32), (0x15#8, .qhyst, 0x00000000#32, 0x41400000#32),
      (0x16#8, .glideCMin, 0x00000000#32, 0x3F800000#32), (0x17#8, .glideCMax, 0x00000000#32, 0x3F800000#32),
      (0x18#8, .vibDepthMax, 0x00000000#32, 0x40000000#32), (0x19#8, .lfoInc, 0x00000000#32, 0x3F000000#32),
      (0x1A#8, .vcaScale, 0x00000000#32, 0x447A0000#32), (0x1B#8, .vcaAttack, 0x00000000#32, 0x3F800000#32),
      (0x1C#8, .vcaRelease, 0x00000000#32, 0x3F800000#32), (0x1D#8, .knobCoef, 0x00000000#32, 0x3F800000#32),
      (0x1E#8, .scaleMul, 0x00000000#32, 0x40BFAE14#32)] : List (Byte × CfgReg × F32 × F32)),
    let r := p.2.1
    let lo := p.2.2.1
    let hi := p.2.2.2
    ∃ t, exec (.wrreg p.1 v) s = .next t ∧ t.response = some ⟨0#32, false⟩ ∧ UnchangedBut s t [.cfg r, .status] [] ∧
      (Fp.isNaN v = true → t.readReg (.cfg r) = s.readReg (.cfg r) ∧ t.status = s.status ||| 0x00000002#32) ∧
      (Fp.lt v lo = true → t.readReg (.cfg r) = lo ∧ t.status = s.status ||| 0x00000002#32) ∧
      (Fp.lt hi v = true → t.readReg (.cfg r) = hi ∧ t.status = s.status ||| 0x00000002#32) ∧
      (Fp.le lo v = true → Fp.le v hi = true →
        t.readReg (.cfg r) = (if Fp.eq v Fp.zero then Fp.zero else v) ∧ t.status = s.status)

/-- R24: a WRREG to an integer configuration register: HOLDOFF and SPARSE_MIN read as unsigned, OCT_MIN and OCT_MAX as two's
complement, each clamped to its legal range, with its frame. -/
def Obligations.WrregClampsIntegerConfiguration : Prop :=
  ∀ (v : Word) (s : State), ∀ p ∈
    ([(.holdoff, 0, 65535, (v.toNat : Int)), (.sparseMin, 0, 6, (v.toNat : Int)), (.octMin, -4, 4, v.toInt),
      (.octMax, -4, 4, v.toInt)] : List (CfgReg × Int × Int × Int)),
    ∃ t, exec (.wrreg (Reg.index (.cfg p.1)) v) s = .next t ∧ t.response = some ⟨0#32, false⟩ ∧
      UnchangedBut s t [.cfg p.1, .status] [] ∧
      t.readReg (.cfg p.1) =
        BitVec.ofInt 32 (if p.2.2.2 < p.2.1 then p.2.1 else if p.2.2.1 < p.2.2.2 then p.2.2.1 else p.2.2.2) ∧
      t.status = (if p.2.2.2 < p.2.1 ∨ p.2.2.1 < p.2.2.2 then s.status ||| 0x00000002#32 else s.status)

/-- R26: a WRREG to a knob register stores a value in [0, 1], with its frame; no smoothed knob or derived register moves. -/
def Obligations.WrregClampsKnobs : Prop :=
  ∀ (k : Knob) (v : Word) (s : State),
    ∃ t, exec (.wrreg (Reg.index (.kraw k)) v) s = .next t ∧ t.response = some ⟨0#32, false⟩ ∧
      UnchangedBut s t [.kraw k, .status] [] ∧
      (Fp.isNaN v = true ∨ Fp.lt v Fp.zero = true →
        t.readReg (.kraw k) = Fp.zero ∧ t.status = s.status ||| 0x00000008#32) ∧
      (Fp.lt Fp.one v = true → t.readReg (.kraw k) = Fp.one ∧ t.status = s.status ||| 0x00000008#32) ∧
      (Fp.within Fp.zero Fp.one v = true →
        t.readReg (.kraw k) = (if Fp.eq v Fp.zero then Fp.zero else v) ∧ t.status = s.status)

/-- R21, R34, R64: a WRREG to STATUS clears every bit that is 1 in OPND[3:0] and no other, with its frame. -/
def Obligations.WrregClearsStatusBits : Prop :=
  ∀ (v : Word) (s : State),
    ∃ t, exec (.wrreg 0x5F#8 v) s = .next t ∧ t.response = some ⟨0#32, false⟩ ∧ UnchangedBut s t [.status] [] ∧
      ∀ b < 32, t.status.getLsbD b = (s.status.getLsbD b && !(decide (b < 4) && v.getLsbD b))

/-- R56, R64: a WRREG to an index that is unmapped, read-only or constant raises ILL and has no other effect. -/
def Obligations.WrregRefusesOtherIndices : Prop :=
  ∀ (idx : Byte) (v : Word) (s : State), writtenIndex idx.toNat = false →
    exec (.wrreg idx v) s = .next { s with status := s.status ||| 0x00000001#32, response := some ⟨0#32, true⟩ }

/-- R66: WRTAB writes one entry, at most 127, with its frame; an index above 89 raises ILL. -/
def Obligations.WrtabWritesOneEntry : Prop :=
  (∀ (idx : Byte) (n : Word) (s : State), idx.toNat ≤ 89 →
    ∃ t, exec (.wrtab idx n) s = .next t ∧ t.response = some ⟨0#32, false⟩ ∧
      UnchangedBut s t [.status] [idx.toNat] ∧
      (Memory.read t.table idx.toNat).map BitVec.toNat = some (min n.toNat 127) ∧
      t.status = (if 127 < n.toNat then s.status ||| 0x00000002#32 else s.status)) ∧
  ∀ (idx : Byte) (n : Word) (s : State), 89 < idx.toNat →
    exec (.wrtab idx n) s = .next { s with status := s.status ||| 0x00000001#32, response := some ⟨0#32, true⟩ }

/-- R67: RDTAB answers the entry zero-extended, without a side effect; an index above 89 raises ILL. -/
def Obligations.RdtabReadsOneEntry : Prop :=
  (∀ (idx : Byte) (s : State), idx.toNat ≤ 89 →
    ∃ b, Memory.read s.table idx.toNat = some b ∧
      exec (.rdtab idx) s = .next { s with response := some ⟨b.setWidth 32, false⟩ }) ∧
  ∀ (idx : Byte) (s : State), 89 < idx.toNat →
    exec (.rdtab idx) s = .next { s with status := s.status ||| 0x00000001#32, response := some ⟨0#32, true⟩ }

/-! ### BLOCK (spec/41_block_command.md) -/

/-- R73, R74, R75, R76, R78, R79: BLOCK smooths every knob, derives the thresholds and the glide coefficient from the knobs
just smoothed, and samples the locked indicator, with its frame. SCALE_IDX has its own statement. -/
def Obligations.BlockSmoothsAndDerives : Prop :=
  ∀ s : State, ∃ t, exec .block s = .next t ∧ t.response = some ⟨0#32, false⟩ ∧
    UnchangedBut s t (Knob.all.map .ks ++ derivedRegs.map .ro ++ [.ro .locked]) [] ∧
    (∀ k : Knob,
      let step := Fp.mul s.cfg.knobCoef (Fp.sub (s.readReg (.kraw k)) (s.readReg (.ks k)))
      let v := Fp.add (s.readReg (.ks k)) step
      t.readReg (.ks k) = if Fp.lt (Fp.abs v) s.cfg.floor then Fp.zero else v) ∧
    t.drv.gateOn = (let on := Fp.mul t.ks.gate t.ks.gate; if Fp.lt on s.cfg.gateOnMin then s.cfg.gateOnMin else on) ∧
    t.drv.gateOff = Fp.mul t.drv.gateOn s.cfg.gateOffRatio ∧
    t.drv.glideC =
      (let u := Fp.sub Fp.one t.ks.glide
       Fp.add s.cfg.glideCMin (Fp.mul (Fp.sub s.cfg.glideCMax s.cfg.glideCMin) (Fp.mul u u))) ∧
    t.locked = (s.env.gateOpen && Fp.lt s.cfg.certThresh s.det.cert)

/-- R77: the scale index is the floor of one rounded product, and `min` never changes it. -/
def Obligations.BlockScaleIndexIsTheFloor : Prop :=
  ∀ s : State, s.Inv → ∃ t, exec .block s = .next t ∧
    (t.drv.scaleIdx.toNat : Int) = ⌊Fp.value (Fp.mul t.ks.scale s.cfg.scaleMul)⌋ ∧ t.drv.scaleIdx.toNat ≤ 5

/-! ### SAMPLE (spec/42_sample_command.md to 46_voice_driver.md)

Each statement holds wherever SCALE_IDX is in 0..5, which the invariant says of every reachable state (R28). -/

/-- R81: SAMPLE completes, answers OSC_FREQ, and leaves the configuration, the knobs, the derived registers, LOCKED, Y_OUT and
the table as they are. -/
def Obligations.SampleCompletesWithItsFrame : Prop :=
  ∀ (s : State) (x : Word), s.drv.scaleIdx.toNat ≤ 5 →
    ∃ t, exec (.sample x) s = .next t ∧ t.response = some ⟨t.readReg (.ro .oscFreq), false⟩ ∧
      UnchangedBut s t (.status :: sampleRegs.map .ro) []

/-- R82: the input sample is made finite and kept within full scale; only a NaN or an infinity raises NANIN. -/
def Obligations.SampleSanitizesItsInput : Prop :=
  ∀ (s : State) (x : Word), s.drv.scaleIdx.toNat ≤ 5 →
    ∃ t, exec (.sample x) s = .next t ∧
      (Fp.isNaN x = true → t.xLast = Fp.zero ∧ t.status = s.status ||| 0x00000004#32) ∧
      (x = 0x7F800000#32 → t.xLast = Fp.one ∧ t.status = s.status ||| 0x00000004#32) ∧
      (x = 0xFF800000#32 → t.xLast = Fp.negOne ∧ t.status = s.status ||| 0x00000004#32) ∧
      (Fp.isFinite x = true → t.status = s.status ∧
        t.xLast = if Fp.lt Fp.one x then Fp.one else if Fp.lt x Fp.negOne then Fp.negOne else x)

/-- R87, R88: the DC blocker and the low-pass, in the order of evaluation the rules fix. -/
def Obligations.SampleFiltersItsInput : Prop :=
  ∀ (s : State) (x : Word), s.drv.scaleIdx.toNat ≤ 5 →
    ∃ t, exec (.sample x) s = .next t ∧ t.det.dcX1 = t.xLast ∧
      (let hp := Fp.add (Fp.sub t.xLast s.det.dcX1) (Fp.mul s.cfg.dcR s.det.dcY1)
       t.det.dcY1 = if Fp.lt (Fp.abs hp) s.cfg.floor then Fp.zero else hp) ∧
      (let k := Fp.sub Fp.one s.cfg.lpKeep
       let lp := Fp.add (Fp.mul s.cfg.lpKeep s.det.lp) (Fp.mul k t.det.dcY1)
       t.det.lp = if Fp.lt (Fp.abs lp) s.cfg.floor then Fp.zero else lp)

/-- R89 to R92: the counter, the two edges of the hysteresis band, arming and the hold-off. -/
def Obligations.SampleDetectsEdges : Prop :=
  ∀ (s : State) (x : Word), s.drv.scaleIdx.toNat ≤ 5 →
    ∃ t, exec (.sample x) s = .next t ∧
      (let n := min (s.det.zcCount.toNat + 1) 0xFFFFFFFF
       let rise := !s.det.fall && Fp.lt s.cfg.zcEps t.det.lp
       let measures := rise && s.det.armed && decide (s.cfg.holdoff.toNat ≤ n)
       t.det.fall = (if rise then true
         else if s.det.fall && Fp.lt t.det.lp (Fp.neg s.cfg.zcEps) then false else s.det.fall) ∧
       t.det.armed = (s.det.armed || rise) ∧
       t.det.zcCount.toNat = (if measures || (rise && !s.det.armed) then 0 else n) ∧
       t.det.periodLast.toNat = (if measures then n else s.det.periodLast.toNat))

/-- R93, R94, R95: the candidate of a measured period, the band check, the seed or the blend, and the certainty. -/
def Obligations.SampleEstimatesFrequency : Prop :=
  ∀ (s : State) (x : Word), s.drv.scaleIdx.toNat ≤ 5 →
    ∃ t, exec (.sample x) s = .next t ∧
      (let n := min (s.det.zcCount.toNat + 1) 0xFFFFFFFF
       let measures :=
         !s.det.fall && Fp.lt s.cfg.zcEps t.det.lp && s.det.armed && decide (s.cfg.holdoff.toNat ≤ n)
       let cand := Fp.div s.cfg.sampleRate (Fp.ofNat n)
       let accepted := measures && Fp.le s.cfg.fMin cand && Fp.lt cand s.cfg.fMax
       let blend := Fp.add (Fp.mul s.cfg.freqKeep s.det.freq) (Fp.mul s.cfg.freqNew cand)
       let decayed := Fp.mul s.det.cert s.cfg.certDecay
       t.det.freq = (if accepted then
           (if Fp.eq s.det.freq Fp.zero then cand
            else if Fp.lt (Fp.abs blend) s.cfg.floor then Fp.zero else blend)
         else s.det.freq) ∧
       t.det.cert = (if accepted then Fp.one
         else if Fp.lt (Fp.abs decayed) s.cfg.floor then Fp.zero else decayed))

/-- R96: where the SAMPLE does not accept a candidate, a certainty of at least 2^-125 strictly decays under a CERT_DECAY below
1.0. -/
def Obligations.CertaintyStrictlyDecays : Prop :=
  ∀ (s : State) (x : Word), s.Inv → Fp.lt s.cfg.certDecay Fp.one = true → Fp.le 0x01000000#32 s.det.cert = true →
    ∃ t, exec (.sample x) s = .next t ∧ (t.det.cert = Fp.one ∨ Fp.lt t.det.cert s.det.cert = true) ∧
      (pitchAccepted s.cfg s.det t.xLast = false → Fp.lt t.det.cert s.det.cert = true)

/-- R97, R98, R99: the energy, the two low-pass sections and the RMS level. -/
def Obligations.SampleFollowsTheEnvelope : Prop :=
  ∀ (s : State) (x : Word), s.drv.scaleIdx.toNat ≤ 5 →
    ∃ t, exec (.sample x) s = .next t ∧
      (let e := Fp.add (Fp.mul t.xLast t.xLast) s.cfg.envOffset
       let s1 := Fp.add s.env.envS1 (Fp.mul s.cfg.envA (Fp.sub e s.env.envS1))
       let s2 := Fp.add s.env.envS2 (Fp.mul s.cfg.envA (Fp.sub t.env.envS1 s.env.envS2))
       t.env.envS1 = (if Fp.lt (Fp.abs s1) s.cfg.floor then Fp.zero else s1) ∧
       t.env.envS2 = (if Fp.lt (Fp.abs s2) s.cfg.floor then Fp.zero else s2) ∧
       t.env.level = Fp.sqrt (if Fp.lt Fp.zero t.env.envS2 then t.env.envS2 else Fp.zero))

/-- R100: the gate opens only above GATE_ON while closed, closes only below GATE_OFF while open, and keeps its state
otherwise. -/
def Obligations.GateSwitchesWithHysteresis : Prop :=
  ∀ (s : State) (x : Word), s.drv.scaleIdx.toNat ≤ 5 →
    ∃ t, exec (.sample x) s = .next t ∧
      (s.env.gateOpen = false → Fp.lt s.drv.gateOn t.env.level = true → t.env.gateOpen = true) ∧
      (s.env.gateOpen = true → Fp.lt t.env.level s.drv.gateOff = true → t.env.gateOpen = false) ∧
      (¬ (s.env.gateOpen = false ∧ Fp.lt s.drv.gateOn t.env.level = true) →
        ¬ (s.env.gateOpen = true ∧ Fp.lt t.env.level s.drv.gateOff = true) → t.env.gateOpen = s.env.gateOpen)

/-- R103: stage Q runs only where the gate is open, the pitch confident and FREQ positive, all read after stages P and E of the
same SAMPLE; otherwise QLAST and TARGET keep their values. So they do where the octave range is empty (R106). -/
def Obligations.QuantizerKeepsWhereNotEnabled : Prop :=
  ∀ (s : State) (x : Word), s.drv.scaleIdx.toNat ≤ 5 →
    ∃ t, exec (.sample x) s = .next t ∧
      (¬ (t.env.gateOpen = true ∧ Fp.lt s.cfg.certThresh t.det.cert = true ∧ Fp.lt Fp.zero t.det.freq = true) ∨
          s.cfg.octMax.toInt < s.cfg.octMin.toInt →
        t.quant.qlast = s.quant.qlast ∧ t.quant.target = s.quant.target)

/-- R103 to R108: where stage Q is enabled, QLAST takes the first nearest candidate to HzToMidi(FREQ) plus the interval, and
TARGET takes it where it differs by more than QHYST. -/
def Obligations.QuantizerFindsTheNearestNote : Prop :=
  ∀ (s : State) (x : Word), s.Inv → s.cfg.octMin.toInt ≤ s.cfg.octMax.toInt →
    ∃ t, exec (.sample x) s = .next t ∧
      (t.env.gateOpen = true → Fp.lt s.cfg.certThresh t.det.cert = true → Fp.lt Fp.zero t.det.freq = true →
        (let iv := if s.cfg.sparseMin.toNat ≤ s.drv.scaleIdx.toNat then s.cfg.intervalWide else s.cfg.intervalNarrow
         let raw := Fp.add (Fp.hzToMidi t.det.freq) iv
         IsNearest s.cfg s.table s.drv.scaleIdx.toNat raw t.quant.qlast ∧
         t.quant.target =
           (if Fp.lt s.cfg.qhyst (Fp.abs (Fp.sub t.quant.qlast s.quant.target)) then t.quant.qlast
            else s.quant.target)))

/-- R109: quantizing an already-quantized value on the same row returns that value, for any table contents. -/
def Obligations.NearestIsIdempotent : Prop :=
  ∀ (c : Cfg) (m : Memory) (t q : F32) (s : Nat), nearest c m t s = .ok (some q) → nearest c m q s = .ok (some q)

/-- R108: QLAST is diagnostic: "No other rule reads it." Its value before a command decides nothing of the state after it but
QLAST itself, where the command keeps it, and the answer to a read of it. -/
def Obligations.QlastIsReadByNoRule : Prop :=
  ∀ (i : Instr) (s t : State) (q : Word), exec i s = .next t →
    ∃ t', exec i { s with quant := { s.quant with qlast := q } } = .next t' ∧
      { t' with quant := t.quant, response := t.response } = t ∧ t'.quant.target = t.quant.target ∧
      (t'.quant.qlast = t.quant.qlast ∨ (t'.quant.qlast = q ∧ t.quant.qlast = s.quant.qlast)) ∧
      (i ≠ .rdreg 0x4C#8 → t'.response = t.response)

/-- R111, R112, R113: portamento, the vibrato phase and offset, the pitch output and the oscillator frequency. -/
def Obligations.SampleDrivesTheOscillator : Prop :=
  ∀ (s : State) (x : Word), s.drv.scaleIdx.toNat ≤ 5 →
    ∃ t, exec (.sample x) s = .next t ∧
      (let g := Fp.add s.voice.smooth (Fp.mul s.drv.glideC (Fp.sub t.quant.target s.voice.smooth))
       let ph := Fp.add s.voice.lfoPhase s.cfg.lfoInc
       let dep := Fp.mul s.cfg.vibDepthMax s.ks.vib
       t.voice.smooth = (if Fp.lt (Fp.abs g) s.cfg.floor then Fp.zero else g) ∧
       t.voice.lfoPhase = (if Fp.le Fp.one ph then Fp.sub ph Fp.one else ph) ∧
       t.voice.pitchOut = Fp.add t.voice.smooth (Fp.mul dep (Fp.sin2Pi s.voice.lfoPhase)) ∧
       t.voice.oscFreq = Fp.midiToHz t.voice.pitchOut)

/-- R114, R115: the target gain and the slew with its two rates. -/
def Obligations.SampleSlewsTheGain : Prop :=
  ∀ (s : State) (x : Word), s.drv.scaleIdx.toNat ≤ 5 →
    ∃ t, exec (.sample x) s = .next t ∧
      (let p := Fp.mul t.env.level s.cfg.vcaScale
       t.voice.vcaTgt =
         if t.env.gateOpen && Fp.lt s.cfg.certThresh t.det.cert then
           (if Fp.lt p Fp.zero then Fp.zero else if Fp.lt Fp.one p then Fp.one else p)
         else Fp.zero) ∧
      (let rate := if Fp.lt s.voice.vcaGain t.voice.vcaTgt then s.cfg.vcaAttack else s.cfg.vcaRelease
       let g := Fp.add s.voice.vcaGain (Fp.mul rate (Fp.sub t.voice.vcaTgt s.voice.vcaGain))
       t.voice.vcaGain = if Fp.lt (Fp.abs g) s.cfg.floor then Fp.zero else g)

/-- R86: under all-zero input every detector register but ZC_COUNT stays zero, the envelope stays below 2^-39, and the gate
stays closed, for every configuration with ENV_OFFSET at most 2^-39 and GATE_ON at least 2^-19, the default one among them. The
two powers of two are this statement's own round numbers. -/
def Obligations.SilenceStaysSilent : Prop :=
  ∀ s : State, s.Inv →
    s.det = { Detector.reset with zcCount := s.det.zcCount } → s.env.gateOpen = false →
    Fp.le s.cfg.envOffset 0x2C000000#32 = true → Fp.le s.env.envS1 0x2C000000#32 = true →
    Fp.le s.env.envS2 0x2C000000#32 = true → Fp.le 0x36000000#32 s.drv.gateOn = true →
    ∃ t, exec (.sample 0#32) s = .next t ∧
      t.det = { Detector.reset with zcCount := t.det.zcCount } ∧ t.env.gateOpen = false ∧
      Fp.le t.env.envS1 0x2C000000#32 = true ∧ Fp.le t.env.envS2 0x2C000000#32 = true ∧ t.voice.vcaTgt = Fp.zero

/-! ### MIX (spec/46_voice_driver.md) -/

/-- R116, R117: MIX replaces a NaN or infinite operand, and mixes: two rounded products, then a rounded sum; with its frame, for
which R116 is followed and not R45's remark that MIX advances filter state (DESIGN CHOICE, log entry 18). -/
def Obligations.MixMixesDryAndHarmony : Prop :=
  ∀ (s : State) (h : Word),
    ∃ t, exec (.mix h) s = .next t ∧ UnchangedBut s t [.ro .yOut, .status] [] ∧
      t.response = some ⟨t.readReg (.ro .yOut), false⟩ ∧
      t.status = (if Fp.isFinite h then s.status else s.status ||| 0x00000004#32) ∧
      (let harmony := Fp.mul (if Fp.isFinite h then h else Fp.zero) s.voice.vcaGain
       let m := s.ks.mix
       t.yOut = Fp.add (Fp.mul s.xLast (Fp.sub Fp.one m)) (Fp.mul harmony m))

/-- R116: with KS_MIX = 0.0 the output is the dry input exactly; with KS_MIX = 1.0 it is the harmony sample. -/
def Obligations.MixEndsOfTheKnob : Prop :=
  ∀ (s : State) (h : Word), s.Inv → Fp.isFinite h = true →
    ∃ t, exec (.mix h) s = .next t ∧
      (s.ks.mix = Fp.zero → Fp.isFinite t.yOut = true ∧ Fp.value t.yOut = Fp.value s.xLast) ∧
      (s.ks.mix = Fp.one → Fp.isFinite t.yOut = true ∧ Fp.value t.yOut = Fp.value (Fp.mul h s.voice.vcaGain))

/-! ### Arithmetic (spec/00_scope.md) -/

/-- R9: a sum or difference of finite numbers whose exact value rounds to no infinity (its magnitude is below 2^128 - 2^103, half
a last place above the greatest finite number) is finite, and the exact value rounded once, ties to even. -/
def Obligations.SumsRoundOnce : Prop :=
  ∀ x y : F32, Fp.isFinite x = true → Fp.isFinite y = true →
    (|Fp.value x + Fp.value y| < 2 ^ 128 - 2 ^ 103 → Fp.RoundsTo ((Fp.value x : ℝ) + Fp.value y) (Fp.add x y)) ∧
      (|Fp.value x - Fp.value y| < 2 ^ 128 - 2 ^ 103 → Fp.RoundsTo ((Fp.value x : ℝ) - Fp.value y) (Fp.sub x y))

/-- R9: a product of finite numbers whose exact value is of magnitude below 2^128 - 2^103 is finite, and the exact value rounded
once, ties to even, gradual underflow included. -/
def Obligations.ProductsRoundOnce : Prop :=
  ∀ x y : F32, Fp.isFinite x = true → Fp.isFinite y = true → |Fp.value x * Fp.value y| < 2 ^ 128 - 2 ^ 103 →
    Fp.RoundsTo ((Fp.value x : ℝ) * Fp.value y) (Fp.mul x y)

/-- R9: a quotient of finite numbers by a nonzero one, whose exact value is of magnitude below 2^128 - 2^103, is finite, and the
exact value rounded once, ties to even. -/
def Obligations.QuotientsRoundOnce : Prop :=
  ∀ x y : F32, Fp.isFinite x = true → Fp.isFinite y = true → Fp.value y ≠ 0 →
    |Fp.value x / Fp.value y| < 2 ^ 128 - 2 ^ 103 → Fp.RoundsTo ((Fp.value x : ℝ) / Fp.value y) (Fp.div x y)

/-- R9: the square root of a finite non-negative number is the exact root rounded once. -/
def Obligations.RootsRoundOnce : Prop :=
  ∀ x : F32, Fp.isFinite x = true → 0 ≤ Fp.value x → Fp.RoundsTo (Real.sqrt (Fp.value x : ℝ)) (Fp.sqrt x)

/-- R9: the comparisons of finite numbers are the comparisons of their values, `+0 == -0` among them; `floor_int` is the
greatest integer not above; `f32(n)`, for a natural number (R93) and for an integer (R106), is the binary32 number nearest to
`n`, ties to even, and finite below 2^128 - 2^103. -/
def Obligations.ComparisonsFollowTheValues : Prop :=
  (∀ x y : F32, Fp.isFinite x = true → Fp.isFinite y = true →
    (Fp.lt x y = true ↔ Fp.value x < Fp.value y) ∧ (Fp.le x y = true ↔ Fp.value x ≤ Fp.value y) ∧
      (Fp.eq x y = true ↔ Fp.value x = Fp.value y) ∧ Fp.floorInt x = ⌊Fp.value x⌋ ∧
      Fp.value (Fp.abs x) = |Fp.value x|) ∧
  (∀ n : Nat, n < 2 ^ 128 - 2 ^ 103 → Fp.RoundsTo n (Fp.ofNat n)) ∧
  ∀ n : Int, |n| < 2 ^ 128 - 2 ^ 103 → Fp.RoundsTo n (Fp.ofInt n)

/-- R60, R16: a decimal literal of the assembler of magnitude below 2^128 - 2^103 is converted to the nearest binary32, a finite
one, ties to even. -/
def Obligations.DecimalLiteralsRoundOnce : Prop :=
  ∀ (neg : Bool) (num scale : Nat), (num : ℚ) / 10 ^ scale < 2 ^ 128 - 2 ^ 103 →
    Fp.RoundsTo ((if neg then -1 else 1) * ((num : ℝ) / 10 ^ scale)) (literalWord .f32 (.decimal neg num scale))

/-- R11: Snap as the rule writes it, and its two consequences: with FLOOR > 0, `Snap(-0.0)` is `+0.0`; with FLOOR = 0, Snap is
the identity. -/
def Obligations.SnapForcesSmallValuesToZero : Prop :=
  (∀ fl v : F32, (Fp.lt (Fp.abs v) fl = true → Fp.snap fl v = 0x00000000#32) ∧
    (Fp.lt (Fp.abs v) fl = false → Fp.snap fl v = v)) ∧
  (∀ fl : F32, Fp.lt Fp.zero fl = true → Fp.snap fl 0x80000000#32 = 0x00000000#32) ∧
  ∀ v : F32, Fp.snap Fp.zero v = v

/-- R12: HzToMidi is correctly rounded, wherever the model's enclosure decides the rounding (log entry 3). -/
def Obligations.HzToMidiIsCorrectlyRounded : Prop :=
  ∀ f : F32, Fp.isFinite f = true → 0 < Fp.value f → Fp.Decided (Fp.hzToMidiBounds (Fp.units (Fp.mag f))) →
    Fp.RoundsTo (69 + 12 * Real.logb 2 ((Fp.value f : ℝ) / 440)) (Fp.hzToMidi f)

/-- R13: MidiToHz is correctly rounded for the arguments HCB can produce, and beyond them to 1400, wherever the model's enclosure
decides the rounding (log entry 3); `k` and `b` are the octave and the fraction of an octave above 440 Hz, and a whole number of
octaves needs no enclosure. -/
def Obligations.MidiToHzIsCorrectlyRounded : Prop :=
  ∀ m : F32, Fp.isFinite m = true → |Fp.value m| ≤ 1400 →
    (let t : Int := Fp.toInt m - 69 * 2 ^ 149
     let k : Int := t / (12 * 2 ^ 149)
     let b : Nat := (t % (12 * 2 ^ 149)).toNat
     (b = 0 ∨ Fp.Decided (Fp.midiToHzBounds k b)) →
      Fp.RoundsTo (440 * (2 : ℝ) ^ (((Fp.value m : ℝ) - 69) / 12)) (Fp.midiToHz m))

/-- R14: Sin2Pi is correctly rounded, wherever the model's enclosure decides the rounding (log entry 3); a multiple of a half turn
gives +0.0. -/
def Obligations.Sin2PiIsCorrectlyRounded : Prop :=
  ∀ p : F32, Fp.isFinite p = true →
    (let w := Fp.units (Fp.mag p) % 2 ^ 149
     let h := w % 2 ^ 148
     (h = 0 → Fp.sin2Pi p = 0x00000000#32 ∧ Real.sin (2 * Real.pi * (Fp.value p : ℝ)) = 0) ∧
      (h ≠ 0 →
        Fp.Decided (Fp.sin2PiBounds (Fp.sign p != decide (2 ^ 148 < w)) (if h ≤ 2 ^ 147 then h else 2 ^ 148 - h)) →
        Fp.RoundsTo (Real.sin (2 * Real.pi * (Fp.value p : ℝ))) (Fp.sin2Pi p)))

/-! ### The machine as a whole -/

/-- R57: RERR is 1 exactly where the command raised ILL: an illegal word, or an index the command may not reach. Where RERR is 0,
ILL is not raised: it is 0 after the command unless it was 1 before. -/
def Obligations.RerrExactlyAtIll : Prop :=
  ∀ (t : Transaction) (s s' : State), runTransaction t s = .next s' →
    ∃ rsp rerr, s'.response = some ⟨rsp, rerr⟩ ∧
      (rerr = true ↔ (∃ e, decode t = .error e) ∨ (∃ i, decode t = .ok i ∧ i.WellFormed = false)) ∧
      (rerr = true → rsp = 0#32 ∧ s'.status = s.status ||| 0x00000001#32) ∧
      (rerr = false → s'.status.getLsbD 0 = true → s.status.getLsbD 0 = true)

/-- R124, R126, R34: each command sets at most one bit of STATUS, the one its kind may raise, by an OR; only a WRREG to STATUS
clears a bit, and bits 31:4 are never set. -/
def Obligations.StatusChangesByOneRule : Prop :=
  ∀ (i : Instr) (s t : State), exec i s = .next t →
    match i with
    | .nop | .block | .sreset => t.status = s.status
    | .sample _ | .mix _ => t.status = s.status ∨ t.status = s.status ||| 0x00000004#32
    | .rdreg _ | .rdtab _ => t.status = s.status ∨ t.status = s.status ||| 0x00000001#32
    | .wrtab _ _ =>
      t.status = s.status ∨ t.status = s.status ||| 0x00000001#32 ∨ t.status = s.status ||| 0x00000002#32
    | .wrreg idx v =>
      if idx = 0x5F#8 then t.status = s.status &&& ~~~(v &&& 0x0000000F#32)
      else t.status = s.status ∨ t.status = s.status ||| 0x00000001#32 ∨
        (idx.toNat ≤ 0x1E ∧ t.status = s.status ||| 0x00000002#32) ∨
        (0x20 ≤ idx.toNat ∧ idx.toNat ≤ 0x26 ∧ t.status = s.status ||| 0x00000008#32)

/-- R22, R27, R28, R34, R36, R50, R78, R81, R116, R146: which commands may change each part of the state. That MIX changes none of
the filters' registers is R116's, followed against R45 (DESIGN CHOICE, log entry 18). -/
def Obligations.EachPartHasItsWriters : Prop :=
  ∀ (i : Instr) (s t : State), exec i s = .next t →
    (t.cfg ≠ s.cfg ∨ t.kraw ≠ s.kraw → ∃ idx v, i = .wrreg idx v) ∧
    (t.ks ≠ s.ks ∨ t.drv ≠ s.drv ∨ t.locked ≠ s.locked → i = .block ∨ i = .sreset) ∧
    (t.det ≠ s.det ∨ t.env ≠ s.env ∨ t.quant ≠ s.quant ∨ t.voice ≠ s.voice ∨ t.xLast ≠ s.xLast →
      i = .sreset ∨ ∃ x, i = .sample x) ∧
    (t.yOut ≠ s.yOut → i = .sreset ∨ ∃ h, i = .mix h) ∧
    (t.table ≠ s.table → ∃ idx n, i = .wrtab idx n) ∧
    t.inbox = s.inbox ∧ t.pos = s.pos

/-- R34, R135: STATUS only records. Its value decides nothing of the state after a command but STATUS itself and the answer to a
read of it. -/
def Obligations.StatusDecidesNoResult : Prop :=
  ∀ (i : Instr) (s t : State) (w : Word), exec i s = .next t →
    ∃ t', exec i { s with status := w } = .next t' ∧ SameButStatus t t' ∧
      (i ≠ .rdreg 0x5F#8 → t'.response = t.response)

/-- R144: the default configuration and the default table meet every relation the host must keep, as `HostDuties` reads them
(DESIGN CHOICE, log entry 14): FREQ_KEEP + FREQ_NEW is 1.0 after one rounding, the other sums and the quotient are rounded, and a
row ascends where each note is above the one before it. -/
def Obligations.DefaultsMeetTheHostDuties : Prop := HostDuties Cfg.reset []

/-- R22, R26, R27, R28, R110, R112, R115, R36: the invariant holds after hardware reset. Bounds on the filters' registers are the
model's own (Safety.lean): the spec gives no numbers for them. -/
def Obligations.InvariantHoldsAtReset : Prop := State.reset.Inv

/-- The invariant is kept by every step, from every state that has it, whatever the host presents. It contains what the rules say
"at all times": legal configuration values (R22), knobs in [0, 1] (R26, R27), GATE_ON > GATE_OFF >= 0 and SCALE_IDX in 0..5
(R28), TARGET and QLAST integers in [-48, 175] (R110), LFO_PHASE in [0, 1) (R112), VCA_GAIN in [0, 1] (R115), STATUS bits 31:4
zero (R34), table entries in 0..127 (R36) in canonical form. -/
def Obligations.EveryStepKeepsTheInvariant : Prop :=
  ∀ s t : State, s.Inv → step s = .next t → t.Inv

/-- R86, R120: under the invariant every f32 register holds a finite value, and no command stops the machine: every step
continues. -/
def Obligations.InvariantIsSafe : Prop :=
  ∀ s : State, s.Inv → s.Finite ∧ Continues (step s)

/-- R86: after any sequence of commands from hardware reset, every f32 register holds a finite value, and no sequence stops the
machine (R120). A run is one from the host's events, a list fixed before it: the inbox is the model's own field (DESIGN CHOICE,
log entry 1), and the statement holds for every list. -/
def Obligations.EveryRunStaysFinite : Prop :=
  ∀ (es : List HostEvent) (k : Nat), ∃ t, core.run k { State.reset with inbox := es } = .next t ∧ t.Finite

end Statements
end

