-- ==== Sys2Proof/Laws/Float.lean ====
section
/-!
SUPPORT. Binary32 arithmetic (spec/00_scope.md R9) brought down to integers: a finite pattern `x` is the integer `toInt x` of
units of 2^-149, rounding is monotone and keeps every binary32 number, and each operation rounds its exact result once. A
bound on an exact result that is itself a binary32 number is therefore a bound on the rounded result; that is how the range
claims of the spec are proved.
-/

namespace Sys2Proof.Machine.Fp

-- One theorem at a time: many at once ask for more threads than the memory limit of a check allows.
set_option Elab.async false

/-! ### Magnitudes as units -/

theorem units_of_lt {m : Nat} (h : m < 2 ^ 23) : units m = m := if_pos h

theorem units_of_ge {m : Nat} (h : 2 ^ 23 ≤ m) :
    units m = (2 ^ 23 + m % 2 ^ 23) * 2 ^ (m / 2 ^ 23 - 1) := if_neg (Nat.not_lt.mpr h)

@[simp] theorem units_zero : units 0 = 0 := rfl

/-- The units of a significand `k` in [2^23, 2^24] at exponent `e`, packed as `e * 2^23 + k`. -/
theorem units_pack {e k : Nat} (h1 : 2 ^ 23 ≤ k) (h2 : k ≤ 2 ^ 24) : units (e * 2 ^ 23 + k) = k * 2 ^ e := by
  rw [units_of_ge (by omega)]
  rcases Nat.lt_or_ge k (2 ^ 24) with h | h
  · have hm : (e * 2 ^ 23 + k) % 2 ^ 23 = k - 2 ^ 23 := by omega
    have hq : (e * 2 ^ 23 + k) / 2 ^ 23 = e + 1 := by omega
    rw [hm, hq, Nat.add_sub_cancel, show 2 ^ 23 + (k - 2 ^ 23) = k by omega]
  · have hk : k = 2 ^ 24 := by omega
    subst hk
    have hm : (e * 2 ^ 23 + 2 ^ 24) % 2 ^ 23 = 0 := by omega
    have hq : (e * 2 ^ 23 + 2 ^ 24) / 2 ^ 23 = e + 2 := by omega
    rw [hm, hq]
    rw [Nat.add_zero, show e + 2 - 1 = e + 1 from rfl, Nat.pow_succ]
    omega

/-- One unit in the last place above a packed significand is at least `2^e` units. -/
theorem units_succ_ge (m : Nat) : units m + 2 ^ (m / 2 ^ 23 - 1) ≤ units (m + 1) := by
  rcases Nat.lt_or_ge m (2 ^ 23) with h | h
  · rw [units_of_lt h]
    have he : m / 2 ^ 23 - 1 = 0 := by omega
    rw [he]
    rcases Nat.lt_or_ge (m + 1) (2 ^ 23) with h' | h'
    · rw [units_of_lt h']; omega
    · have : m + 1 = 0 * 2 ^ 23 + 2 ^ 23 := by omega
      rw [this, units_pack le_rfl (by norm_num)]
      omega
  · obtain ⟨e, k, hm, h1, h2⟩ : ∃ e k, m = e * 2 ^ 23 + k ∧ 2 ^ 23 ≤ k ∧ k < 2 ^ 24 :=
      ⟨m / 2 ^ 23 - 1, m % 2 ^ 23 + 2 ^ 23, by omega, by omega, by omega⟩
    have he : m / 2 ^ 23 - 1 = e := by omega
    rw [he, hm, Nat.add_assoc, units_pack h1 (by omega), units_pack (by omega) (by omega)]
    ring_nf
    exact le_rfl

/-- More magnitude bits, more units. -/
theorem units_strictMono : StrictMono units :=
  strictMono_nat_of_lt_succ fun m => by
    have := units_succ_ge m
    have := Nat.two_pow_pos (m / 2 ^ 23 - 1)
    omega

theorem units_le_iff {m m' : Nat} : units m ≤ units m' ↔ m ≤ m' := units_strictMono.le_iff_le

theorem units_lt_iff {m m' : Nat} : units m < units m' ↔ m < m' := units_strictMono.lt_iff_lt

theorem units_eq_zero {m : Nat} : units m = 0 ↔ m = 0 := by
  rw [← units_zero]
  exact units_strictMono.injective.eq_iff

/-! ### Rounding a magnitude -/

/-- `rne n d` is within half of `n / d`, and even where it is exactly half away. -/
theorem rne_spec (n : Nat) {d : Nat} (hd : 0 < d) :
    2 * (rne n d * d) ≤ 2 * n + d ∧ 2 * n ≤ 2 * (rne n d * d) + d ∧
      (2 * (rne n d * d) = 2 * n + d ∨ 2 * n = 2 * (rne n d * d) + d → rne n d % 2 = 0) := by
  have hn := Nat.div_add_mod n d
  have hm := Nat.mod_lt n hd
  generalize n / d = q at *
  generalize n % d = r at *
  subst hn
  have e1 : (d * q + r) / d = q := by
    rw [Nat.add_comm, Nat.add_mul_div_left _ _ hd, Nat.div_eq_of_lt hm, Nat.zero_add]
  have e2 : (d * q + r) % d = r := by
    rw [Nat.add_comm, Nat.add_mul_mod_self_left, Nat.mod_eq_of_lt hm]
  have hc : q * d = d * q := Nat.mul_comm _ _
  unfold rne
  rw [e1, e2]
  split
  · exact ⟨by omega, by omega, by omega⟩
  · split
    · have : (q + 1) * d = d * q + d := by ring
      exact ⟨by omega, by omega, by omega⟩
    · rcases Nat.mod_two_eq_zero_or_one q with h | h
      · rw [h, Nat.add_zero]
        exact ⟨by omega, by omega, fun _ => h⟩
      · have : (q + 1) * d = d * q + d := by ring
        rw [h]
        exact ⟨by omega, by omega, fun _ => by omega⟩

/-- `rne n d` is the quotient or the next number. -/
theorem rne_bounds (n d : Nat) : n / d ≤ rne n d ∧ rne n d ≤ n / d + 1 := by
  unfold rne
  split
  · omega
  · split
    · omega
    · have := Nat.mod_lt (n / d) (show 0 < 2 by norm_num)
      omega

/-- The significand of the nearest magnitude: below 2^24 with a fixed last place, else in [2^23, 2^24]. -/
theorem significand_bounds (n : Nat) {d : Nat} (hd : 0 < d) :
    rne n (d * 2 ^ ulpExp n d) ≤ 2 ^ 24 ∧
      (ulpExp n d = 0 ∨ (2 ^ 23 ≤ rne n (d * 2 ^ ulpExp n d) ∧ 2 ^ 23 * (d * 2 ^ ulpExp n d) ≤ n)) := by
  have hb := rne_bounds n (d * 2 ^ ulpExp n d)
  rw [← Nat.div_div_eq_div_mul] at hb
  have hpos : 0 < d * 2 ^ ulpExp n d := Nat.mul_pos hd (Nat.two_pow_pos _)
  have hlt : n / d < 2 ^ 24 * 2 ^ ulpExp n d := by
    rcases Nat.eq_zero_or_pos (n / d) with h0 | h0
    · rw [h0]
      exact Nat.mul_pos (by norm_num) (Nat.two_pow_pos _)
    · have := Nat.lt_log2_self (n := n / d)
      refine lt_of_lt_of_le this ?_
      rw [← Nat.pow_add]
      exact Nat.pow_le_pow_right (by norm_num) (by unfold ulpExp; omega)
  have hq : n / d / 2 ^ ulpExp n d < 2 ^ 24 := by
    rw [Nat.div_lt_iff_lt_mul (Nat.two_pow_pos _)]
    exact hlt
  refine ⟨by omega, ?_⟩
  rcases Nat.eq_zero_or_pos (ulpExp n d) with h | h
  · exact .inl h
  · right
    have h0 : n / d ≠ 0 := by
      intro h0
      simp [ulpExp, h0] at h
    have hle : 2 ^ 23 * 2 ^ ulpExp n d ≤ n / d := by
      refine le_trans ?_ (Nat.log2_self_le h0)
      rw [← Nat.pow_add]
      exact Nat.pow_le_pow_right (by norm_num) (by unfold ulpExp at *; omega)
    have hq' : 2 ^ 23 ≤ n / d / 2 ^ ulpExp n d := (Nat.le_div_iff_mul_le (Nat.two_pow_pos _)).mpr hle
    refine ⟨by omega, ?_⟩
    calc 2 ^ 23 * (d * 2 ^ ulpExp n d) = d * (2 ^ 23 * 2 ^ ulpExp n d) := by ring
      _ ≤ d * (n / d) := Nat.mul_le_mul_left _ hle
      _ ≤ n := Nat.mul_div_le n d

/-- The nearest magnitude in units: its significand times one unit in the last place. -/
theorem units_nearestMag (n : Nat) {d : Nat} (hd : 0 < d) :
    units (nearestMag n d) = rne n (d * 2 ^ ulpExp n d) * 2 ^ ulpExp n d := by
  obtain ⟨h2, h1⟩ := significand_bounds n hd
  unfold nearestMag
  generalize rne n (d * 2 ^ ulpExp n d) = k at *
  rcases h1 with h | ⟨h, _⟩
  · rw [h, Nat.zero_mul, Nat.zero_add, Nat.pow_zero, Nat.mul_one]
    rcases Nat.lt_or_ge k (2 ^ 23) with hk | hk
    · exact units_of_lt hk
    · have := units_pack (e := 0) hk h2
      simpa using this
  · exact units_pack h h2

/-- The nearest magnitude is within half a unit in the last place of `n / d`. -/
theorem nearestMag_half_ulp (n : Nat) {d : Nat} (hd : 0 < d) :
    2 * (units (nearestMag n d) * d) ≤ 2 * n + d * 2 ^ ulpExp n d ∧
      2 * n ≤ 2 * (units (nearestMag n d) * d) + d * 2 ^ ulpExp n d := by
  obtain ⟨h1, h2, _⟩ := rne_spec n (d := d * 2 ^ ulpExp n d) (Nat.mul_pos hd (Nat.two_pow_pos _))
  rw [units_nearestMag n hd]
  have : rne n (d * 2 ^ ulpExp n d) * 2 ^ ulpExp n d * d = rne n (d * 2 ^ ulpExp n d) * (d * 2 ^ ulpExp n d) := by ring
  rw [this]
  exact ⟨h1, h2⟩

/-- The relative error of rounding is at most 2^-24, the absolute error of a subnormal result half a unit. -/
theorem nearestMag_close (n : Nat) {d : Nat} (hd : 0 < d) :
    2 ^ 24 * (units (nearestMag n d) * d) ≤ 2 ^ 24 * n + n + 2 ^ 23 * d ∧
      2 ^ 24 * n ≤ 2 ^ 24 * (units (nearestMag n d) * d) + n + 2 ^ 23 * d := by
  obtain ⟨h1, h2⟩ := nearestMag_half_ulp n hd
  obtain ⟨-, h | ⟨-, h⟩⟩ := significand_bounds n hd
  · rw [h, Nat.pow_zero, Nat.mul_one] at h1 h2
    omega
  · omega

/-- The magnitude above the nearest one is past `n / d`. -/
theorem lt_units_succ_nearestMag (n : Nat) {d : Nat} (hd : 0 < d) : n < units (nearestMag n d + 1) * d := by
  obtain ⟨-, h2⟩ := nearestMag_half_ulp n hd
  have hpos := Nat.mul_pos hd (Nat.two_pow_pos (ulpExp n d))
  have hstep : units (nearestMag n d) + 2 ^ ulpExp n d ≤ units (nearestMag n d + 1) := by
    refine le_trans (Nat.add_le_add_left (Nat.pow_le_pow_right (by norm_num) ?_) _) (units_succ_ge _)
    rcases (significand_bounds n hd).2 with h | ⟨h, _⟩
    · omega
    · unfold nearestMag
      generalize rne n (d * 2 ^ ulpExp n d) = k at *
      omega
  have : (units (nearestMag n d) + 2 ^ ulpExp n d) * d ≤ units (nearestMag n d + 1) * d := Nat.mul_le_mul_right _ hstep
  have hx : (units (nearestMag n d) + 2 ^ ulpExp n d) * d = units (nearestMag n d) * d + d * 2 ^ ulpExp n d := by ring
  omega

/-- A binary32 number at or below `n / d` is at or below the nearest one. -/
theorem le_nearestMag {n d m : Nat} (hd : 0 < d) (h : units m * d ≤ n) : m ≤ nearestMag n d := by
  by_contra hlt
  have h1 := lt_units_succ_nearestMag n hd
  have h2 : units (nearestMag n d + 1) * d ≤ units m * d :=
    Nat.mul_le_mul_right _ (units_strictMono.monotone (by omega))
  omega

/-- The nearest magnitude is even where its significand is. -/
theorem nearestMag_mod_two (n d : Nat) : nearestMag n d % 2 = rne n (d * 2 ^ ulpExp n d) % 2 := by
  unfold nearestMag
  omega

/-- `n / d` is not past the midpoint above the nearest magnitude, and the nearest one is even where it stands on it. -/
theorem nearestMag_mid_above (n : Nat) {d : Nat} (hd : 0 < d) :
    2 * n ≤ (units (nearestMag n d) + units (nearestMag n d + 1)) * d ∧
      (2 * n = (units (nearestMag n d) + units (nearestMag n d + 1)) * d → nearestMag n d % 2 = 0) := by
  obtain ⟨-, h2⟩ := nearestMag_half_ulp n hd
  obtain ⟨-, -, h3⟩ := rne_spec n (d := d * 2 ^ ulpExp n d) (Nat.mul_pos hd (Nat.two_pow_pos _))
  have hu := units_nearestMag n hd
  have hstep : units (nearestMag n d) + 2 ^ ulpExp n d ≤ units (nearestMag n d + 1) := by
    refine le_trans (Nat.add_le_add_left (Nat.pow_le_pow_right (by norm_num) ?_) _) (units_succ_ge _)
    rcases (significand_bounds n hd).2 with h | ⟨h, _⟩
    · omega
    · unfold nearestMag
      generalize rne n (d * 2 ^ ulpExp n d) = k at *
      omega
  rw [nearestMag_mod_two]
  have e1 : rne n (d * 2 ^ ulpExp n d) * (d * 2 ^ ulpExp n d) = units (nearestMag n d) * d := by rw [hu]; ring
  rw [e1] at h3
  generalize units (nearestMag n d) = u at *
  generalize units (nearestMag n d + 1) = u' at *
  have e2 : (u + 2 ^ ulpExp n d) * d ≤ u' * d := Nat.mul_le_mul_right _ hstep
  have e3 : (u + 2 ^ ulpExp n d) * d = u * d + d * 2 ^ ulpExp n d := by ring
  have e4 : (u + u') * d = u * d + u' * d := by ring
  rw [e4]
  exact ⟨by omega, fun h => h3 (.inr (by omega))⟩

/-- `n / d` is not before the midpoint below the nearest magnitude, and the nearest one is even where it stands on it. -/
theorem nearestMag_mid_below (n : Nat) {d : Nat} (hd : 0 < d) (h0 : 0 < nearestMag n d) :
    (units (nearestMag n d - 1) + units (nearestMag n d)) * d ≤ 2 * n ∧
      (2 * n = (units (nearestMag n d - 1) + units (nearestMag n d)) * d → nearestMag n d % 2 = 0) := by
  obtain ⟨h1, -⟩ := nearestMag_half_ulp n hd
  obtain ⟨-, -, h3⟩ := rne_spec n (d := d * 2 ^ ulpExp n d) (Nat.mul_pos hd (Nat.two_pow_pos _))
  have hu := units_nearestMag n hd
  obtain ⟨h24, hb⟩ := significand_bounds n hd
  have hstrict : units (nearestMag n d - 1) < units (nearestMag n d) := units_strictMono (by omega)
  have e1 : rne n (d * 2 ^ ulpExp n d) * (d * 2 ^ ulpExp n d) = units (nearestMag n d) * d := by rw [hu]; ring
  have e4 : (units (nearestMag n d - 1) + units (nearestMag n d)) * d =
      units (nearestMag n d - 1) * d + units (nearestMag n d) * d := by ring
  rw [nearestMag_mod_two, e4]
  by_cases hk : ulpExp n d ≠ 0 ∧ rne n (d * 2 ^ ulpExp n d) = 2 ^ 23
  · obtain ⟨he, hk⟩ := hk
    refine ⟨?_, fun _ => by rw [hk]; decide⟩
    rcases hb with h | ⟨-, h⟩
    · exact absurd h he
    · have : units (nearestMag n d - 1) * d < units (nearestMag n d) * d := Nat.mul_lt_mul_of_pos_right hstrict hd
      rw [hk] at e1
      omega
  · have hstep : units (nearestMag n d - 1) + 2 ^ ulpExp n d ≤ units (nearestMag n d) := by
      rcases hb with h | ⟨h, -⟩
      · rw [h, Nat.pow_zero]
        omega
      · have hk' : 2 ^ 23 < rne n (d * 2 ^ ulpExp n d) ∨ ulpExp n d = 0 := by omega
        rcases hk' with hk' | hk'
        · rw [hu]
          unfold nearestMag
          generalize rne n (d * 2 ^ ulpExp n d) = k at *
          rw [Nat.add_sub_assoc (by omega), units_pack (by omega) (by omega)]
          obtain ⟨j, rfl⟩ : ∃ j, k = j + 1 := ⟨k - 1, by omega⟩
          rw [Nat.add_sub_cancel]
          ring_nf
          exact le_rfl
        · rw [hk', Nat.pow_zero]
          omega
    rw [e1] at h3
    generalize units (nearestMag n d - 1) = u at *
    generalize units (nearestMag n d) = u' at *
    have e2 : (u + 2 ^ ulpExp n d) * d ≤ u' * d := Nat.mul_le_mul_right _ hstep
    have e3 : (u + 2 ^ ulpExp n d) * d = u * d + d * 2 ^ ulpExp n d := by ring
    exact ⟨by omega, fun h => h3 (.inl (by omega))⟩

/-- A number before the midpoint above `m` rounds to `m` or below. -/
theorem nearestMag_le_of_lt_mid {n d m : Nat} (hd : 0 < d) (h : 2 * n < (units m + units (m + 1)) * d) :
    nearestMag n d ≤ m := by
  by_contra hlt
  have h1 := (nearestMag_mid_below n hd (by omega)).1
  have h2 : units m ≤ units (nearestMag n d - 1) := units_strictMono.monotone (by omega)
  have h3 : units (m + 1) ≤ units (nearestMag n d) := units_strictMono.monotone (by omega)
  have : (units m + units (m + 1)) * d ≤ (units (nearestMag n d - 1) + units (nearestMag n d)) * d :=
    Nat.mul_le_mul_right _ (by omega)
  omega

/-- The magnitude below the nearest one is before `n / d`. -/
theorem units_pred_nearestMag_lt (n : Nat) {d : Nat} (hd : 0 < d) (h0 : 0 < nearestMag n d) :
    units (nearestMag n d - 1) * d < n := by
  have h1 := (nearestMag_mid_below n hd h0).1
  have h2 : units (nearestMag n d - 1) < units (nearestMag n d) := units_strictMono (by omega)
  have h3 : units (nearestMag n d - 1) * d < units (nearestMag n d) * d := Nat.mul_lt_mul_of_pos_right h2 hd
  rw [Nat.add_mul] at h1
  omega

/-- A binary32 number at or above `n / d` is at or above the nearest one. -/
theorem nearestMag_le {n d m : Nat} (hd : 0 < d) (h : n ≤ units m * d) : nearestMag n d ≤ m := by
  by_contra hlt
  have h1 := units_pred_nearestMag_lt n hd (by omega)
  have h2 : units m * d ≤ units (nearestMag n d - 1) * d :=
    Nat.mul_le_mul_right _ (units_strictMono.monotone (by omega))
  omega

/-- A binary32 number is its own nearest one. -/
theorem nearestMag_units (m : Nat) {d : Nat} (hd : 0 < d) : nearestMag (units m * d) d = m :=
  le_antisymm (nearestMag_le hd le_rfl) (le_nearestMag hd le_rfl)

/-- Scaling the fraction by a common factor does not change the integer nearest to it. -/
theorem rne_scale (n d : Nat) {c : Nat} (hc : 0 < c) : rne (n * c) (d * c) = rne n d := by
  unfold rne
  rw [Nat.mul_div_mul_right _ _ hc, Nat.mul_mod_mul_right]
  have e1 : (2 * (n % d * c) < d * c) ↔ 2 * (n % d) < d := by
    rw [← Nat.mul_assoc]; exact Nat.mul_lt_mul_right hc
  have e2 : (d * c < 2 * (n % d * c)) ↔ d < 2 * (n % d) := by
    rw [← Nat.mul_assoc]; exact Nat.mul_lt_mul_right hc
  simp only [e1, e2]

/-- Scaling the fraction by a common factor does not change the number nearest to it. -/
theorem nearestMag_scale (n d : Nat) {c : Nat} (hc : 0 < c) : nearestMag (n * c) (d * c) = nearestMag n d := by
  unfold nearestMag ulpExp
  rw [Nat.mul_div_mul_right _ _ hc, Nat.mul_right_comm d c, rne_scale _ _ hc]

/-- Rounding to an integer is monotone. -/
theorem rne_mono {n n' : Nat} (d : Nat) (h : n ≤ n') : rne n d ≤ rne n' d := by
  have hq : n / d ≤ n' / d := Nat.div_le_div_right h
  have h1 := rne_bounds n d
  have h2 := rne_bounds n' d
  rcases Nat.lt_or_ge (n / d) (n' / d) with hlt | hge
  · omega
  · have heq : n / d = n' / d := by omega
    have hn := Nat.div_add_mod n d
    have hn' := Nat.div_add_mod n' d
    rw [← heq] at hn'
    have hr : n % d ≤ n' % d := by omega
    unfold rne
    rw [← heq]
    have := Nat.mod_lt (n / d) (show 0 < 2 by norm_num)
    split <;> split <;> (try split) <;> (try split) <;> omega

/-- Rounding is monotone in the number rounded. -/
theorem nearestMag_mono {n d n' d' : Nat} (hd : 0 < d) (hd' : 0 < d') (h : n * d' ≤ n' * d) :
    nearestMag n d ≤ nearestMag n' d' := by
  rw [← nearestMag_scale n d hd', ← nearestMag_scale n' d' hd, Nat.mul_comm d' d]
  have hD : 0 < d * d' := Nat.mul_pos hd hd'
  generalize n * d' = a at *
  generalize n' * d = b at *
  generalize d * d' = D at *
  have he : ulpExp a D ≤ ulpExp b D := by
    have : Nat.log2 (a / D) ≤ Nat.log2 (b / D) := by
      rw [Nat.log2_eq_log_two, Nat.log2_eq_log_two]
      exact Nat.log_mono_right (Nat.div_le_div_right h)
    unfold ulpExp
    omega
  have ha := (significand_bounds a hD).1
  rcases Nat.lt_or_ge (ulpExp a D) (ulpExp b D) with hlt | hge
  · rcases (significand_bounds b hD).2 with hb | ⟨hb, -⟩
    · omega
    · unfold nearestMag
      omega
  · have heq : ulpExp a D = ulpExp b D := by omega
    unfold nearestMag
    rw [← heq]
    exact Nat.add_le_add_left (rne_mono _ h) _

theorem roundMag_le_infMag (n d : Nat) : roundMag n d ≤ infMag := Nat.min_le_left _ _

theorem roundMag_of_lt {n d : Nat} (h : nearestMag n d < infMag) : roundMag n d = nearestMag n d :=
  Nat.min_eq_right (by omega)

theorem roundMag_lt_iff {n d : Nat} : roundMag n d < infMag ↔ nearestMag n d < infMag := by
  unfold roundMag
  omega

/-- Rounding with the overflow to infinity is monotone. -/
theorem roundMag_mono {n d n' d' : Nat} (hd : 0 < d) (hd' : 0 < d') (h : n * d' ≤ n' * d) :
    roundMag n d ≤ roundMag n' d' := by
  have := nearestMag_mono hd hd' h
  unfold roundMag
  omega

@[simp] theorem roundMag_zero (d : Nat) : roundMag 0 d = 0 := by
  have : nearestMag 0 d = 0 := by
    unfold nearestMag ulpExp rne
    simp
  unfold roundMag
  omega

/-! ### Patterns: sign, magnitude and value -/

theorem mag_lt (x : F32) : mag x < 2 ^ 31 := Nat.mod_lt _ (by norm_num)

theorem sign_eq_decide (x : F32) : sign x = decide (2 ^ 31 ≤ x.toNat) := by
  unfold sign
  rw [BitVec.msb_eq_decide]

theorem toNat_eq (x : F32) : x.toNat = (if sign x then 2 ^ 31 else 0) + mag x := by
  have hx := x.isLt
  rw [sign_eq_decide]
  unfold mag
  by_cases h : 2 ^ 31 ≤ x.toNat
  · simp only [h, decide_true, if_true]
    omega
  · simp only [h, decide_false, Bool.false_eq_true, if_false]
    omega

/-- A pattern is its sign and its magnitude. -/
theorem eq_of_sign_mag {x y : F32} (hs : sign x = sign y) (hm : mag x = mag y) : x = y := by
  apply BitVec.eq_of_toNat_eq
  rw [toNat_eq x, toNat_eq y, hs, hm]

theorem ofMag_toNat (s : Bool) {m : Nat} (h : m < 2 ^ 31) : (ofMag s m).toNat = (if s then 2 ^ 31 else 0) + m := by
  unfold ofMag
  rw [BitVec.toNat_ofNat]
  cases s <;> simp <;> omega

@[simp] theorem mag_ofMag (s : Bool) {m : Nat} (h : m < 2 ^ 31) : mag (ofMag s m) = m := by
  unfold mag
  rw [ofMag_toNat s h]
  cases s
  · simp
    omega
  · simp
    omega

@[simp] theorem sign_ofMag (s : Bool) {m : Nat} (h : m < 2 ^ 31) : sign (ofMag s m) = s := by
  rw [sign_eq_decide, ofMag_toNat s h]
  cases s
  · simp
    omega
  · simp

theorem roundMag_lt_two_pow (n d : Nat) : roundMag n d < 2 ^ 31 :=
  lt_of_le_of_lt (roundMag_le_infMag n d) (by decide)

@[simp] theorem mag_round (s : Bool) (n d : Nat) : mag (round s n d) = roundMag n d :=
  mag_ofMag s (roundMag_lt_two_pow n d)

@[simp] theorem sign_round (s : Bool) (n d : Nat) : sign (round s n d) = s :=
  sign_ofMag s (roundMag_lt_two_pow n d)

theorem mag_eq_setWidth (x : F32) : mag x = (x.setWidth 31).toNat := (BitVec.toNat_setWidth 31 x).symm

@[simp] theorem mag_neg (x : F32) : mag (neg x) = mag x := by
  rw [mag_eq_setWidth, mag_eq_setWidth]
  unfold neg
  rw [BitVec.setWidth_xor, show (0x80000000#32).setWidth 31 = 0#31 by decide, BitVec.xor_zero]

@[simp] theorem sign_neg (x : F32) : sign (neg x) = !sign x := by
  unfold sign neg
  rw [BitVec.msb_xor, show (0x80000000#32).msb = true by decide, Bool.xor_true]

@[simp] theorem mag_abs (x : F32) : mag (abs x) = mag x := by
  rw [mag_eq_setWidth, mag_eq_setWidth]
  unfold abs
  rw [BitVec.setWidth_and, show (0x7FFFFFFF#32).setWidth 31 = BitVec.allOnes 31 by decide, BitVec.and_allOnes]

@[simp] theorem sign_abs (x : F32) : sign (abs x) = false := by
  unfold sign abs
  rw [BitVec.msb_and, show (0x7FFFFFFF#32).msb = false by decide, Bool.and_false]

theorem isFinite_iff {x : F32} : isFinite x = true ↔ mag x < infMag := by simp [isFinite]

theorem isFinite_neg (x : F32) : isFinite (neg x) = isFinite x := by simp [isFinite]

theorem isNaN_of_finite {x : F32} (h : isFinite x = true) : isNaN x = false := by
  rw [isFinite_iff] at h
  simp [isNaN]
  omega

theorem isInf_of_finite {x : F32} (h : isFinite x = true) : isInf x = false := by
  rw [isFinite_iff] at h
  simp [isInf]
  omega

theorem isFinite_round {s : Bool} {n d : Nat} : isFinite (round s n d) = true ↔ nearestMag n d < infMag := by
  rw [isFinite_iff, mag_round, roundMag_lt_iff]

@[simp] theorem toInt_neg (x : F32) : toInt (neg x) = -toInt x := by
  unfold toInt
  rw [sign_neg, mag_neg]
  cases sign x <;> simp

/-- The order of patterns is the order of their values. -/
theorem key_le_iff (x y : F32) : key x ≤ key y ↔ toInt x ≤ toInt y := by
  have h1 : (units (mag x) : Int) ≤ units (mag y) ↔ (mag x : Int) ≤ mag y := by
    rw [Int.ofNat_le, Int.ofNat_le, units_le_iff]
  have h2 : (units (mag y) : Int) ≤ units (mag x) ↔ (mag y : Int) ≤ mag x := by
    rw [Int.ofNat_le, Int.ofNat_le, units_le_iff]
  have h3 : (units (mag x) : Int) = 0 ↔ (mag x : Int) = 0 := by
    rw [Int.natCast_eq_zero, Int.natCast_eq_zero, units_eq_zero]
  have h4 : (units (mag y) : Int) = 0 ↔ (mag y : Int) = 0 := by
    rw [Int.natCast_eq_zero, Int.natCast_eq_zero, units_eq_zero]
  unfold key toInt
  cases sign x <;> cases sign y <;> simp only [Bool.false_eq_true, if_true, if_false] <;> omega

theorem key_lt_iff (x y : F32) : key x < key y ↔ toInt x < toInt y := by
  rw [← Int.not_le, ← Int.not_le, key_le_iff]

theorem le_iff {x y : F32} (hx : isFinite x = true) (hy : isFinite y = true) :
    le x y = true ↔ toInt x ≤ toInt y := by
  simp [le, isNaN_of_finite hx, isNaN_of_finite hy, key_le_iff]

theorem lt_iff {x y : F32} (hx : isFinite x = true) (hy : isFinite y = true) :
    lt x y = true ↔ toInt x < toInt y := by
  simp [lt, isNaN_of_finite hx, isNaN_of_finite hy, key_lt_iff]

theorem eq_iff {x y : F32} (hx : isFinite x = true) (hy : isFinite y = true) :
    eq x y = true ↔ toInt x = toInt y := by
  simp only [eq, isNaN_of_finite hx, isNaN_of_finite hy, Bool.not_false, Bool.true_and, decide_eq_true_eq]
  rw [le_antisymm_iff, le_antisymm_iff, key_le_iff, key_le_iff]

/-! ### Rounding a signed exact value -/

/-- The value, in units, of the number nearest to the signed fraction `n / d`. -/
def roundInt (n : Int) (d : Nat) : Int :=
  if n < 0 then -(units (roundMag n.natAbs d) : Int) else (units (roundMag n.natAbs d) : Int)

theorem toInt_round (s : Bool) (n d : Nat) :
    toInt (round s n d) = if s then -(units (roundMag n d) : Int) else (units (roundMag n d) : Int) := by
  unfold toInt
  rw [sign_round, mag_round]

/-- A finite number at or above the exact value is at or above the rounded one. -/
theorem roundInt_le {n : Int} {d : Nat} (hd : 0 < d) {y : F32} (hy : isFinite y = true) (h : n ≤ toInt y * d) :
    roundInt n d ≤ toInt y := by
  rw [isFinite_iff] at hy
  unfold roundInt
  unfold toInt at h ⊢
  by_cases hn : n < 0
  · rw [if_pos hn]
    cases hs : sign y
    · simp only [Bool.false_eq_true, if_false]
      omega
    · rw [hs, if_pos rfl] at h
      rw [if_pos rfl]
      have h' : units (mag y) * d ≤ n.natAbs := by zify; rw [abs_of_neg hn]; linarith
      have := units_le_iff.mpr (show mag y ≤ roundMag n.natAbs d from le_min hy.le (le_nearestMag hd h'))
      omega
  · rw [if_neg hn]
    cases hs : sign y
    · simp only [hs, Bool.false_eq_true, if_false] at h ⊢
      have h' : n.natAbs ≤ units (mag y) * d := by zify; rw [abs_of_nonneg (by omega)]; exact h
      have := units_le_iff.mpr (show roundMag n.natAbs d ≤ mag y from (min_le_right _ _).trans (nearestMag_le hd h'))
      omega
    · rw [hs, if_pos rfl] at h
      rw [if_pos rfl]
      have h0 : units (mag y) = 0 := by
        by_contra hne
        have : (0 : Int) < units (mag y) * d := by positivity
        linarith
      have hn0 : n = 0 := by rw [h0] at h; simp at h; omega
      rw [h0, hn0]
      simp

theorem roundInt_neg (n : Int) (d : Nat) : roundInt (-n) d = -roundInt n d := by
  unfold roundInt
  rw [Int.natAbs_neg]
  rcases lt_trichotomy n 0 with h | h | h
  · rw [if_neg (by omega), if_pos h, neg_neg]
  · subst h
    simp
  · rw [if_pos (by omega), if_neg (by omega)]

/-- A finite number at or below the exact value is at or below the rounded one. -/
theorem le_roundInt {n : Int} {d : Nat} (hd : 0 < d) {y : F32} (hy : isFinite y = true) (h : toInt y * d ≤ n) :
    toInt y ≤ roundInt n d := by
  have := roundInt_le (n := -n) hd (y := neg y) (by rw [isFinite_neg]; exact hy) (by rw [toInt_neg]; linarith)
  rw [roundInt_neg, toInt_neg] at this
  omega

/-- A finite number is its own rounding. -/
theorem roundInt_toInt {d : Nat} (hd : 0 < d) {y : F32} (hy : isFinite y = true) : roundInt (toInt y * d) d = toInt y :=
  le_antisymm (roundInt_le hd hy le_rfl) (le_roundInt hd hy le_rfl)

/-- Rounding is monotone in the exact value. -/
theorem roundInt_mono {n n' : Int} {d d' : Nat} (hd : 0 < d) (hd' : 0 < d') (h : n * d' ≤ n' * d) :
    roundInt n d ≤ roundInt n' d' := by
  unfold roundInt
  by_cases hn : n < 0
  · by_cases hn' : n' < 0
    · rw [if_pos hn, if_pos hn']
      have : n'.natAbs * d ≤ n.natAbs * d' := by zify; rw [abs_of_neg hn, abs_of_neg hn']; linarith
      have := units_le_iff.mpr (roundMag_mono hd' hd this)
      omega
    · rw [if_pos hn, if_neg hn']
      omega
  · by_cases hn' : n' < 0
    · exfalso
      have h1 : (0 : Int) ≤ n * d' := mul_nonneg (by omega) (by positivity)
      have h2 : n' * d < 0 := mul_neg_of_neg_of_pos hn' (by exact_mod_cast hd)
      omega
    · rw [if_neg hn, if_neg hn']
      have : n.natAbs * d' ≤ n'.natAbs * d := by
        zify; rw [abs_of_nonneg (by omega), abs_of_nonneg (by omega)]; exact h
      have := units_le_iff.mpr (roundMag_mono hd hd' this)
      omega

/-- The bound a finite number puts on the exact value keeps the rounded magnitude finite. -/
theorem nearestMag_lt_of_le {n d : Nat} (hd : 0 < d) {y : F32} (hy : isFinite y = true) (h : n ≤ units (mag y) * d) :
    nearestMag n d < infMag := lt_of_le_of_lt (nearestMag_le hd h) (isFinite_iff.mp hy)

/-- An exact value between two finite numbers rounds to a finite number. -/
theorem nearestMag_lt_of_between {n : Int} {d : Nat} (hd : 0 < d) {lo hi : F32} (hlo : isFinite lo = true)
    (hhi : isFinite hi = true) (h1 : toInt lo * d ≤ n) (h2 : n ≤ toInt hi * d) : nearestMag n.natAbs d < infMag := by
  have hd' : (0 : Int) < d := by exact_mod_cast hd
  by_cases hn : n < 0
  · refine nearestMag_lt_of_le hd hlo ?_
    zify
    rw [abs_of_neg hn]
    unfold toInt at h1
    split at h1
    · linarith
    · have : (0 : Int) ≤ units (mag lo) * d := by positivity
      linarith
  · refine nearestMag_lt_of_le hd hhi ?_
    zify
    rw [abs_of_nonneg (by omega)]
    unfold toInt at h2
    split at h2
    · have : (0 : Int) ≤ units (mag hi) * d := by positivity
      linarith
    · exact h2

/-- The rounded value is within 2^-24 of the exact one, or half a unit. -/
theorem roundInt_close {n : Int} {d : Nat} (hd : 0 < d) (h : nearestMag n.natAbs d < infMag) :
    2 ^ 24 * |roundInt n d * d - n| ≤ |n| + 2 ^ 23 * d := by
  obtain ⟨h1, h2⟩ := nearestMag_close n.natAbs hd
  have habs : |n| = (n.natAbs : Int) := Int.abs_eq_natAbs n
  rw [← roundMag_of_lt h] at h1 h2
  zify at h1 h2
  have key : |roundInt n d * d - n| = |(units (roundMag n.natAbs d) : Int) * d - n.natAbs| := by
    unfold roundInt
    split
    · have : n = -(n.natAbs : Int) := by omega
      rw [this, Int.natAbs_neg, Int.natAbs_natCast, ← abs_neg]
      congr 1
      ring
    · have : n = (n.natAbs : Int) := by omega
      rw [this, Int.natAbs_natCast]
  rw [key, habs]
  have e : (2 : Int) ^ 24 * |(units (roundMag n.natAbs d) : Int) * d - n.natAbs| =
      |2 ^ 24 * ((units (roundMag n.natAbs d) : Int) * d) - 2 ^ 24 * n.natAbs| := by
    rw [← mul_sub, abs_mul]
    norm_num
  rw [e, abs_le]
  rw [← habs] at *
  constructor <;> linarith

/-! ### The operations: one rounding of the exact result -/

/-- The value of a sum of finite numbers (R9). -/
theorem toInt_add {x y : F32} (hx : isFinite x = true) (hy : isFinite y = true) :
    toInt (add x y) = roundInt (toInt x + toInt y) 1 := by
  unfold add
  simp only [isNaN_of_finite hx, isNaN_of_finite hy, isInf_of_finite hx, isInf_of_finite hy, Bool.or_self,
    Bool.false_eq_true, if_false]
  split
  · rename_i h
    rw [h]
    unfold toInt roundInt
    rw [mag_ofMag _ (by norm_num)]
    simp
  · rw [toInt_round]
    unfold roundInt
    by_cases h : toInt x + toInt y < 0 <;> simp [h]

/-- A sum of finite numbers is finite where its magnitude rounds below infinity. -/
theorem isFinite_add {x y : F32} (hx : isFinite x = true) (hy : isFinite y = true) :
    isFinite (add x y) = true ↔ nearestMag (toInt x + toInt y).natAbs 1 < infMag := by
  unfold add
  simp only [isNaN_of_finite hx, isNaN_of_finite hy, isInf_of_finite hx, isInf_of_finite hy, Bool.or_self,
    Bool.false_eq_true, if_false]
  split
  · rename_i h
    rw [h, isFinite_iff, mag_ofMag _ (by norm_num), ← roundMag_lt_iff]
    simp
  · exact isFinite_round

theorem toInt_sub {x y : F32} (hx : isFinite x = true) (hy : isFinite y = true) :
    toInt (sub x y) = roundInt (toInt x - toInt y) 1 := by
  unfold sub
  rw [toInt_add hx (by rw [isFinite_neg]; exact hy), toInt_neg, sub_eq_add_neg]

theorem isFinite_sub {x y : F32} (hx : isFinite x = true) (hy : isFinite y = true) :
    isFinite (sub x y) = true ↔ nearestMag (toInt x - toInt y).natAbs 1 < infMag := by
  unfold sub
  rw [isFinite_add hx (by rw [isFinite_neg]; exact hy), toInt_neg, sub_eq_add_neg]

/-- The product of two values has the product of the magnitudes and the exclusive or of the signs. -/
theorem toInt_mul_toInt (x y : F32) :
    toInt x * toInt y =
      if sign x != sign y then -((units (mag x) * units (mag y) : Nat) : Int)
      else ((units (mag x) * units (mag y) : Nat) : Int) := by
  unfold toInt
  cases sign x <;> cases sign y <;> simp

theorem roundInt_signed (s : Bool) (n d : Nat) :
    roundInt (if s then -(n : Int) else n) d = if s then -(units (roundMag n d) : Int) else units (roundMag n d) := by
  cases s
  · simp [roundInt]
  · simp only [if_true]
    rw [roundInt_neg]
    simp [roundInt]

/-- The value of a product of finite numbers (R9). -/
theorem toInt_mul {x y : F32} (hx : isFinite x = true) (hy : isFinite y = true) :
    toInt (mul x y) = roundInt (toInt x * toInt y) (2 ^ 149) := by
  unfold mul
  simp only [isNaN_of_finite hx, isNaN_of_finite hy, isInf_of_finite hx, isInf_of_finite hy, Bool.or_self,
    Bool.false_eq_true, if_false]
  rw [toInt_round, toInt_mul_toInt, roundInt_signed]

theorem isFinite_mul {x y : F32} (hx : isFinite x = true) (hy : isFinite y = true) :
    isFinite (mul x y) = true ↔ nearestMag (toInt x * toInt y).natAbs (2 ^ 149) < infMag := by
  unfold mul
  simp only [isNaN_of_finite hx, isNaN_of_finite hy, isInf_of_finite hx, isInf_of_finite hy, Bool.or_self,
    Bool.false_eq_true, if_false]
  have h : (toInt x * toInt y).natAbs = units (mag x) * units (mag y) := by
    rw [toInt_mul_toInt]
    split
    · rw [Int.natAbs_neg, Int.natAbs_natCast]
    · rw [Int.natAbs_natCast]
  rw [isFinite_round, h]

/-- A nonzero finite number has a nonzero magnitude. -/
theorem mag_pos {x : F32} (h : toInt x ≠ 0) : 0 < mag x := by
  rcases Nat.eq_zero_or_pos (mag x) with h0 | h0
  · simp [toInt, h0] at h
  · exact h0

/-- A positive number has a clear sign bit. -/
theorem sign_of_pos {x : F32} (h : 0 < toInt x) : sign x = false := by
  cases hs : sign x
  · rfl
  · unfold toInt at h
    rw [hs, if_pos rfl] at h
    omega

/-- The value of a quotient of finite numbers with a positive divisor (R9). -/
theorem toInt_div {x y : F32} (hx : isFinite x = true) (hy : isFinite y = true) (h : 0 < toInt y) :
    toInt (div x y) = roundInt (toInt x * 2 ^ 149) (toInt y).toNat := by
  have hm : (mag y == 0) = false := by
    have := mag_pos (x := y) (by omega)
    simp
    omega
  have hs : sign y = false := sign_of_pos h
  have hy' : (toInt y).toNat = units (mag y) := by simp [toInt, hs]
  unfold div
  simp only [isNaN_of_finite hx, isNaN_of_finite hy, isInf_of_finite hx, isInf_of_finite hy, hm, hs, Bool.or_self,
    Bool.false_eq_true, if_false, hy', Bool.bne_false]
  rw [toInt_round, ← roundInt_signed]
  congr 1
  unfold toInt
  cases sign x <;> simp

theorem isFinite_div {x y : F32} (hx : isFinite x = true) (hy : isFinite y = true) (h : 0 < toInt y) :
    isFinite (div x y) = true ↔ nearestMag (toInt x * 2 ^ 149).natAbs (toInt y).toNat < infMag := by
  have hm : (mag y == 0) = false := by
    have := mag_pos (x := y) (by omega)
    simp
    omega
  have hs : sign y = false := sign_of_pos h
  have hy' : (toInt y).toNat = units (mag y) := by simp [toInt, hs]
  unfold div
  simp only [isNaN_of_finite hx, isNaN_of_finite hy, isInf_of_finite hx, isInf_of_finite hy, hm, hs, Bool.or_self,
    Bool.false_eq_true, if_false, hy', Bool.bne_false]
  rw [isFinite_round]
  unfold toInt
  cases sign x <;> simp [Int.natAbs_mul]

/-! ### Ranges -/

/-- Lying between two finite numbers: finite, and between their values. -/
theorem within_iff {lo hi v : F32} (hlo : isFinite lo = true) (hhi : isFinite hi = true) :
    (le lo v && le v hi) = true ↔ isFinite v = true ∧ toInt lo ≤ toInt v ∧ toInt v ≤ toInt hi := by
  constructor
  · intro h
    rw [Bool.and_eq_true] at h
    obtain ⟨h1, h2⟩ := h
    have hv : isFinite v = true := by
      simp only [le, Bool.and_eq_true, decide_eq_true_eq] at h1 h2
      rw [isFinite_iff] at *
      have hk1 := h1.2
      have hk2 := h2.2
      unfold key at hk1 hk2
      cases hs : sign v
      · rw [hs, if_neg Bool.false_ne_true] at hk2
        split at hk2 <;> omega
      · rw [hs, if_pos rfl] at hk1
        split at hk1 <;> omega
    exact ⟨hv, (le_iff hlo hv).mp h1, (le_iff hv hhi).mp h2⟩
  · rintro ⟨hv, h1, h2⟩
    rw [Bool.and_eq_true]
    exact ⟨(le_iff hlo hv).mpr h1, (le_iff hv hhi).mpr h2⟩

/-- A sum whose exact value lies between two finite numbers lies between them. -/
theorem add_between {x y lo hi : F32} (hx : isFinite x = true) (hy : isFinite y = true) (hlo : isFinite lo = true)
    (hhi : isFinite hi = true) (h1 : toInt lo ≤ toInt x + toInt y) (h2 : toInt x + toInt y ≤ toInt hi) :
    isFinite (add x y) = true ∧ toInt lo ≤ toInt (add x y) ∧ toInt (add x y) ≤ toInt hi := by
  refine ⟨(isFinite_add hx hy).mpr (nearestMag_lt_of_between one_pos hlo hhi (by simpa using h1) (by simpa using h2)),
    ?_, ?_⟩
  · rw [toInt_add hx hy]
    exact le_roundInt one_pos hlo (by simpa using h1)
  · rw [toInt_add hx hy]
    exact roundInt_le one_pos hhi (by simpa using h2)

/-- A difference whose exact value lies between two finite numbers lies between them. -/
theorem sub_between {x y lo hi : F32} (hx : isFinite x = true) (hy : isFinite y = true) (hlo : isFinite lo = true)
    (hhi : isFinite hi = true) (h1 : toInt lo ≤ toInt x - toInt y) (h2 : toInt x - toInt y ≤ toInt hi) :
    isFinite (sub x y) = true ∧ toInt lo ≤ toInt (sub x y) ∧ toInt (sub x y) ≤ toInt hi := by
  unfold sub
  have := toInt_neg y
  exact add_between hx (by rw [isFinite_neg]; exact hy) hlo hhi (by omega) (by omega)

/-- A product whose exact value lies between two finite numbers lies between them. -/
theorem mul_between {x y lo hi : F32} (hx : isFinite x = true) (hy : isFinite y = true) (hlo : isFinite lo = true)
    (hhi : isFinite hi = true) (h1 : toInt lo * 2 ^ 149 ≤ toInt x * toInt y)
    (h2 : toInt x * toInt y ≤ toInt hi * 2 ^ 149) :
    isFinite (mul x y) = true ∧ toInt lo ≤ toInt (mul x y) ∧ toInt (mul x y) ≤ toInt hi := by
  have hp : 0 < 2 ^ 149 := by positivity
  refine ⟨(isFinite_mul hx hy).mpr (nearestMag_lt_of_between hp hlo hhi (by push_cast; exact h1) (by push_cast; exact h2)),
    ?_, ?_⟩
  · rw [toInt_mul hx hy]
    exact le_roundInt hp hlo (by push_cast; exact h1)
  · rw [toInt_mul hx hy]
    exact roundInt_le hp hhi (by push_cast; exact h2)

/-- A quotient by a positive number whose exact value lies between two finite numbers lies between them. -/
theorem div_between {x y lo hi : F32} (hx : isFinite x = true) (hy : isFinite y = true) (hlo : isFinite lo = true)
    (hhi : isFinite hi = true) (hpos : 0 < toInt y) (h1 : toInt lo * toInt y ≤ toInt x * 2 ^ 149)
    (h2 : toInt x * 2 ^ 149 ≤ toInt hi * toInt y) :
    isFinite (div x y) = true ∧ toInt lo ≤ toInt (div x y) ∧ toInt (div x y) ≤ toInt hi := by
  have hp : 0 < (toInt y).toNat := by omega
  have he : ((toInt y).toNat : Int) = toInt y := by omega
  refine ⟨(isFinite_div hx hy hpos).mpr (nearestMag_lt_of_between hp hlo hhi (by rw [he]; exact h1) (by rw [he]; exact h2)),
    ?_, ?_⟩
  · rw [toInt_div hx hy hpos]
    exact le_roundInt hp hlo (by rw [he]; exact h1)
  · rw [toInt_div hx hy hpos]
    exact roundInt_le hp hhi (by rw [he]; exact h2)

/-! ### The square root, the floor and Snap -/

/-- `isqrt` is the integer square root wherever its fuel reaches. -/
theorem isqrt_spec (fuel n : Nat) (h : n < 4 ^ fuel) :
    isqrt fuel n * isqrt fuel n ≤ n ∧ n < (isqrt fuel n + 1) * (isqrt fuel n + 1) := by
  induction fuel generalizing n with
  | zero =>
    simp at h
    subst h
    simp [isqrt]
  | succ fuel ih =>
    have hq : n / 4 < 4 ^ fuel := by
      rw [Nat.pow_succ] at h
      omega
    obtain ⟨h1, h2⟩ := ih (n / 4) hq
    simp only [isqrt]
    generalize isqrt fuel (n / 4) = r at *
    have e1 : 2 * r * (2 * r) = 4 * (r * r) := by ring
    have e2 : (2 * r + 1 + 1) * (2 * r + 1 + 1) = 4 * ((r + 1) * (r + 1)) := by ring
    split
    · exact ⟨by assumption, by omega⟩
    · exact ⟨by omega, by omega⟩

/-- The magnitude of a root is monotone under a square that bounds the number from above. -/
theorem sqrtMag_le {u m : Nat} (hu : u < 2 ^ 277) (h : u * 2 ^ 149 ≤ units m * units m) : sqrtMag u ≤ m := by
  have hb : u * 2 ^ 149 < 4 ^ 214 := by
    calc u * 2 ^ 149 < 2 ^ 277 * 2 ^ 149 := Nat.mul_lt_mul_of_pos_right hu (by positivity)
      _ ≤ 4 ^ 214 := by decide +kernel
  obtain ⟨h1, h2⟩ := isqrt_spec 214 _ hb
  unfold sqrtMag
  simp only
  generalize u * 2 ^ 149 = n at *
  generalize isqrt 214 n = r at *
  refine (min_le_right _ _).trans (nearestMag_le (by norm_num) ?_)
  have hr : r ≤ units m := by
    by_contra hc
    have : units m * units m < r * r := Nat.mul_self_lt_mul_self (by omega)
    omega
  split
  · omega
  · rename_i hne
    have : r < units m := by
      rcases Nat.lt_or_ge r (units m) with hlt | hge
      · exact hlt
      · exfalso
        have : r = units m := by omega
        subst this
        omega
    omega

/-- The magnitude of a root is at least that of a number whose square is below. -/
theorem le_sqrtMag {u m : Nat} (hu : u < 2 ^ 277) (hm : m ≤ infMag) (h : units m * units m ≤ u * 2 ^ 149) :
    m ≤ sqrtMag u := by
  have hb : u * 2 ^ 149 < 4 ^ 214 := by
    calc u * 2 ^ 149 < 2 ^ 277 * 2 ^ 149 := Nat.mul_lt_mul_of_pos_right hu (by positivity)
      _ ≤ 4 ^ 214 := by decide +kernel
  obtain ⟨h1, h2⟩ := isqrt_spec 214 _ hb
  unfold sqrtMag
  simp only
  generalize u * 2 ^ 149 = n at *
  generalize isqrt 214 n = r at *
  refine le_min hm (le_nearestMag (by norm_num) ?_)
  have hr : units m ≤ r := by
    by_contra hc
    have : (r + 1) * (r + 1) ≤ units m * units m := Nat.mul_self_le_mul_self (by omega)
    omega
  omega

/-- A finite magnitude is below 2^277 units. -/
theorem units_lt_of_finite {m : Nat} (h : m < infMag) : units m < 2 ^ 277 := by
  have : units m < units infMag := units_lt_iff.mpr h
  have e : units infMag = 2 ^ 277 := by decide +kernel
  omega

/-- `Snap` of a finite number is the number or +0.0 (R11). -/
theorem snap_cases (fl v : F32) : snap fl v = zero ∨ snap fl v = v := by
  unfold snap
  split
  · exact .inl rfl
  · exact .inr rfl

/-- `Snap` keeps every range that contains zero. -/
theorem snap_between {fl v lo hi : F32} (h0 : toInt lo ≤ 0) (h1 : 0 ≤ toInt hi)
    (h : isFinite v = true ∧ toInt lo ≤ toInt v ∧ toInt v ≤ toInt hi) :
    isFinite (snap fl v) = true ∧ toInt lo ≤ toInt (snap fl v) ∧ toInt (snap fl v) ≤ toInt hi := by
  rcases snap_cases fl v with hs | hs
  · rw [hs]
    exact ⟨by decide, by simpa [toInt, zero, mag] using h0, by simpa [toInt, zero, mag] using h1⟩
  · rw [hs]
    exact h

/-- The floor of a finite number (R9). -/
theorem floorInt_of_finite {x : F32} (h : isFinite x = true) : floorInt x = toInt x / 2 ^ 149 := by
  unfold floorInt
  rw [h, if_pos rfl]

/-- The values of the constants. -/
@[simp] theorem toInt_zero : toInt zero = 0 := by decide
@[simp] theorem toInt_one : toInt one = 2 ^ 149 := by decide +kernel
@[simp] theorem toInt_negOne : toInt negOne = -2 ^ 149 := by decide +kernel

end Sys2Proof.Machine.Fp
end

