-- ==== Sys2Proof/Laws/Ranges.lean ====
section
/-!
SUPPORT. Ranges that binary32 expressions keep although they round (spec/42_sample_command.md R86): products by a factor in
[0, 1], one step of a one-pole filter toward an input, and sums that stay below a power of two.
-/

namespace Sys2Proof.Machine.Fp

-- One theorem at a time: many at once ask for more threads than the memory limit of a check allows.
set_option Elab.async false

/-- A finite number whose value, in units of 2^-149, lies between two integers. -/
structure In (lo hi : Int) (x : F32) : Prop where
  finite : isFinite x = true
  lower : lo ≤ toInt x
  upper : toInt x ≤ hi

theorem In.mono {lo hi lo' hi' : Int} {x : F32} (h : In lo hi x) (hl : lo' ≤ lo) (hu : hi ≤ hi') : In lo' hi' x :=
  ⟨h.finite, hl.trans h.lower, h.upper.trans hu⟩

/-- A range between two finite numbers is a range of values. -/
theorem in_of_within {lo hi v : F32} (hlo : isFinite lo = true) (hhi : isFinite hi = true)
    (h : (le lo v && le v hi) = true) : In (toInt lo) (toInt hi) v :=
  let ⟨a, b, c⟩ := (within_iff hlo hhi).mp h
  ⟨a, b, c⟩

theorem within_of_in {lo hi v : F32} (hlo : isFinite lo = true) (hhi : isFinite hi = true)
    (h : In (toInt lo) (toInt hi) v) : (le lo v && le v hi) = true :=
  (within_iff hlo hhi).mpr ⟨h.finite, h.lower, h.upper⟩

theorem isFinite_zero : isFinite zero = true := by decide
theorem isFinite_one : isFinite one = true := by decide
theorem isFinite_negOne : isFinite negOne = true := by decide

theorem in_zero {lo hi : Int} (hl : lo ≤ 0) (hu : 0 ≤ hi) : In lo hi zero :=
  ⟨isFinite_zero, by rw [toInt_zero]; exact hl, by rw [toInt_zero]; exact hu⟩

/-- `Snap` keeps every range that contains zero (R11). -/
theorem In.snap {lo hi : Int} {fl v : F32} (h : In lo hi v) (hl : lo ≤ 0) (hu : 0 ≤ hi) : In lo hi (snap fl v) := by
  rcases snap_cases fl v with e | e
  · rw [e]
    exact in_zero hl hu
  · rw [e]
    exact h

theorem In.neg {lo hi : Int} {x : F32} (h : In lo hi x) : In (-hi) (-lo) (neg x) :=
  ⟨by rw [isFinite_neg]; exact h.finite, by have := h.upper; rw [toInt_neg]; omega,
    by have := h.lower; rw [toInt_neg]; omega⟩

/-- A product by a factor in [0, 1] lies between zero and the other operand. -/
theorem mul_unit {a x : F32} (ha : In 0 (2 ^ 149) a) (hx : isFinite x = true) :
    In (Min.min 0 (toInt x)) (Max.max 0 (toInt x)) (mul a x) := by
  have hal := ha.lower
  have hau := ha.upper
  rcases le_total 0 (toInt x) with h | h
  · obtain ⟨h1, h2, h3⟩ := mul_between (lo := zero) (hi := x) ha.finite hx isFinite_zero hx
      (by rw [toInt_zero]; nlinarith) (by nlinarith)
    rw [toInt_zero] at h2
    exact ⟨h1, by omega, by omega⟩
  · obtain ⟨h1, h2, h3⟩ := mul_between (lo := x) (hi := zero) ha.finite hx hx isFinite_zero
      (by nlinarith) (by rw [toInt_zero]; nlinarith)
    rw [toInt_zero] at h3
    exact ⟨h1, by omega, by omega⟩

theorem toInt_mul_comm {x y : F32} (hx : isFinite x = true) (hy : isFinite y = true) :
    toInt (mul x y) = toInt (mul y x) ∧ (isFinite (mul x y) = true ↔ isFinite (mul y x) = true) := by
  rw [toInt_mul hx hy, toInt_mul hy hx, isFinite_mul hx hy, isFinite_mul hy hx, mul_comm]
  exact ⟨rfl, Iff.rfl⟩

/-- The same with the factor in [0, 1] on the right. -/
theorem mul_unit_right {a x : F32} (ha : In 0 (2 ^ 149) a) (hx : isFinite x = true) :
    In (Min.min 0 (toInt x)) (Max.max 0 (toInt x)) (mul x a) := by
  obtain ⟨e, f⟩ := toInt_mul_comm hx ha.finite
  have h := mul_unit ha hx
  exact ⟨f.mpr h.finite, by rw [e]; exact h.lower, by rw [e]; exact h.upper⟩

/-! ### Powers of two -/

/-- A positive power of two: `2 ^ (e + 23)` units. -/
structure Pow (B : F32) (e : Nat) : Prop where
  sign : sign B = false
  mag : mag B = (e + 1) * 2 ^ 23
  finite : isFinite B = true

theorem Pow.units {B : F32} {e : Nat} (h : Pow B e) : units (Fp.mag B) = 2 ^ (e + 23) := by
  rw [h.mag, show (e + 1) * 2 ^ 23 = e * 2 ^ 23 + 2 ^ 23 by ring, units_pack le_rfl (by norm_num), ← Nat.pow_add,
    Nat.add_comm]

theorem Pow.toInt {B : F32} {e : Nat} (h : Pow B e) : toInt B = 2 ^ (e + 23) := by
  unfold Fp.toInt
  rw [h.sign, if_neg Bool.false_ne_true, h.units]
  push_cast
  rfl

/-- The next magnitude above a power of two is `2 ^ e` units away. -/
theorem Pow.units_succ {B : F32} {e : Nat} (h : Pow B e) : 2 ^ (e + 23) + 2 ^ e ≤ Fp.units (Fp.mag B + 1) := by
  have h1 := units_succ_ge (Fp.mag B)
  rw [h.units, h.mag, show (e + 1) * 2 ^ 23 / 2 ^ 23 - 1 = e by omega] at h1
  rw [h.mag]
  exact h1

/-- The rounding error of an integer number of units below `2 ^ (e + 23)`. -/
theorem roundInt_err {B : F32} {e : Nat} (hB : Pow B e) (he : 1 ≤ e) {n : Int} (hn : |n| ≤ 2 ^ (e + 23)) :
    2 * |roundInt n 1 - n| ≤ 2 ^ (e - 1) := by
  have hfin := isFinite_iff.mp hB.finite
  have hab : |n| = (n.natAbs : Int) := Int.abs_eq_natAbs n
  have hnat : n.natAbs ≤ 2 ^ (e + 23) := by rw [hab] at hn; exact_mod_cast hn
  have key : 2 * |(units (roundMag n.natAbs 1) : Int) - n.natAbs| ≤ 2 ^ (e - 1) := by
    rcases Nat.lt_or_ge n.natAbs (2 ^ (e + 23)) with h | h
    · have hle : nearestMag n.natAbs 1 ≤ Fp.mag B := nearestMag_le one_pos (by rw [hB.units]; omega)
      obtain ⟨h1, h2⟩ := nearestMag_half_ulp n.natAbs (d := 1) one_pos
      rw [← roundMag_of_lt (lt_of_le_of_lt hle hfin)] at h1 h2
      have hlog : ulpExp n.natAbs 1 ≤ e - 1 := by
        unfold ulpExp
        rw [Nat.div_one]
        rcases Nat.eq_zero_or_pos n.natAbs with h0 | h0
        · rw [h0]
          simp
        · have := (Nat.log2_lt (by omega)).mpr h
          omega
      have hp : 2 ^ ulpExp n.natAbs 1 ≤ 2 ^ (e - 1) := Nat.pow_le_pow_right (by norm_num) hlog
      have e2 : (2 : Int) ^ (e - 1) = ((2 ^ (e - 1) : Nat) : Int) := by push_cast; rfl
      rw [e2]
      rcases le_total (n.natAbs : Int) (units (roundMag n.natAbs 1) : Int) with hc | hc
      · rw [abs_of_nonneg (by omega)]
        omega
      · rw [abs_of_nonpos (by omega)]
        omega
    · have : n.natAbs = units (Fp.mag B) * 1 := by rw [hB.units]; omega
      rw [this, roundMag_of_lt (by rw [nearestMag_units _ one_pos]; exact hfin), nearestMag_units _ one_pos]
      simp
  unfold roundInt
  split
  · have : n = -(n.natAbs : Int) := by omega
    have e3 : -(units (roundMag n.natAbs 1) : Int) - n = -((units (roundMag n.natAbs 1) : Int) - n.natAbs) := by omega
    rw [e3, abs_neg]
    exact key
  · have : n = (n.natAbs : Int) := by omega
    have e3 : (units (roundMag n.natAbs 1) : Int) - n = (units (roundMag n.natAbs 1) : Int) - n.natAbs := by omega
    rw [e3]
    exact key

/-- A sum less than half a unit in the last place past a power of two is at most that power of two. -/
theorem add_le_pow {B x y : F32} {e : Nat} (hB : Pow B e) (he : 1 ≤ e) (hx : isFinite x = true) (hy : isFinite y = true)
    (h0 : 0 ≤ toInt x + toInt y) (h : toInt x + toInt y < 2 ^ (e + 23) + 2 ^ (e - 1)) :
    In 0 (2 ^ (e + 23)) (add x y) := by
  have hfin := isFinite_iff.mp hB.finite
  obtain ⟨k, hk⟩ : ∃ k : Nat, toInt x + toInt y = k := ⟨(toInt x + toInt y).toNat, by omega⟩
  have hs := hB.units_succ
  obtain ⟨e', rfl⟩ : ∃ e', e = e' + 1 := ⟨e - 1, by omega⟩
  have hk' : k < 2 ^ (e' + 1 + 23) + 2 ^ e' := by
    rw [hk, Nat.add_sub_cancel] at h
    exact_mod_cast h
  have hle : nearestMag k 1 ≤ Fp.mag B := by
    refine nearestMag_le_of_lt_mid one_pos ?_
    rw [hB.units]
    have : 2 ^ (e' + 1) = 2 * 2 ^ e' := by ring
    omega
  have hlt : nearestMag (toInt x + toInt y).natAbs 1 < infMag := by
    rw [hk, Int.natAbs_natCast]
    exact lt_of_le_of_lt hle hfin
  refine ⟨(isFinite_add hx hy).mpr hlt, ?_, ?_⟩
  · rw [toInt_add hx hy, hk]
    unfold roundInt
    rw [if_neg (by omega)]
    omega
  · rw [toInt_add hx hy, hk]
    unfold roundInt
    rw [if_neg (by omega), Int.natAbs_natCast, roundMag_of_lt (by rw [hk, Int.natAbs_natCast] at hlt; exact hlt)]
    have := units_le_iff.mpr hle
    rw [hB.units] at this
    exact_mod_cast this

/-- The same on either side of zero. -/
theorem add_abs_le_pow {B x y : F32} {e : Nat} (hB : Pow B e) (he : 1 ≤ e) (hx : isFinite x = true)
    (hy : isFinite y = true) (h : |toInt x + toInt y| < 2 ^ (e + 23) + 2 ^ (e - 1)) :
    In (-2 ^ (e + 23)) (2 ^ (e + 23)) (add x y) := by
  rcases le_total 0 (toInt x + toInt y) with h0 | h0
  · rw [abs_of_nonneg h0] at h
    have hp : (0 : Int) < 2 ^ (e + 23) := by positivity
    exact (add_le_pow hB he hx hy h0 h).mono (by omega) le_rfl
  · rw [abs_of_nonpos h0] at h
    have hx' : isFinite (neg x) = true := by rw [isFinite_neg]; exact hx
    have hy' : isFinite (neg y) = true := by rw [isFinite_neg]; exact hy
    have hp : (0 : Int) < 2 ^ (e + 23) := by positivity
    have hn : toInt (neg x) + toInt (neg y) = -(toInt x + toInt y) := by rw [toInt_neg, toInt_neg]; ring
    have := add_le_pow hB he hx' hy' (by rw [hn]; omega) (by rw [hn]; exact h)
    have hi : toInt (add (neg x) (neg y)) = -toInt (add x y) := by
      rw [toInt_add hx' hy', hn, roundInt_neg, toInt_add hx hy]
    have hf : isFinite (add x y) = true := by
      rw [isFinite_add hx hy, ← Int.natAbs_neg, ← hn, ← isFinite_add hx' hy']
      exact this.finite
    have h1 := this.lower
    have h2 := this.upper
    rw [hi] at h1 h2
    exact ⟨hf, by omega, by omega⟩

/-- One step of a filter from `S` toward `x` by a move `p` between zero and the rounded difference stays in the range of both,
where that range is from zero to a power of two. -/
theorem step_toward {B S x p : F32} {e : Nat} (hB : Pow B e) (he : 1 ≤ e) (hS : In 0 (2 ^ (e + 23)) S)
    (hx : In 0 (2 ^ (e + 23)) x) (hp : In (Min.min 0 (toInt (sub x S))) (Max.max 0 (toInt (sub x S))) p) :
    In 0 (2 ^ (e + 23)) (add S p) := by
  have s0 := hS.lower
  have s1 := hS.upper
  have x0 := hx.lower
  have x1 := hx.upper
  have p0 := hp.lower
  have p1 := hp.upper
  obtain ⟨-, d0, -⟩ := sub_between (lo := neg S) (hi := x) hx.finite hS.finite (by rw [isFinite_neg]; exact hS.finite)
    hx.finite (by rw [toInt_neg]; omega) (by omega)
  rw [toInt_neg] at d0
  have herr := roundInt_err hB he (n := toInt x - toInt S) (by rw [abs_le]; omega)
  rw [← toInt_sub hx.finite hS.finite] at herr
  obtain ⟨hl, hu⟩ := abs_le.mp (show |toInt (sub x S) - (toInt x - toInt S)| ≤ 2 ^ (e - 1) / 2 by omega)
  have hpos : (0 : Int) < 2 ^ (e - 1) := by positivity
  exact add_le_pow hB he hS.finite hp.finite (by omega) (by omega)

/-- One step of a one-pole filter, `S + a * (x - S)` with a coefficient in [0, 1]. -/
theorem filter_step {B S x a : F32} {e : Nat} (hB : Pow B e) (he : 1 ≤ e) (hS : In 0 (2 ^ (e + 23)) S)
    (hx : In 0 (2 ^ (e + 23)) x) (ha : In 0 (2 ^ 149) a) : In 0 (2 ^ (e + 23)) (add S (mul a (sub x S))) := by
  have hf : isFinite (sub x S) = true := by
    have s0 := hS.lower
    have x0 := hx.lower
    exact (sub_between (lo := neg S) (hi := x) hx.finite hS.finite (by rw [isFinite_neg]; exact hS.finite) hx.finite
      (by rw [toInt_neg]; omega) (by omega)).1
  exact step_toward hB he hS hx (mul_unit ha hf)

theorem pow_one : Pow one 126 := ⟨by decide, by decide, by decide⟩
theorem pow_two : Pow 0x40000000#32 127 := ⟨by decide, by decide, by decide⟩
theorem pow_fifteen : Pow 0x47000000#32 141 := ⟨by decide, by decide, by decide⟩
theorem pow_fortytwo : Pow 0x54800000#32 168 := ⟨by decide, by decide, by decide⟩

/-- Twice a binary32 magnitude is one, below the overflow. -/
theorem exists_units_mul_pow (m j : Nat) : ∃ m', units m' = units m * 2 ^ j := by
  induction j with
  | zero => exact ⟨m, by simp⟩
  | succ j ih =>
    obtain ⟨m', h⟩ := ih
    have hs : units m * 2 ^ (j + 1) = units m' * 2 := by rw [h]; ring
    rw [hs]
    rcases Nat.lt_or_ge m' (2 ^ 23) with hlt | hge
    · rw [units_of_lt hlt]
      refine ⟨2 * m', ?_⟩
      rcases Nat.lt_or_ge (2 * m') (2 ^ 23) with h2 | h2
      · rw [units_of_lt h2]
        omega
      · have := units_pack (e := 0) h2 (by omega)
        simpa [Nat.mul_comm] using this
    · refine ⟨m' + 2 ^ 23, ?_⟩
      rw [units_of_ge (by omega), units_of_ge hge]
      have e1 : (m' + 2 ^ 23) % 2 ^ 23 = m' % 2 ^ 23 := by omega
      have e2 : (m' + 2 ^ 23) / 2 ^ 23 - 1 = (m' / 2 ^ 23 - 1) + 1 := by omega
      rw [e1, e2]
      ring

/-- A finite number times a power of two is a finite number, below 2^277 units. -/
theorem exists_scaled {x : F32} (j : Nat) (h : |toInt x| * 2 ^ j < 2 ^ 277) :
    ∃ y : F32, isFinite y = true ∧ toInt y = toInt x * 2 ^ j := by
  obtain ⟨m', hm⟩ := exists_units_mul_pow (mag x) j
  have hb : units m' < 2 ^ 277 := by
    have : |toInt x| = (units (mag x) : Int) := by
      unfold toInt
      split <;> simp
    rw [this] at h
    rw [hm]
    exact_mod_cast h
  have hlt : m' < infMag := units_lt_iff.mp (lt_of_lt_of_le hb (by decide +kernel))
  have h31 : m' < 2 ^ 31 := hlt.trans (by decide)
  refine ⟨ofMag (sign x) m', by rw [isFinite_iff, mag_ofMag _ h31]; exact hlt, ?_⟩
  unfold toInt
  rw [mag_ofMag _ h31, sign_ofMag _ h31, hm]
  cases sign x <;> simp

end Sys2Proof.Machine.Fp
end

