-- ==== Sys2Proof/Laws/ElementaryRanges.lean ====
section
/-!
SUPPORT. The ranges of the elementary functions (spec/00_scope.md R13, R14), which hold whatever their enclosures decide:
`Sin2Pi` is in [-1, 1], and `MidiToHz` of a pitch HCB can hold is finite and not negative.
-/

namespace Sys2Proof.Machine.Fp

-- One theorem at a time: many at once ask for more threads than the memory limit of a check allows.
set_option Elab.async false

/-- The result of `settle` is a lower bound's rounding at one of the three precisions. -/
theorem settle_cases (b : Nat → F32 × F32) : settle b = (b 96).1 ∨ settle b = (b 192).1 ∨ settle b = (b 384).1 := by
  unfold settle
  split
  · exact .inl rfl
  · split
    · exact .inr (.inl rfl)
    · exact .inr (.inr rfl)

/-- A fraction of at most `m` units in magnitude rounds to at most `m` units. -/
theorem round_in {s : Bool} {n d m : Nat} (hd : 0 < d) (hm : m < infMag) (h : n ≤ units m * d) :
    In (-(units m)) (units m) (round s n d) := by
  have hle := nearestMag_le hd h
  have hlt : nearestMag n d < infMag := lt_of_le_of_lt hle hm
  have hu := units_le_iff.mpr hle
  rw [← roundMag_of_lt hlt] at hu
  refine ⟨isFinite_round.mpr hlt, ?_, ?_⟩ <;> rw [toInt_round] <;> split <;> omega

theorem units_mag_one : units (mag one) = 2 ^ 149 := by decide +kernel

/-- `Sin2Pi` of any finite phase is in [-1, 1]. -/
theorem sin2Pi_in {x : F32} (hx : isFinite x = true) : In (-2 ^ 149) (2 ^ 149) (sin2Pi x) := by
  have hb : ∀ (s : Bool) (w p : Nat), In (-2 ^ 149) (2 ^ 149) (sin2PiBounds s w p).1 := by
    intro s w p
    have hd : 0 < 2 ^ p * 2 ^ p := by positivity
    have := round_in (s := s) (n := Nat.min (2 * w * (piBounds p).1 *
      (sinBounds p ((2 * (piBounds p).1 * w / 2 ^ 149) * (2 * (piBounds p).1 * w / 2 ^ 149) / 2 ^ p)
        (ceilDiv (ceilDiv (2 * (piBounds p).2 * w) (2 ^ 149) * ceilDiv (2 * (piBounds p).2 * w) (2 ^ 149)) (2 ^ p))
        (terms p) 1).1) (2 ^ 149 * (2 ^ p * 2 ^ p))) (d := 2 ^ p * 2 ^ p) (m := mag one) hd (by decide)
      (by rw [units_mag_one]; exact Nat.min_le_right _ _)
    rw [units_mag_one] at this
    exact_mod_cast this
  unfold sin2Pi
  rw [if_pos hx]
  simp only
  split
  · exact in_zero (by norm_num) (by norm_num)
  · rcases settle_cases (sin2PiBounds (sign x != decide (2 ^ 148 < units (mag x) % 2 ^ 149))
      (if units (mag x) % 2 ^ 149 % 2 ^ 148 ≤ 2 ^ 147 then units (mag x) % 2 ^ 149 % 2 ^ 148
        else 2 ^ 148 - units (mag x) % 2 ^ 149 % 2 ^ 148)) with h | h | h <;> rw [h] <;> exact hb _ _ _

/-- A series for the exponential of a fraction at most 1 stays at or below 2 from its second term on. -/
theorem expLo_le_two {p z : Nat} (hz : z ≤ 2 ^ p) (n k : Nat) (hk : 2 ≤ k) : expLo p z n k ≤ 2 * 2 ^ p := by
  induction n generalizing k with
  | zero =>
    simp only [expLo]
    omega
  | succ n ih =>
    simp only [expLo]
    have h := ih (k + 1) (by omega)
    have hpos : 0 < 2 ^ p := by positivity
    have : z * expLo p z n (k + 1) / (k * 2 ^ p) ≤ 2 ^ p := by
      refine Nat.div_le_of_le_mul ?_
      calc z * expLo p z n (k + 1) ≤ 2 ^ p * (2 * 2 ^ p) := Nat.mul_le_mul hz h
        _ = 2 * 2 ^ p * 2 ^ p := by ring
        _ ≤ k * 2 ^ p * 2 ^ p := Nat.mul_le_mul_right _ (Nat.mul_le_mul_right _ hk)
    omega

theorem expLo_le_three {p z : Nat} (hz : z ≤ 2 ^ p) (n : Nat) : expLo p z n 1 ≤ 3 * 2 ^ p := by
  cases n with
  | zero =>
    simp only [expLo]
    omega
  | succ n =>
    simp only [expLo]
    have h := expLo_le_two hz n 2 le_rfl
    have : z * expLo p z n (1 + 1) / (1 * 2 ^ p) ≤ 2 * 2 ^ p := by
      refine Nat.div_le_of_le_mul ?_
      rw [Nat.one_mul]
      exact Nat.mul_le_mul hz h
    omega

/-- At most three times 440 Hz, up to twenty octaves up, is below 2^33 Hz. -/
theorem roundOctave_in {p e : Nat} {k : Int} (he : e ≤ 3 * 2 ^ p) (hk : k ≤ 20) :
    In 0 (2 ^ 182) (roundOctave p k e) := by
  have hu : units (mag 0x50000000#32) = 2 ^ 182 := by decide +kernel
  have hd : 0 < 2 ^ p * 2 ^ (-k).toNat := by positivity
  have hle : 440 * e * 2 ^ k.toNat * 2 ^ 149 ≤ units (mag 0x50000000#32) * (2 ^ p * 2 ^ (-k).toNat) := by
    rw [hu]
    have h1 : 2 ^ k.toNat ≤ 2 ^ 20 := Nat.pow_le_pow_right (by norm_num) (by omega)
    have h2 : 1 ≤ 2 ^ (-k).toNat := Nat.one_le_two_pow
    calc 440 * e * 2 ^ k.toNat * 2 ^ 149 ≤ 440 * (3 * 2 ^ p) * 2 ^ 20 * 2 ^ 149 := by gcongr
      _ = 440 * 3 * 2 ^ 20 * 2 ^ 149 * (2 ^ p * 1) := by ring
      _ ≤ 2 ^ 182 * (2 ^ p * 2 ^ (-k).toNat) := Nat.mul_le_mul (by norm_num) (Nat.mul_le_mul_left _ h2)
  have := round_in (s := false) hd (by decide) hle
  rw [hu] at this
  refine ⟨this.finite, ?_, by exact_mod_cast this.upper⟩
  unfold roundOctave
  rw [toInt_round]
  simp

/-- `MidiToHz` of a pitch of at most 260 is finite and not negative. -/
theorem midiToHz_in {m : F32} (h : In (-(260 * 2 ^ 149)) (260 * 2 ^ 149) m) : In 0 (2 ^ 182) (midiToHz m) := by
  have hlt := Int.emod_lt_of_pos (toInt m - 69 * 2 ^ 149) (show (0 : Int) < 12 * 2 ^ 149 by norm_num)
  have hge := Int.emod_nonneg (toInt m - 69 * 2 ^ 149) (show (12 * 2 ^ 149 : Int) ≠ 0 by norm_num)
  have hk : (toInt m - 69 * 2 ^ 149) / (12 * 2 ^ 149) ≤ 20 := by
    have := h.upper
    omega
  unfold midiToHz
  rw [if_pos h.finite]
  simp only
  generalize (toInt m - 69 * 2 ^ 149) / (12 * 2 ^ 149) = k at *
  have hb : ((toInt m - 69 * 2 ^ 149) % (12 * 2 ^ 149)).toNat < 12 * 2 ^ 149 := by omega
  generalize ((toInt m - 69 * 2 ^ 149) % (12 * 2 ^ 149)).toNat = b at *
  have hc : ∀ p, (ln2Bounds p).1 ≤ 2 ^ p → In 0 (2 ^ 182) (midiToHzBounds k b p).1 := by
    intro p hp
    refine roundOctave_in (expLo_le_three ?_ _) hk
    refine Nat.div_le_of_le_mul ?_
    calc b * (ln2Bounds p).1 ≤ 12 * 2 ^ 149 * 2 ^ p := Nat.mul_le_mul hb.le hp
      _ = 12 * 2 ^ 149 * 2 ^ p := rfl
  rw [if_neg (by omega)]
  split
  · exact in_zero le_rfl (by norm_num)
  · split
    · exact roundOctave_in (by norm_num) hk
    · rcases settle_cases (midiToHzBounds k b) with e | e | e <;> rw [e]
      · exact hc 96 (by decide +kernel)
      · exact hc 192 (by decide +kernel)
      · exact hc 384 (by decide +kernel)

end Sys2Proof.Machine.Fp
end

