-- ==== Sys2Proof/Laws/State.lean ====
section
/-!
SUPPORT. One lemma per field per update of State, so that no proof unfolds a record update: the response port, STATUS, the
register writes, the resets and the port events. An update's own field is given where it is an equation; every other field
is unchanged.
-/

namespace Sys2Proof.Machine

/-! ### The response port -/

@[simp] theorem State.answer_cfg (s : State) (w : Word) : (s.answer w).cfg = s.cfg := rfl
@[simp] theorem State.answer_kraw (s : State) (w : Word) : (s.answer w).kraw = s.kraw := rfl
@[simp] theorem State.answer_ks (s : State) (w : Word) : (s.answer w).ks = s.ks := rfl
@[simp] theorem State.answer_drv (s : State) (w : Word) : (s.answer w).drv = s.drv := rfl
@[simp] theorem State.answer_det (s : State) (w : Word) : (s.answer w).det = s.det := rfl
@[simp] theorem State.answer_env (s : State) (w : Word) : (s.answer w).env = s.env := rfl
@[simp] theorem State.answer_quant (s : State) (w : Word) : (s.answer w).quant = s.quant := rfl
@[simp] theorem State.answer_voice (s : State) (w : Word) : (s.answer w).voice = s.voice := rfl
@[simp] theorem State.answer_locked (s : State) (w : Word) : (s.answer w).locked = s.locked := rfl
@[simp] theorem State.answer_xLast (s : State) (w : Word) : (s.answer w).xLast = s.xLast := rfl
@[simp] theorem State.answer_yOut (s : State) (w : Word) : (s.answer w).yOut = s.yOut := rfl
@[simp] theorem State.answer_status (s : State) (w : Word) : (s.answer w).status = s.status := rfl
@[simp] theorem State.answer_table (s : State) (w : Word) : (s.answer w).table = s.table := rfl
@[simp] theorem State.answer_response (s : State) (w : Word) : (s.answer w).response = some ⟨w, false⟩ := rfl
@[simp] theorem State.answer_inbox (s : State) (w : Word) : (s.answer w).inbox = s.inbox := rfl
@[simp] theorem State.answer_pos (s : State) (w : Word) : (s.answer w).pos = s.pos := rfl

/-! ### STATUS -/

@[simp] theorem State.raise_cfg (s : State) (b : StatusBit) : (s.raise b).cfg = s.cfg := rfl
@[simp] theorem State.raise_kraw (s : State) (b : StatusBit) : (s.raise b).kraw = s.kraw := rfl
@[simp] theorem State.raise_ks (s : State) (b : StatusBit) : (s.raise b).ks = s.ks := rfl
@[simp] theorem State.raise_drv (s : State) (b : StatusBit) : (s.raise b).drv = s.drv := rfl
@[simp] theorem State.raise_det (s : State) (b : StatusBit) : (s.raise b).det = s.det := rfl
@[simp] theorem State.raise_env (s : State) (b : StatusBit) : (s.raise b).env = s.env := rfl
@[simp] theorem State.raise_quant (s : State) (b : StatusBit) : (s.raise b).quant = s.quant := rfl
@[simp] theorem State.raise_voice (s : State) (b : StatusBit) : (s.raise b).voice = s.voice := rfl
@[simp] theorem State.raise_locked (s : State) (b : StatusBit) : (s.raise b).locked = s.locked := rfl
@[simp] theorem State.raise_xLast (s : State) (b : StatusBit) : (s.raise b).xLast = s.xLast := rfl
@[simp] theorem State.raise_yOut (s : State) (b : StatusBit) : (s.raise b).yOut = s.yOut := rfl
@[simp] theorem State.raise_status (s : State) (b : StatusBit) : (s.raise b).status = s.status ||| b.mask := rfl
@[simp] theorem State.raise_table (s : State) (b : StatusBit) : (s.raise b).table = s.table := rfl
@[simp] theorem State.raise_response (s : State) (b : StatusBit) : (s.raise b).response = s.response := rfl
@[simp] theorem State.raise_inbox (s : State) (b : StatusBit) : (s.raise b).inbox = s.inbox := rfl
@[simp] theorem State.raise_pos (s : State) (b : StatusBit) : (s.raise b).pos = s.pos := rfl

@[simp] theorem State.raiseIf_cfg (s : State) (c : Bool) (b : StatusBit) : (s.raiseIf c b).cfg = s.cfg := by cases c <;> rfl
@[simp] theorem State.raiseIf_kraw (s : State) (c : Bool) (b : StatusBit) : (s.raiseIf c b).kraw = s.kraw := by cases c <;> rfl
@[simp] theorem State.raiseIf_ks (s : State) (c : Bool) (b : StatusBit) : (s.raiseIf c b).ks = s.ks := by cases c <;> rfl
@[simp] theorem State.raiseIf_drv (s : State) (c : Bool) (b : StatusBit) : (s.raiseIf c b).drv = s.drv := by cases c <;> rfl
@[simp] theorem State.raiseIf_det (s : State) (c : Bool) (b : StatusBit) : (s.raiseIf c b).det = s.det := by cases c <;> rfl
@[simp] theorem State.raiseIf_env (s : State) (c : Bool) (b : StatusBit) : (s.raiseIf c b).env = s.env := by cases c <;> rfl
@[simp] theorem State.raiseIf_quant (s : State) (c : Bool) (b : StatusBit) : (s.raiseIf c b).quant = s.quant := by cases c <;> rfl
@[simp] theorem State.raiseIf_voice (s : State) (c : Bool) (b : StatusBit) : (s.raiseIf c b).voice = s.voice := by cases c <;> rfl
@[simp] theorem State.raiseIf_locked (s : State) (c : Bool) (b : StatusBit) : (s.raiseIf c b).locked = s.locked := by cases c <;> rfl
@[simp] theorem State.raiseIf_xLast (s : State) (c : Bool) (b : StatusBit) : (s.raiseIf c b).xLast = s.xLast := by cases c <;> rfl
@[simp] theorem State.raiseIf_yOut (s : State) (c : Bool) (b : StatusBit) : (s.raiseIf c b).yOut = s.yOut := by cases c <;> rfl
@[simp] theorem State.raiseIf_status (s : State) (c : Bool) (b : StatusBit) : (s.raiseIf c b).status = if c then s.status ||| b.mask else s.status := by cases c <;> rfl
@[simp] theorem State.raiseIf_table (s : State) (c : Bool) (b : StatusBit) : (s.raiseIf c b).table = s.table := by cases c <;> rfl
@[simp] theorem State.raiseIf_response (s : State) (c : Bool) (b : StatusBit) : (s.raiseIf c b).response = s.response := by cases c <;> rfl
@[simp] theorem State.raiseIf_inbox (s : State) (c : Bool) (b : StatusBit) : (s.raiseIf c b).inbox = s.inbox := by cases c <;> rfl
@[simp] theorem State.raiseIf_pos (s : State) (c : Bool) (b : StatusBit) : (s.raiseIf c b).pos = s.pos := by cases c <;> rfl

@[simp] theorem State.clearStatus_cfg (s : State) (w : Word) : (s.clearStatus w).cfg = s.cfg := rfl
@[simp] theorem State.clearStatus_kraw (s : State) (w : Word) : (s.clearStatus w).kraw = s.kraw := rfl
@[simp] theorem State.clearStatus_ks (s : State) (w : Word) : (s.clearStatus w).ks = s.ks := rfl
@[simp] theorem State.clearStatus_drv (s : State) (w : Word) : (s.clearStatus w).drv = s.drv := rfl
@[simp] theorem State.clearStatus_det (s : State) (w : Word) : (s.clearStatus w).det = s.det := rfl
@[simp] theorem State.clearStatus_env (s : State) (w : Word) : (s.clearStatus w).env = s.env := rfl
@[simp] theorem State.clearStatus_quant (s : State) (w : Word) : (s.clearStatus w).quant = s.quant := rfl
@[simp] theorem State.clearStatus_voice (s : State) (w : Word) : (s.clearStatus w).voice = s.voice := rfl
@[simp] theorem State.clearStatus_locked (s : State) (w : Word) : (s.clearStatus w).locked = s.locked := rfl
@[simp] theorem State.clearStatus_xLast (s : State) (w : Word) : (s.clearStatus w).xLast = s.xLast := rfl
@[simp] theorem State.clearStatus_yOut (s : State) (w : Word) : (s.clearStatus w).yOut = s.yOut := rfl
@[simp] theorem State.clearStatus_status (s : State) (w : Word) : (s.clearStatus w).status = clearedStatus s.status w := rfl
@[simp] theorem State.clearStatus_table (s : State) (w : Word) : (s.clearStatus w).table = s.table := rfl
@[simp] theorem State.clearStatus_response (s : State) (w : Word) : (s.clearStatus w).response = s.response := rfl
@[simp] theorem State.clearStatus_inbox (s : State) (w : Word) : (s.clearStatus w).inbox = s.inbox := rfl
@[simp] theorem State.clearStatus_pos (s : State) (w : Word) : (s.clearStatus w).pos = s.pos := rfl

@[simp] theorem State.takeIll_cfg (s : State) : (s.takeIll).cfg = s.cfg := rfl
@[simp] theorem State.takeIll_kraw (s : State) : (s.takeIll).kraw = s.kraw := rfl
@[simp] theorem State.takeIll_ks (s : State) : (s.takeIll).ks = s.ks := rfl
@[simp] theorem State.takeIll_drv (s : State) : (s.takeIll).drv = s.drv := rfl
@[simp] theorem State.takeIll_det (s : State) : (s.takeIll).det = s.det := rfl
@[simp] theorem State.takeIll_env (s : State) : (s.takeIll).env = s.env := rfl
@[simp] theorem State.takeIll_quant (s : State) : (s.takeIll).quant = s.quant := rfl
@[simp] theorem State.takeIll_voice (s : State) : (s.takeIll).voice = s.voice := rfl
@[simp] theorem State.takeIll_locked (s : State) : (s.takeIll).locked = s.locked := rfl
@[simp] theorem State.takeIll_xLast (s : State) : (s.takeIll).xLast = s.xLast := rfl
@[simp] theorem State.takeIll_yOut (s : State) : (s.takeIll).yOut = s.yOut := rfl
@[simp] theorem State.takeIll_status (s : State) : (s.takeIll).status = s.status ||| StatusBit.ill.mask := rfl
@[simp] theorem State.takeIll_table (s : State) : (s.takeIll).table = s.table := rfl
@[simp] theorem State.takeIll_response (s : State) : (s.takeIll).response = some ⟨0#32, true⟩ := rfl
@[simp] theorem State.takeIll_inbox (s : State) : (s.takeIll).inbox = s.inbox := rfl
@[simp] theorem State.takeIll_pos (s : State) : (s.takeIll).pos = s.pos := rfl

/-! ### Register writes -/

@[simp] theorem State.writeCfg_cfg (s : State) (r : CfgReg) (w : Word) : (s.writeCfg r w).cfg = s.cfg.set r (warlCfg r (s.cfg.get r) w).1 := by simp [State.writeCfg]
@[simp] theorem State.writeCfg_kraw (s : State) (r : CfgReg) (w : Word) : (s.writeCfg r w).kraw = s.kraw := by simp [State.writeCfg]
@[simp] theorem State.writeCfg_ks (s : State) (r : CfgReg) (w : Word) : (s.writeCfg r w).ks = s.ks := by simp [State.writeCfg]
@[simp] theorem State.writeCfg_drv (s : State) (r : CfgReg) (w : Word) : (s.writeCfg r w).drv = s.drv := by simp [State.writeCfg]
@[simp] theorem State.writeCfg_det (s : State) (r : CfgReg) (w : Word) : (s.writeCfg r w).det = s.det := by simp [State.writeCfg]
@[simp] theorem State.writeCfg_env (s : State) (r : CfgReg) (w : Word) : (s.writeCfg r w).env = s.env := by simp [State.writeCfg]
@[simp] theorem State.writeCfg_quant (s : State) (r : CfgReg) (w : Word) : (s.writeCfg r w).quant = s.quant := by simp [State.writeCfg]
@[simp] theorem State.writeCfg_voice (s : State) (r : CfgReg) (w : Word) : (s.writeCfg r w).voice = s.voice := by simp [State.writeCfg]
@[simp] theorem State.writeCfg_locked (s : State) (r : CfgReg) (w : Word) : (s.writeCfg r w).locked = s.locked := by simp [State.writeCfg]
@[simp] theorem State.writeCfg_xLast (s : State) (r : CfgReg) (w : Word) : (s.writeCfg r w).xLast = s.xLast := by simp [State.writeCfg]
@[simp] theorem State.writeCfg_yOut (s : State) (r : CfgReg) (w : Word) : (s.writeCfg r w).yOut = s.yOut := by simp [State.writeCfg]
@[simp] theorem State.writeCfg_table (s : State) (r : CfgReg) (w : Word) : (s.writeCfg r w).table = s.table := by simp [State.writeCfg]
@[simp] theorem State.writeCfg_response (s : State) (r : CfgReg) (w : Word) : (s.writeCfg r w).response = s.response := by simp [State.writeCfg]
@[simp] theorem State.writeCfg_inbox (s : State) (r : CfgReg) (w : Word) : (s.writeCfg r w).inbox = s.inbox := by simp [State.writeCfg]
@[simp] theorem State.writeCfg_pos (s : State) (r : CfgReg) (w : Word) : (s.writeCfg r w).pos = s.pos := by simp [State.writeCfg]

@[simp] theorem State.writeKnob_cfg (s : State) (k : Knob) (w : Word) : (s.writeKnob k w).cfg = s.cfg := by simp [State.writeKnob]
@[simp] theorem State.writeKnob_kraw (s : State) (k : Knob) (w : Word) : (s.writeKnob k w).kraw = s.kraw.set k (warlKnob w).1 := by simp [State.writeKnob]
@[simp] theorem State.writeKnob_ks (s : State) (k : Knob) (w : Word) : (s.writeKnob k w).ks = s.ks := by simp [State.writeKnob]
@[simp] theorem State.writeKnob_drv (s : State) (k : Knob) (w : Word) : (s.writeKnob k w).drv = s.drv := by simp [State.writeKnob]
@[simp] theorem State.writeKnob_det (s : State) (k : Knob) (w : Word) : (s.writeKnob k w).det = s.det := by simp [State.writeKnob]
@[simp] theorem State.writeKnob_env (s : State) (k : Knob) (w : Word) : (s.writeKnob k w).env = s.env := by simp [State.writeKnob]
@[simp] theorem State.writeKnob_quant (s : State) (k : Knob) (w : Word) : (s.writeKnob k w).quant = s.quant := by simp [State.writeKnob]
@[simp] theorem State.writeKnob_voice (s : State) (k : Knob) (w : Word) : (s.writeKnob k w).voice = s.voice := by simp [State.writeKnob]
@[simp] theorem State.writeKnob_locked (s : State) (k : Knob) (w : Word) : (s.writeKnob k w).locked = s.locked := by simp [State.writeKnob]
@[simp] theorem State.writeKnob_xLast (s : State) (k : Knob) (w : Word) : (s.writeKnob k w).xLast = s.xLast := by simp [State.writeKnob]
@[simp] theorem State.writeKnob_yOut (s : State) (k : Knob) (w : Word) : (s.writeKnob k w).yOut = s.yOut := by simp [State.writeKnob]
@[simp] theorem State.writeKnob_table (s : State) (k : Knob) (w : Word) : (s.writeKnob k w).table = s.table := by simp [State.writeKnob]
@[simp] theorem State.writeKnob_response (s : State) (k : Knob) (w : Word) : (s.writeKnob k w).response = s.response := by simp [State.writeKnob]
@[simp] theorem State.writeKnob_inbox (s : State) (k : Knob) (w : Word) : (s.writeKnob k w).inbox = s.inbox := by simp [State.writeKnob]
@[simp] theorem State.writeKnob_pos (s : State) (k : Knob) (w : Word) : (s.writeKnob k w).pos = s.pos := by simp [State.writeKnob]

@[simp] theorem State.writeCfg_status (s : State) (r : CfgReg) (w : Word) :
    (s.writeCfg r w).status =
      if (warlCfg r (s.cfg.get r) w).2 then s.status ||| StatusBit.cfgErr.mask else s.status := by
  simp [State.writeCfg]

@[simp] theorem State.writeKnob_status (s : State) (k : Knob) (w : Word) :
    (s.writeKnob k w).status = if (warlKnob w).2 then s.status ||| StatusBit.kClamp.mask else s.status := by
  simp [State.writeKnob]

/-! ### The two resets -/

@[simp] theorem State.softReset_cfg (s : State) : (s.softReset).cfg = s.cfg := rfl
@[simp] theorem State.softReset_kraw (s : State) : (s.softReset).kraw = s.kraw := rfl
@[simp] theorem State.softReset_ks (s : State) : (s.softReset).ks = Knobs.reset := rfl
@[simp] theorem State.softReset_drv (s : State) : (s.softReset).drv = derive s.cfg Knobs.reset := rfl
@[simp] theorem State.softReset_det (s : State) : (s.softReset).det = Detector.reset := rfl
@[simp] theorem State.softReset_env (s : State) : (s.softReset).env = Envelope.reset := rfl
@[simp] theorem State.softReset_quant (s : State) : (s.softReset).quant = Quant.reset := rfl
@[simp] theorem State.softReset_voice (s : State) : (s.softReset).voice = Voice.reset := rfl
@[simp] theorem State.softReset_locked (s : State) : (s.softReset).locked = false := rfl
@[simp] theorem State.softReset_xLast (s : State) : (s.softReset).xLast = Fp.zero := rfl
@[simp] theorem State.softReset_yOut (s : State) : (s.softReset).yOut = Fp.zero := rfl
@[simp] theorem State.softReset_status (s : State) : (s.softReset).status = s.status := rfl
@[simp] theorem State.softReset_table (s : State) : (s.softReset).table = s.table := rfl
@[simp] theorem State.softReset_response (s : State) : (s.softReset).response = s.response := rfl
@[simp] theorem State.softReset_inbox (s : State) : (s.softReset).inbox = s.inbox := rfl
@[simp] theorem State.softReset_pos (s : State) : (s.softReset).pos = s.pos := rfl

@[simp] theorem State.hardReset_cfg (s : State) : (s.hardReset).cfg = State.reset.cfg := rfl
@[simp] theorem State.hardReset_kraw (s : State) : (s.hardReset).kraw = State.reset.kraw := rfl
@[simp] theorem State.hardReset_ks (s : State) : (s.hardReset).ks = State.reset.ks := rfl
@[simp] theorem State.hardReset_drv (s : State) : (s.hardReset).drv = State.reset.drv := rfl
@[simp] theorem State.hardReset_det (s : State) : (s.hardReset).det = State.reset.det := rfl
@[simp] theorem State.hardReset_env (s : State) : (s.hardReset).env = State.reset.env := rfl
@[simp] theorem State.hardReset_quant (s : State) : (s.hardReset).quant = State.reset.quant := rfl
@[simp] theorem State.hardReset_voice (s : State) : (s.hardReset).voice = State.reset.voice := rfl
@[simp] theorem State.hardReset_locked (s : State) : (s.hardReset).locked = State.reset.locked := rfl
@[simp] theorem State.hardReset_xLast (s : State) : (s.hardReset).xLast = State.reset.xLast := rfl
@[simp] theorem State.hardReset_yOut (s : State) : (s.hardReset).yOut = State.reset.yOut := rfl
@[simp] theorem State.hardReset_status (s : State) : (s.hardReset).status = State.reset.status := rfl
@[simp] theorem State.hardReset_table (s : State) : (s.hardReset).table = State.reset.table := rfl
@[simp] theorem State.hardReset_response (s : State) : (s.hardReset).response = State.reset.response := rfl
@[simp] theorem State.hardReset_inbox (s : State) : (s.hardReset).inbox = s.inbox := rfl
@[simp] theorem State.hardReset_pos (s : State) : (s.hardReset).pos = s.pos := rfl

/-! ### The host's events -/

@[simp] theorem State.takeEvent_cfg (s : State) (l : List HostEvent) : (s.takeEvent l).cfg = s.cfg := rfl
@[simp] theorem State.takeEvent_kraw (s : State) (l : List HostEvent) : (s.takeEvent l).kraw = s.kraw := rfl
@[simp] theorem State.takeEvent_ks (s : State) (l : List HostEvent) : (s.takeEvent l).ks = s.ks := rfl
@[simp] theorem State.takeEvent_drv (s : State) (l : List HostEvent) : (s.takeEvent l).drv = s.drv := rfl
@[simp] theorem State.takeEvent_det (s : State) (l : List HostEvent) : (s.takeEvent l).det = s.det := rfl
@[simp] theorem State.takeEvent_env (s : State) (l : List HostEvent) : (s.takeEvent l).env = s.env := rfl
@[simp] theorem State.takeEvent_quant (s : State) (l : List HostEvent) : (s.takeEvent l).quant = s.quant := rfl
@[simp] theorem State.takeEvent_voice (s : State) (l : List HostEvent) : (s.takeEvent l).voice = s.voice := rfl
@[simp] theorem State.takeEvent_locked (s : State) (l : List HostEvent) : (s.takeEvent l).locked = s.locked := rfl
@[simp] theorem State.takeEvent_xLast (s : State) (l : List HostEvent) : (s.takeEvent l).xLast = s.xLast := rfl
@[simp] theorem State.takeEvent_yOut (s : State) (l : List HostEvent) : (s.takeEvent l).yOut = s.yOut := rfl
@[simp] theorem State.takeEvent_status (s : State) (l : List HostEvent) : (s.takeEvent l).status = s.status := rfl
@[simp] theorem State.takeEvent_table (s : State) (l : List HostEvent) : (s.takeEvent l).table = s.table := rfl
@[simp] theorem State.takeEvent_response (s : State) (l : List HostEvent) : (s.takeEvent l).response = s.response := rfl
@[simp] theorem State.takeEvent_inbox (s : State) (l : List HostEvent) : (s.takeEvent l).inbox = l := rfl
@[simp] theorem State.takeEvent_pos (s : State) (l : List HostEvent) : (s.takeEvent l).pos = s.pos := rfl

@[simp] theorem State.accept_cfg (s : State) (l : List HostEvent) : (s.accept l).cfg = s.cfg := rfl
@[simp] theorem State.accept_kraw (s : State) (l : List HostEvent) : (s.accept l).kraw = s.kraw := rfl
@[simp] theorem State.accept_ks (s : State) (l : List HostEvent) : (s.accept l).ks = s.ks := rfl
@[simp] theorem State.accept_drv (s : State) (l : List HostEvent) : (s.accept l).drv = s.drv := rfl
@[simp] theorem State.accept_det (s : State) (l : List HostEvent) : (s.accept l).det = s.det := rfl
@[simp] theorem State.accept_env (s : State) (l : List HostEvent) : (s.accept l).env = s.env := rfl
@[simp] theorem State.accept_quant (s : State) (l : List HostEvent) : (s.accept l).quant = s.quant := rfl
@[simp] theorem State.accept_voice (s : State) (l : List HostEvent) : (s.accept l).voice = s.voice := rfl
@[simp] theorem State.accept_locked (s : State) (l : List HostEvent) : (s.accept l).locked = s.locked := rfl
@[simp] theorem State.accept_xLast (s : State) (l : List HostEvent) : (s.accept l).xLast = s.xLast := rfl
@[simp] theorem State.accept_yOut (s : State) (l : List HostEvent) : (s.accept l).yOut = s.yOut := rfl
@[simp] theorem State.accept_status (s : State) (l : List HostEvent) : (s.accept l).status = s.status := rfl
@[simp] theorem State.accept_table (s : State) (l : List HostEvent) : (s.accept l).table = s.table := rfl
@[simp] theorem State.accept_response (s : State) (l : List HostEvent) : (s.accept l).response = s.response := rfl
@[simp] theorem State.accept_inbox (s : State) (l : List HostEvent) : (s.accept l).inbox = l := rfl
@[simp] theorem State.accept_pos (s : State) (l : List HostEvent) : (s.accept l).pos = s.pos + 1 := rfl

@[simp] theorem State.withFetchWord_cfg (s : State) (n w : Nat) : (s.withFetchWord n w).cfg = s.cfg := rfl
@[simp] theorem State.withFetchWord_kraw (s : State) (n w : Nat) : (s.withFetchWord n w).kraw = s.kraw := rfl
@[simp] theorem State.withFetchWord_ks (s : State) (n w : Nat) : (s.withFetchWord n w).ks = s.ks := rfl
@[simp] theorem State.withFetchWord_drv (s : State) (n w : Nat) : (s.withFetchWord n w).drv = s.drv := rfl
@[simp] theorem State.withFetchWord_det (s : State) (n w : Nat) : (s.withFetchWord n w).det = s.det := rfl
@[simp] theorem State.withFetchWord_env (s : State) (n w : Nat) : (s.withFetchWord n w).env = s.env := rfl
@[simp] theorem State.withFetchWord_quant (s : State) (n w : Nat) : (s.withFetchWord n w).quant = s.quant := rfl
@[simp] theorem State.withFetchWord_voice (s : State) (n w : Nat) : (s.withFetchWord n w).voice = s.voice := rfl
@[simp] theorem State.withFetchWord_locked (s : State) (n w : Nat) : (s.withFetchWord n w).locked = s.locked := rfl
@[simp] theorem State.withFetchWord_xLast (s : State) (n w : Nat) : (s.withFetchWord n w).xLast = s.xLast := rfl
@[simp] theorem State.withFetchWord_yOut (s : State) (n w : Nat) : (s.withFetchWord n w).yOut = s.yOut := rfl
@[simp] theorem State.withFetchWord_status (s : State) (n w : Nat) : (s.withFetchWord n w).status = s.status := rfl
@[simp] theorem State.withFetchWord_table (s : State) (n w : Nat) : (s.withFetchWord n w).table = s.table := rfl
@[simp] theorem State.withFetchWord_response (s : State) (n w : Nat) : (s.withFetchWord n w).response = s.response := rfl
@[simp] theorem State.withFetchWord_inbox (s : State) (n w : Nat) : (s.withFetchWord n w).inbox = .command (tableTransaction n w) :: s.inbox.tail := rfl
@[simp] theorem State.withFetchWord_pos (s : State) (n w : Nat) : (s.withFetchWord n w).pos = s.pos := rfl

/-! ### Reading back what was written -/

/-- Reading a configuration register just written gives the value written. -/
@[simp] theorem Cfg.get_set_same (c : Cfg) (r : CfgReg) (v : Word) : (c.set r v).get r = v := by cases r <;> rfl

/-- Writing one configuration register leaves every other one alone. -/
theorem Cfg.get_set_other (c : Cfg) (r q : CfgReg) (v : Word) (h : q ≠ r) : (c.set r v).get q = c.get q := by
  cases r <;> cases q <;> first | rfl | exact absurd rfl h

/-- Reading a knob slot just written gives the value written. -/
@[simp] theorem Knobs.get_set_same (n : Knobs) (k : Knob) (v : F32) : (n.set k v).get k = v := by cases k <;> rfl

/-- Writing one knob slot leaves every other one alone. -/
theorem Knobs.get_set_other (n : Knobs) (k j : Knob) (v : F32) (h : j ≠ k) : (n.set k v).get j = n.get j := by
  cases k <;> cases j <;> first | rfl | exact absurd rfl h

/-- Each smoothed knob slot is one smoother step of that slot's smoothed and raw values (R74). -/
@[simp] theorem smoothKnobs_get (c : Cfg) (ks kraw : Knobs) (k : Knob) :
    (smoothKnobs c ks kraw).get k = smoothKnob c (ks.get k) (kraw.get k) := by cases k <;> rfl

/-- Every configuration register is at its default after hardware reset (R22, R136). -/
@[simp] theorem Cfg.reset_get (r : CfgReg) : Cfg.reset.get r = r.default := by cases r <;> rfl

/-- Every knob slot is at +0.0 after reset (R26, R27). -/
@[simp] theorem Knobs.reset_get (k : Knob) : Knobs.reset.get k = Fp.zero := by cases k <;> rfl

end Sys2Proof.Machine
end

