-- ==== Sys2Proof/Laws/Memory.lean ====
section
/-!
SUPPORT. The scale table: a read after a write gives the byte written, a write leaves every other entry alone and keeps the
canonical form, and which entries exist (spec/10_state.md R36; spec/20_memory.md R41).
-/

namespace Sys2Proof.Machine

-- One theorem at a time: many at once ask for more threads than the memory limit of a check allows.
set_option Elab.async false

/-- The table has the entries 0 to 89 (R41). -/
theorem Memory.unlisted_isSome_iff (a : Nat) : (Memory.unlisted a).isSome = true ↔ a < 90 := by
  constructor
  · intro h
    by_contra hn
    have hrow : defaultRows[a / 15]? = none := by
      rw [List.getElem?_eq_none_iff]
      show 6 ≤ a / 15
      omega
    simp [Memory.unlisted, hrow] at h
  · intro h
    have : ∀ a < 90, (Memory.unlisted a).isSome = true := by decide
    exact this a h

/-- A default entry is a note number 0..127 (R36, R37). -/
theorem Memory.unlisted_le {a : Nat} {d : Byte} (h : Memory.unlisted a = some d) : d.toNat ≤ 127 := by
  have ha : a < 90 := (Memory.unlisted_isSome_iff a).mp (by simp [h])
  have : ∀ a < 90, ∀ d ∈ Memory.unlisted a, d.toNat ≤ 127 := by decide +kernel
  exact this a ha d h

/-- Reading answers exactly on the entries that exist. -/
theorem Memory.read_isSome_iff (m : Memory) (a : Nat) : (Memory.read m a).isSome = true ↔ a < 90 := by
  rw [← Memory.unlisted_isSome_iff]
  simp [Memory.read]

/-- An entry that is not listed reads as its default. -/
theorem Memory.read_of_not_listed {m : Memory} {a : Nat} (h : ∀ c ∈ m, c.1 ≠ a) :
    Memory.read m a = Memory.unlisted a := by
  have : List.lookup a m = none := by
    rw [List.lookup_eq_none_iff]
    intro c hc
    simpa [bne_iff_ne] using (h c hc).symm
  simp [Memory.read, this]

/-- Listing a byte: the entries listed after it. -/
theorem Memory.mem_insert {m : Memory} {a : Nat} {b : Byte} {c : Host.Cell} (h : c ∈ Memory.insert m a b) :
    c = (a, b) ∨ c ∈ m := by
  induction m with
  | nil => simpa [Memory.insert] using h
  | cons x m ih =>
    obtain ⟨x1, x2⟩ := x
    simp only [Memory.insert] at h
    split at h
    · simpa using h
    · split at h
      · rcases List.mem_cons.mp h with h | h
        · exact .inl h
        · exact .inr (List.mem_cons_of_mem _ h)
      · rcases List.mem_cons.mp h with h | h
        · exact .inr (by simp [h])
        · rcases ih h with h | h
          · exact .inl h
          · exact .inr (List.mem_cons_of_mem _ h)

/-- Listing keeps the addresses rising. -/
theorem Memory.insert_sorted {m : Memory} (a : Nat) (b : Byte) (h : (m.map Prod.fst).Pairwise (· < ·)) :
    ((Memory.insert m a b).map Prod.fst).Pairwise (· < ·) := by
  induction m with
  | nil => simp [Memory.insert]
  | cons x m ih =>
    obtain ⟨x1, x2⟩ := x
    rw [List.map_cons, List.pairwise_cons] at h
    simp only [Memory.insert]
    split
    · rename_i hlt
      rw [List.map_cons, List.map_cons, List.pairwise_cons]
      refine ⟨?_, List.pairwise_cons.mpr h⟩
      intro y hy
      rcases List.mem_cons.mp hy with rfl | hy
      · exact hlt
      · exact lt_trans hlt (h.1 y hy)
    · split
      · rename_i heq
        rw [List.map_cons, List.pairwise_cons]
        exact ⟨fun y hy => heq ▸ h.1 y hy, h.2⟩
      · rename_i hlt hne
        rw [List.map_cons, List.pairwise_cons]
        refine ⟨fun y hy => ?_, ih h.2⟩
        obtain ⟨c, hc, rfl⟩ := List.mem_map.mp hy
        rcases Memory.mem_insert hc with rfl | hc
        · show x1 < a
          omega
        · exact h.1 _ (List.mem_map_of_mem hc)

/-- Looking an entry up after listing it. -/
theorem Memory.lookup_insert_same (m : Memory) (a : Nat) (b : Byte) : List.lookup a (Memory.insert m a b) = some b := by
  induction m with
  | nil => simp [Memory.insert]
  | cons x m ih =>
    obtain ⟨x1, x2⟩ := x
    simp only [Memory.insert]
    split
    · simp
    · split
      · simp
      · rename_i hne
        have : (a == x1) = false := by simpa using hne
        simp [List.lookup, this, ih]

/-- Looking another entry up after listing one. -/
theorem Memory.lookup_insert_other (m : Memory) {a a' : Nat} (b : Byte) (h : a' ≠ a) :
    List.lookup a' (Memory.insert m a b) = List.lookup a' m := by
  have hb : (a' == a) = false := by simpa using h
  induction m with
  | nil => simp [Memory.insert, List.lookup, hb]
  | cons x m ih =>
    obtain ⟨x1, x2⟩ := x
    simp only [Memory.insert]
    split
    · simp [List.lookup, hb]
    · split
      · rename_i heq
        subst heq
        simp [List.lookup, hb]
      · simp only [List.lookup, ih]

/-- Looking an entry up after removing another. -/
theorem Memory.lookup_filter_other (m : Memory) {a a' : Nat} (h : a' ≠ a) :
    List.lookup a' (m.filter fun c => c.1 ≠ a) = List.lookup a' m := by
  induction m with
  | nil => rfl
  | cons x m ih =>
    obtain ⟨x1, x2⟩ := x
    simp only [ne_eq, decide_not] at ih
    by_cases hx : x1 = a
    · have hb : (a' == a) = false := by simpa using h
      simp [hx, List.lookup, hb, ih]
    · simp [hx, List.lookup, ih]

/-- A read of the entry just written gives the byte written. -/
theorem Memory.read_write_same (m : Memory) {a : Nat} (b : Byte) (h : a < 90) :
    Memory.read (Memory.write m a b) a = some b := by
  obtain ⟨d, hd⟩ := Option.isSome_iff_exists.mp ((Memory.unlisted_isSome_iff a).mpr h)
  simp only [Memory.write, hd]
  split
  · rename_i hb
    rw [Memory.read_of_not_listed (by simp), hd, hb]
  · simp [Memory.read, hd, Memory.lookup_insert_same]

/-- A write leaves every other entry alone. -/
theorem Memory.read_write_other (m : Memory) {a a' : Nat} (b : Byte) (h : a' ≠ a) :
    Memory.read (Memory.write m a b) a' = Memory.read m a' := by
  simp only [Memory.write]
  split
  · rfl
  · split
    · simp only [Memory.read]
      congr 1
      funext d
      rw [Memory.lookup_filter_other m h]
    · simp only [Memory.read, Memory.lookup_insert_other m b h]

/-- Every write keeps the canonical form. -/
theorem Memory.wf_write {m : Memory} (a : Nat) (b : Byte) (h : Memory.wf m) : Memory.wf (Memory.write m a b) := by
  obtain ⟨hs, hc⟩ := h
  simp only [Memory.write]
  split
  · exact ⟨hs, hc⟩
  · rename_i d hd
    split
    · exact ⟨List.Pairwise.sublist (List.Sublist.map _ List.filter_sublist) hs,
        fun c hm => hc c (List.mem_of_mem_filter hm)⟩
    · rename_i hb
      refine ⟨Memory.insert_sorted a b hs, fun c hm => ?_⟩
      rcases Memory.mem_insert hm with rfl | hm
      · simp only [hd, Option.isSome_some, ne_eq, Option.some.injEq, true_and]
        exact fun h => hb h.symm
      · exact hc c hm

/-- A write of a note number keeps every listed entry a note number. -/
theorem Memory.notes_write {m : Memory} (a : Nat) {b : Byte} (hb : b.toNat ≤ 127) (h : ∀ c ∈ m, c.2.toNat ≤ 127) :
    ∀ c ∈ Memory.write m a b, c.2.toNat ≤ 127 := by
  intro c hc
  simp only [Memory.write] at hc
  split at hc
  · exact h c hc
  · split at hc
    · exact h c (List.mem_of_mem_filter hc)
    · rcases Memory.mem_insert hc with rfl | hc
      · exact hb
      · exact h c hc

/-- An entry of a table of note numbers reads as a note number. -/
theorem Memory.read_le {m : Memory} (h : ∀ c ∈ m, c.2.toNat ≤ 127) {a : Nat} {b : Byte}
    (hr : Memory.read m a = some b) : b.toNat ≤ 127 := by
  simp only [Memory.read, Option.map_eq_some_iff] at hr
  obtain ⟨d, hd, rfl⟩ := hr
  cases hl : List.lookup a m with
  | none => simpa [hl] using Memory.unlisted_le hd
  | some b =>
    obtain ⟨l1, l2, hm, _⟩ := List.lookup_eq_some_iff.mp hl
    exact h (a, b) (by simp [hm])

/-- The table after hardware reset lists nothing and has the canonical form. -/
theorem Memory.wf_reset : Memory.wf State.reset.table := by decide

end Sys2Proof.Machine
end

