-- ==== Sys2Proof/Laws/Registers.lean ====
section
/-!
SUPPORT. The register map is a bijection between the registers and the mapped indices of spec/10_state.md R20, and what each
register command's index check comes to.
-/

namespace Sys2Proof

/-- Every configuration register is listed. -/
theorem CfgReg.mem_all (r : CfgReg) : r ∈ CfgReg.all := by cases r <;> decide

/-- Every knob slot is listed. -/
theorem Knob.mem_all (k : Knob) : k ∈ Knob.all := by cases k <;> decide

/-- Every read-only register is listed. -/
theorem RoReg.mem_all (r : RoReg) : r ∈ RoReg.all := by cases r <;> decide

/-- Every register is listed. -/
theorem Reg.mem_all (r : Reg) : r ∈ Reg.all := by
  cases r with
  | cfg r => simp [Reg.all, CfgReg.mem_all]
  | kraw k => simp [Reg.all, Knob.mem_all]
  | ks k => simp [Reg.all, Knob.mem_all]
  | ro r => simp [Reg.all, RoReg.mem_all]
  | status => simp [Reg.all]
  | id => simp [Reg.all]
  | version => simp [Reg.all]

/-- No two listed registers share an index, checked over the whole map. -/
theorem Reg.ofIndex_index_all : ∀ r ∈ Reg.all, Reg.ofIndex r.index = some r := by decide +kernel

/-- The register an index names is the one whose index it is (R20). -/
@[simp] theorem Reg.ofIndex_index (r : Reg) : Reg.ofIndex r.index = some r := Reg.ofIndex_index_all r (Reg.mem_all r)

/-- An index that names a register is that register's index. -/
theorem Reg.index_of_ofIndex {i : Byte} {r : Reg} (h : Reg.ofIndex i = some r) : r.index = i := by
  have := List.find?_some h
  simpa using this

/-- Naming a register and having its index are the same. -/
theorem Reg.ofIndex_eq_some {i : Byte} {r : Reg} : Reg.ofIndex i = some r ↔ r.index = i :=
  ⟨Reg.index_of_ofIndex, fun h => h ▸ Reg.ofIndex_index r⟩

/-- Two registers with one index are the same register. -/
theorem Reg.index_injective {r q : Reg} (h : r.index = q.index) : r = q := by
  have := Reg.ofIndex_index r
  rw [h, Reg.ofIndex_index] at this
  exact (Option.some.inj this).symm

/-- The mapped indices are those R20 lists, and no other. -/
theorem Reg.mapped_iff_all : ∀ n < 256, (Reg.ofIndex (BitVec.ofNat 8 n)).isSome =
    decide (n ≤ 0x1E ∨ (0x20 ≤ n ∧ n ≤ 0x26) ∨ (0x30 ≤ n ∧ n ≤ 0x36) ∨ (0x38 ≤ n ∧ n ≤ 0x3B) ∨
      (0x40 ≤ n ∧ n ≤ 0x56) ∨ n = 0x5F ∨ n = 0x60 ∨ n = 0x61) := by decide +kernel

/-- Two named registers are different when their indices are. -/
theorem CfgReg.index_injective {r q : CfgReg} (h : r.index = q.index) : r = q :=
  Reg.cfg.inj (Reg.index_injective (r := .cfg r) (q := .cfg q) h)

end Sys2Proof
end

