-- ==== Sys2Proof/Laws/Bounds.lean ====
section
/-!
SUPPORT. What each shared operation keeps of the machine invariant (Safety.lean), one lemma per operation: the smoothers, the
derived registers, the stages of SAMPLE, the mix, and the writes.
-/

namespace Sys2Proof.Machine

-- One theorem at a time: many at once ask for more threads than the memory limit of a check allows.
set_option Elab.async false

open Fp

/-! ### Reading the invariant -/

/-- The legal range of an f32 configuration register as a range of values. -/
theorem Cfg.Legal.float {c : Cfg} (h : c.Legal) (r : CfgReg) {lo hi : F32} (hr : r.range = .f32 lo hi)
    (hlo : isFinite lo = true) (hhi : isFinite hi = true) : In (toInt lo) (toInt hi) (c.get r) := by
  have h1 := h r (CfgReg.mem_all r)
  rw [hr] at h1
  exact in_of_within hlo hhi (Bool.and_eq_true_iff.mp h1).1

/-- A legal f32 configuration register does not hold -0.0 (R23). -/
theorem Cfg.Legal.ne_negZero {c : Cfg} (h : c.Legal) (r : CfgReg) {lo hi : F32} (hr : r.range = .f32 lo hi) :
    c.get r ≠ 0x80000000#32 := by
  have h1 := h r (CfgReg.mem_all r)
  rw [hr] at h1
  exact bne_iff_ne.mp (Bool.and_eq_true_iff.mp h1).2

theorem toInt_bits_zero : toInt 0x00000000#32 = 0 := by decide
theorem toInt_bits_one : toInt 0x3F800000#32 = 2 ^ 149 := by decide +kernel

/-- A configuration register with legal range [0, 1]. -/
theorem Cfg.Legal.unit {c : Cfg} (h : c.Legal) (r : CfgReg) (hr : r.range = .f32 0x00000000#32 0x3F800000#32) :
    In 0 (2 ^ 149) (c.get r) := by
  have := h.float r hr (by decide) (by decide)
  rwa [toInt_bits_zero, toInt_bits_one] at this

theorem in_unit {v : F32} (h : within zero one v = true) : In 0 (2 ^ 149) v := by
  have := in_of_within isFinite_zero isFinite_one h
  rwa [toInt_zero, toInt_one] at this

theorem unit_of_in {v : F32} (h : In 0 (2 ^ 149) v) : within zero one v = true :=
  within_of_in isFinite_zero isFinite_one (by rw [toInt_zero, toInt_one]; exact h)

/-- The value range of a `within` between two constants, by their values. -/
theorem in_of_bits {lo hi v : F32} {a b : Int} (h : within lo hi v = true) (hl : isFinite lo = true)
    (hh : isFinite hi = true) (ha : toInt lo = a) (hb : toInt hi = b) : In a b v := by
  subst ha hb
  exact in_of_within hl hh h

theorem bits_of_in {lo hi v : F32} {a b : Int} (h : In a b v) (hl : isFinite lo = true) (hh : isFinite hi = true)
    (ha : toInt lo = a) (hb : toInt hi = b) : within lo hi v = true := by
  subst ha hb
  exact within_of_in hl hh h

theorem toInt_two : toInt 0x40000000#32 = 2 ^ 150 := by decide +kernel
theorem toInt_pow_fifteen : toInt 0x47000000#32 = 2 ^ 164 := by decide +kernel
theorem toInt_neg_pow_fifteen : toInt 0xC7000000#32 = -2 ^ 164 := by decide +kernel
theorem toInt_pow_fortytwo : toInt 0x54800000#32 = 2 ^ 191 := by decide +kernel

/-! ### BLOCK: knobs and derived registers -/

/-- One step of a knob smoother stays in [0, 1] (R27, R74). -/
theorem smoothKnob_unit {c : Cfg} (hc : c.Legal) {ks kraw : F32} (hs : within zero one ks = true)
    (hr : within zero one kraw = true) : within zero one (smoothKnob c ks kraw) = true :=
  unit_of_in ((filter_step pow_one (by norm_num) (in_unit hs) (in_unit hr) (hc.unit .knobCoef rfl)).snap le_rfl
    (by norm_num))

/-- Every knob slot in [0, 1], slot by slot. -/
theorem Knobs.unit_iff (n : Knobs) : n.Unit ↔ ∀ k : Knob, within zero one (n.get k) = true :=
  ⟨fun h k => h k (Knob.mem_all k), fun h k _ => h k⟩

/-- SmoothKnobs keeps every smoothed knob in [0, 1] (R27). -/
theorem smoothKnobs_unit {c : Cfg} (hc : c.Legal) {ks kraw : Knobs} (hs : ks.Unit) (hr : kraw.Unit) :
    (smoothKnobs c ks kraw).Unit := by
  rw [Knobs.unit_iff] at *
  intro k
  rw [smoothKnobs_get]
  exact smoothKnob_unit hc (hs k) (hr k)

theorem Knobs.unit_reset : Knobs.reset.Unit := by decide

/-- The greater of two finite numbers is one of them and at least both. -/
theorem max_in {lo hi : Int} {a b : F32} (ha : In lo hi a) (hb : In lo hi b) :
    In (Max.max (toInt a) (toInt b)) hi (Fp.max a b) := by
  unfold Fp.max
  have h := lt_iff ha.finite hb.finite
  have ha' := ha.upper
  have hb' := hb.upper
  split
  · rename_i hl
    exact ⟨hb.finite, by rw [h] at hl; omega, hb.upper⟩
  · rename_i hl
    exact ⟨ha.finite, by rw [h] at hl; omega, ha.upper⟩

theorem gateOnOf_in {c : Cfg} (hc : c.Legal) {ks : Knobs} (hk : ks.Unit) :
    In (toInt 0x1E3CE508#32) (2 ^ 149) (gateOnOf c ks) := by
  have hg : In 0 (2 ^ 149) ks.gate := in_unit (hk .gate (Knob.mem_all _))
  have hm := hc.float .gateOnMin rfl (by decide) (by decide)
  rw [toInt_bits_one] at hm
  have hmin : (0 : Int) ≤ toInt 0x1E3CE508#32 := by decide +kernel
  have h2 : In 0 (2 ^ 149) (mul ks.gate ks.gate) := by
    have := mul_unit hg hg.finite
    have h0 : 0 ≤ toInt ks.gate := hg.lower
    have h1 : toInt ks.gate ≤ 2 ^ 149 := hg.upper
    exact this.mono (by omega) (by omega)
  have hmax := max_in h2 (hm.mono hmin le_rfl)
  exact hmax.mono (le_max_of_le_right hm.lower) le_rfl

/-- GATE_OFF is at least 0 and below GATE_ON, by far more than a rounding error (R75, R101). -/
theorem gateOffOf_lt {c : Cfg} (hc : c.Legal) {ks : Knobs} (hk : ks.Unit) :
    isFinite (gateOffOf c ks) = true ∧ 0 ≤ toInt (gateOffOf c ks) ∧ toInt (gateOffOf c ks) < toInt (gateOnOf c ks) := by
  have hon := gateOnOf_in hc hk
  have hr := hc.float .gateOffRatio rfl (by decide) (by decide)
  rw [toInt_bits_zero] at hr
  have hru : toInt (c.get .gateOffRatio) * 100 ≤ 2 ^ 149 * 99 + 2 ^ 149 / 1000 := by
    have : toInt 0x3F7D70A4#32 * 100 ≤ 2 ^ 149 * 99 + 2 ^ 149 / 1000 := by decide +kernel
    have := hr.upper
    omega
  have hlo : 2 ^ 60 ≤ toInt (gateOnOf c ks) := by
    have : (2 : Int) ^ 60 ≤ toInt 0x1E3CE508#32 := by decide +kernel
    exact this.trans hon.lower
  have hr1 : In 0 (2 ^ 149) (c.get .gateOffRatio) := hr.mono le_rfl (by decide +kernel)
  have hm := mul_unit_right hr1 hon.finite
  change In _ _ (gateOffOf c ks) at hm
  refine ⟨hm.finite, ?_, ?_⟩
  · have := hm.lower
    omega
  · have hf := (isFinite_mul hon.finite hr1.finite).mp hm.finite
    have hclose := roundInt_close (d := 2 ^ 149) (by positivity) hf
    rw [← toInt_mul hon.finite hr1.finite] at hclose
    change 2 ^ 24 * |toInt (gateOffOf c ks) * _ - _| ≤ _ at hclose
    have hle := (mul_le_mul_of_nonneg_left (le_abs_self (toInt (gateOffOf c ks) * ((2 ^ 149 : Nat) : Int) -
      toInt (gateOnOf c ks) * toInt (c.get .gateOffRatio))) (show (0 : Int) ≤ 2 ^ 24 by norm_num)).trans hclose
    have hp0 : 0 ≤ toInt (gateOnOf c ks) * toInt (c.get .gateOffRatio) := mul_nonneg (by omega) hr.lower
    rw [abs_of_nonneg hp0] at hle
    have hpu : toInt (gateOnOf c ks) * toInt (c.get .gateOffRatio) * 100 ≤
        toInt (gateOnOf c ks) * (2 ^ 149 * 99 + 2 ^ 149 / 1000) := by
      rw [mul_assoc]
      exact mul_le_mul_of_nonneg_left hru (by omega)
    push_cast at hle
    generalize toInt (gateOnOf c ks) * toInt (c.get .gateOffRatio) = P at *
    generalize toInt (gateOnOf c ks) = G at *
    generalize toInt (gateOffOf c ks) = F at *
    clear hclose
    omega

/-- A difference of two numbers in [0, 1] lies between the negated subtrahend and the minuend. -/
theorem sub_unit {a b : F32} {hi : Int} (ha : In 0 hi a) (hb : In 0 hi b) : In (-(toInt b)) (toInt a) (sub a b) := by
  have a0 := ha.lower
  have b0 := hb.lower
  obtain ⟨h1, h2, h3⟩ := sub_between (lo := neg b) (hi := a) ha.finite hb.finite (by rw [isFinite_neg]; exact hb.finite)
    ha.finite (by rw [toInt_neg]; omega) (by omega)
  rw [toInt_neg] at h2
  exact ⟨h1, h2, h3⟩

theorem in_one : In 0 (2 ^ 149) one := ⟨isFinite_one, by rw [toInt_one]; positivity, by rw [toInt_one]⟩

/-- `1 - v` of a number in [0, 1] is in [0, 1]. -/
theorem one_sub_in {v : F32} (h : In 0 (2 ^ 149) v) : In 0 (2 ^ 149) (sub one v) := by
  have h0 := h.lower
  have h1 := h.upper
  obtain ⟨a, b, c⟩ := sub_between (x := one) (y := v) (lo := zero) (hi := one) isFinite_one h.finite isFinite_zero isFinite_one
    (by rw [toInt_zero, toInt_one]; omega) (by rw [toInt_one]; omega)
  rw [toInt_zero] at b
  rw [toInt_one] at c
  exact ⟨a, b, c⟩

/-- GLIDE_C is in [0, 1] (R76). -/
theorem glideCOf_in {c : Cfg} (hc : c.Legal) {ks : Knobs} (hk : ks.Unit) : In 0 (2 ^ 149) (glideCOf c ks) := by
  have hu := one_sub_in (in_unit (hk .glide (Knob.mem_all _)))
  have hmin := hc.unit .glideCMin rfl
  have hmax := hc.unit .glideCMax rfl
  have hw : In 0 (2 ^ 149) (mul (sub one ks.glide) (sub one ks.glide)) := by
    have h0 := hu.lower
    have h1 := hu.upper
    exact (mul_unit hu hu.finite).mono (by rw [min_eq_left h0]) (max_le (by positivity) h1)
  exact step_toward pow_one (by norm_num) hmin hmax (mul_unit_right hw (sub_unit hmax hmin).finite)

/-- SCALE_IDX is the floor of `KS_SCALE * SCALE_MUL`, at most 5 (R77). -/
theorem scaleIdxOf_spec {c : Cfg} (hc : c.Legal) {ks : Knobs} (hk : ks.Unit) :
    ((scaleIdxOf c ks).toNat : Int) = toInt (mul ks.scale c.scaleMul) / 2 ^ 149 ∧ (scaleIdxOf c ks).toNat ≤ 5 := by
  have hs : In 0 (2 ^ 149) ks.scale := in_unit (hk .scale (Knob.mem_all _))
  have hm := hc.float .scaleMul rfl (by decide) (by decide)
  change In _ _ c.scaleMul at hm
  have hm0 : 0 ≤ toInt c.scaleMul := hm.lower
  have hm1 : toInt c.scaleMul < 6 * 2 ^ 149 := lt_of_le_of_lt hm.upper (by decide +kernel)
  have hp := mul_unit hs hm.finite
  have hp0 := hp.lower
  have hp1 := hp.upper
  unfold scaleIdxOf
  rw [floorInt_of_finite hp.finite]
  generalize toInt (mul ks.scale c.scaleMul) = p at *
  have hq0 : 0 ≤ p / 2 ^ 149 := by omega
  have hq5 : p / 2 ^ 149 ≤ 5 := by omega
  generalize p / 2 ^ 149 = q at *
  rw [BitVec.toNat_ofInt, min_eq_right hq5]
  omega

theorem toInt_max_f32 : (0 : Int) ≤ toInt zero := by rw [toInt_zero]

/-- Derive() gives the derived registers what R28 says of them at all times. -/
theorem derive_ok {c : Cfg} (hc : c.Legal) {ks : Knobs} (hk : ks.Unit) : (derive c ks).Ok := by
  have hon := gateOnOf_in hc hk
  obtain ⟨f1, f2, f3⟩ := gateOffOf_lt hc hk
  have hz : (0 : Int) ≤ toInt 0x1E3CE508#32 := by decide +kernel
  exact ⟨(lt_iff f1 hon.finite).mpr f3, (le_iff isFinite_zero f1).mpr (by rw [toInt_zero]; exact f2),
    unit_of_in (hon.mono hz le_rfl), unit_of_in (glideCOf_in hc hk), (scaleIdxOf_spec hc hk).2⟩

/-! ### Stage P -/

theorem in_symm_unit {v : F32} (h : within negOne one v = true) : In (-2 ^ 149) (2 ^ 149) v :=
  in_of_bits h isFinite_negOne isFinite_one toInt_negOne toInt_one

/-- The DC blocker's output stays within 2^15 (R87): the pole is at most 0x3F7FF972. -/
theorem pitchHp_in {c : Cfg} (hc : c.Legal) {d : Detector} {x : F32} (hd : d.Ok) (hx : within negOne one x = true) :
    In (-2 ^ 164) (2 ^ 164) (pitchHp c d x) := by
  obtain ⟨h1, h2, -, -, -⟩ := hd
  have hx' := in_symm_unit hx
  have hx1 := in_symm_unit h1
  have hy : In (-2 ^ 164) (2 ^ 164) d.dcY1 := in_of_bits h2 (by decide) (by decide) toInt_neg_pow_fifteen toInt_pow_fifteen
  have hr := hc.float .dcR rfl (by decide) (by decide)
  rw [toInt_bits_zero] at hr
  have hxl := hx'.lower
  have hxu := hx'.upper
  have hx1l := hx1.lower
  have hx1u := hx1.upper
  have n2 : toInt 0xC0000000#32 = -2 ^ 150 := by decide +kernel
  obtain ⟨a1, a2, a3⟩ := sub_between (x := x) (y := d.dcX1) (lo := 0xC0000000#32) (hi := 0x40000000#32) hx'.finite hx1.finite
    (by decide) (by decide) (by rw [n2]; omega) (by rw [toInt_two]; omega)
  rw [n2] at a2
  rw [toInt_two] at a3
  have hM : toInt 0x46FFF972#32 = toInt 0x3F7FF972#32 * 2 ^ 15 := by decide +kernel
  have hN : toInt 0xC6FFF972#32 = -(toInt 0x3F7FF972#32 * 2 ^ 15) := by decide +kernel
  have hab : |toInt (c.get .dcR) * toInt d.dcY1| ≤ toInt 0x3F7FF972#32 * 2 ^ 164 := by
    rw [abs_mul]
    exact mul_le_mul (abs_le.mpr ⟨by have := hr.lower; have : (0 : Int) ≤ toInt 0x3F7FF972#32 := by decide +kernel
                                     omega, hr.upper⟩)
      (abs_le.mpr ⟨hy.lower, hy.upper⟩) (abs_nonneg _) (by decide +kernel)
  obtain ⟨hl, hu⟩ := abs_le.mp hab
  obtain ⟨b1, b2, b3⟩ := mul_between (x := c.get .dcR) (y := d.dcY1) (lo := 0xC6FFF972#32) (hi := 0x46FFF972#32) hr.finite
    hy.finite (by decide) (by decide) (by rw [hN]; linarith) (by rw [hM]; linarith)
  have hM' : toInt 0x46FFF972#32 + 2 ^ 150 ≤ 2 ^ 164 := by decide +kernel
  have hN' : -2 ^ 164 ≤ toInt 0xC6FFF972#32 - 2 ^ 150 := by decide +kernel
  obtain ⟨c1, c2, c3⟩ := add_between (x := sub x d.dcX1) (y := mul (c.get .dcR) d.dcY1) (lo := 0xC7000000#32)
    (hi := 0x47000000#32) a1 b1 (by decide) (by decide) (by rw [toInt_neg_pow_fifteen]; omega)
    (by rw [toInt_pow_fifteen]; omega)
  rw [toInt_neg_pow_fifteen] at c2
  rw [toInt_pow_fifteen] at c3
  exact In.snap ⟨c1, c2, c3⟩ (by norm_num) (by norm_num)

/-- A product by a factor in [0, 1] of a number within 2^15 is within 2^15 times the factor. -/
theorem mul_scaled {a x : F32} (ha : In 0 (2 ^ 149) a) (hx : In (-2 ^ 164) (2 ^ 164) x) :
    In (-(toInt a * 2 ^ 15)) (toInt a * 2 ^ 15) (mul a x) := by
  have a0 := ha.lower
  have a1 := ha.upper
  obtain ⟨y, hy, hv⟩ := exists_scaled (x := a) 15 (by
    rw [abs_of_nonneg a0]
    calc toInt a * 2 ^ 15 ≤ 2 ^ 149 * 2 ^ 15 := mul_le_mul_of_nonneg_right a1 (by positivity)
      _ < 2 ^ 277 := by decide +kernel)
  have hab : |toInt a * toInt x| ≤ toInt a * 2 ^ 164 := by
    rw [abs_mul, abs_of_nonneg a0]
    exact mul_le_mul_of_nonneg_left (abs_le.mpr ⟨hx.lower, hx.upper⟩) a0
  obtain ⟨hl, hu⟩ := abs_le.mp hab
  obtain ⟨b1, b2, b3⟩ := mul_between (lo := neg y) (hi := y) ha.finite hx.finite (by rw [isFinite_neg]; exact hy) hy
    (by rw [toInt_neg, hv]; linarith) (by rw [hv]; linarith)
  rw [toInt_neg, hv] at b2
  rw [hv] at b3
  exact ⟨b1, b2, b3⟩

/-- The low-pass output stays within 2^15 (R88). -/
theorem pitchLp_in {c : Cfg} (hc : c.Legal) {d : Detector} {x : F32} (hd : d.Ok) (hx : within negOne one x = true) :
    In (-2 ^ 164) (2 ^ 164) (pitchLp c d x) := by
  have hhp := pitchHp_in hc hd hx
  obtain ⟨-, -, h3, -, -⟩ := hd
  have hlp : In (-2 ^ 164) (2 ^ 164) d.lp := in_of_bits h3 (by decide) (by decide) toInt_neg_pow_fifteen toInt_pow_fifteen
  have hk : In 0 (2 ^ 149) c.lpKeep := hc.unit .lpKeep rfl
  have hk' := one_sub_in hk
  have herr := roundInt_err pow_one (by norm_num) (n := toInt one - toInt c.lpKeep)
    (by rw [toInt_one, abs_le]; have := hk.lower; have := hk.upper; omega)
  rw [← toInt_sub isFinite_one hk.finite, toInt_one] at herr
  have m1 := mul_scaled hk hlp
  have m2 := mul_scaled hk' hhp
  have m1l := m1.lower
  have m1u := m1.upper
  have m2l := m2.lower
  have m2u := m2.upper
  have hle := le_abs_self (toInt (sub one c.lpKeep) - (2 ^ 149 - toInt c.lpKeep))
  have hab : |toInt (mul c.lpKeep d.lp) + toInt (mul (sub one c.lpKeep) (pitchHp c d x))| <
      2 ^ (141 + 23) + 2 ^ (141 - 1) := by
    rw [abs_lt]
    constructor <;> omega
  exact (add_abs_le_pow pow_fifteen (by norm_num) m1.finite m2.finite hab).snap (by norm_num) (by norm_num)

/-- A candidate in band is in [1, 96000] (R93, R22). -/
theorem inBand_in {c : Cfg} (hc : c.Legal) {cand : F32} (h : inBand c cand = true) :
    In 0 (96000 * 2 ^ 149) cand := by
  have hmin := hc.float .fMin rfl (by decide) (by decide)
  have hmax := hc.float .fMax rfl (by decide) (by decide)
  unfold inBand at h
  rw [Bool.and_eq_true] at h
  have hlt : le cand (c.get .fMax) = true := by
    have h2 := h.2
    simp only [lt, le, Bool.and_eq_true, decide_eq_true_eq] at h2 ⊢
    exact ⟨h2.1, h2.2.le⟩
  have := in_of_within hmin.finite hmax.finite (v := cand) (by rw [Bool.and_eq_true]; exact ⟨h.1, hlt⟩)
  exact this.mono (le_trans (by decide +kernel) hmin.lower) (hmax.upper.trans (by decide +kernel))

/-- FREQ stays in [0, 2^42] (R94): a term of at most 96000 rounds away there. -/
theorem blendFreq_in {c : Cfg} (hc : c.Legal) {f cand : F32} (hf : In 0 (2 ^ 191) f) (hb : inBand c cand = true) :
    In 0 (2 ^ 191) (blendFreq c f cand) := by
  have hcand := inBand_in hc hb
  unfold blendFreq
  split
  · exact hcand.mono le_rfl (by norm_num)
  · have hk : In 0 (2 ^ 149) c.freqKeep := hc.unit .freqKeep rfl
    have hn : In 0 (2 ^ 149) c.freqNew := hc.unit .freqNew rfl
    have m1 := mul_unit hk hf.finite
    have m2 := mul_unit hn hcand.finite
    have := hf.lower
    have := hf.upper
    have := hcand.lower
    have := hcand.upper
    have := m1.lower
    have := m1.upper
    have := m2.lower
    have := m2.upper
    exact (add_le_pow pow_fortytwo (by norm_num) m1.finite m2.finite (by omega) (by omega)).snap le_rfl (by norm_num)

/-- A product of two numbers in [0, 1] is in [0, 1]. -/
theorem mul_in_unit {a b : F32} (ha : In 0 (2 ^ 149) a) (hb : In 0 (2 ^ 149) b) : In 0 (2 ^ 149) (mul a b) := by
  have h0 := hb.lower
  have h1 := hb.upper
  exact (mul_unit ha hb.finite).mono (by rw [min_eq_left h0]) (max_le (by positivity) h1)

/-- Stage P keeps the detector's bounds. -/
theorem stageP_ok {c : Cfg} (hc : c.Legal) {d : Detector} {x : F32} (hd : d.Ok) (hx : within negOne one x = true) :
    (stageP c d x).Ok := by
  have hhp := pitchHp_in hc hd hx
  have hlp := pitchLp_in hc hd hx
  obtain ⟨-, -, -, h4, h5⟩ := hd
  have hf : In 0 (2 ^ 191) d.freq := in_of_bits h4 isFinite_zero (by decide) toInt_zero toInt_pow_fortytwo
  have hcert := in_unit h5
  refine ⟨hx, bits_of_in hhp (by decide) (by decide) toInt_neg_pow_fifteen toInt_pow_fifteen,
    bits_of_in hlp (by decide) (by decide) toInt_neg_pow_fifteen toInt_pow_fifteen, ?_, ?_⟩
  · refine bits_of_in (a := 0) (b := 2 ^ 191) ?_ isFinite_zero (by decide) toInt_zero toInt_pow_fortytwo
    change In _ _ (if pitchAccepted c d x then blendFreq c d.freq (candidateFreq c (countUp d.zcCount)) else d.freq)
    split
    · rename_i ha
      unfold pitchAccepted at ha
      rw [Bool.and_eq_true] at ha
      exact blendFreq_in hc hf ha.2
    · exact hf
  · refine unit_of_in ?_
    change In _ _ (if pitchAccepted c d x then one else decayedCert c d.cert)
    split
    · exact in_one
    · exact (mul_in_unit hcert (hc.unit .certDecay rfl)).snap le_rfl (by norm_num)

/-! ### Stage E -/

/-- The energy is in [0, 2] (R97). -/
theorem energyOf_in {c : Cfg} (hc : c.Legal) {x : F32} (hx : within negOne one x = true) :
    In 0 (2 ^ 150) (energyOf c x) := by
  have hx' := in_symm_unit hx
  have hl := hx'.lower
  have hu := hx'.upper
  have hoff := hc.float .envOffset rfl (by decide) (by decide)
  rw [toInt_bits_zero] at hoff
  have hoff1 : toInt (c.get .envOffset) ≤ 2 ^ 149 := hoff.upper.trans (by decide +kernel)
  have hoff0 := hoff.lower
  obtain ⟨m1, m2, m3⟩ := mul_between (x := x) (y := x) (lo := zero) (hi := one) hx'.finite hx'.finite isFinite_zero isFinite_one
    (by rw [toInt_zero]; nlinarith) (by rw [toInt_one]; nlinarith)
  rw [toInt_zero] at m2
  rw [toInt_one] at m3
  obtain ⟨a1, a2, a3⟩ := add_between (x := mul x x) (y := c.get .envOffset) (lo := zero) (hi := 0x40000000#32) m1
    hoff.finite isFinite_zero (by decide) (by rw [toInt_zero]; omega) (by rw [toInt_two]; omega)
  rw [toInt_zero] at a2
  rw [toInt_two] at a3
  exact ⟨a1, a2, a3⟩

theorem envSection_in {c : Cfg} (hc : c.Legal) {s x : F32} (hs : In 0 (2 ^ 150) s) (hx : In 0 (2 ^ 150) x) :
    In 0 (2 ^ 150) (envSection c s x) :=
  (filter_step pow_two (by norm_num) hs hx (hc.unit .envA rfl)).snap le_rfl (by norm_num)

/-- A root of a number in [0, 2^(2j)] units of a square is at most 2^j: the root of [0, hi] is in [0, r] where `r` is finite and
its square is at least `hi`. -/
theorem sqrt_in {x r : F32} {hi : Int} (hx : In 0 hi x) (hr : isFinite r = true) (h0 : 0 ≤ toInt r)
    (hsq : hi * 2 ^ 149 ≤ toInt r * toInt r) : In 0 (toInt r) (Fp.sqrt x) := by
  have hmx := isFinite_iff.mp hx.finite
  unfold Fp.sqrt
  rw [isNaN_of_finite hx.finite, if_neg Bool.false_ne_true]
  split
  · rename_i hz
    have hz' : mag x = 0 := by simpa using hz
    have : toInt x = 0 := by simp [toInt, hz']
    exact ⟨hx.finite, by omega, by omega⟩
  · rename_i hz
    have hz' : 0 < mag x := Nat.pos_of_ne_zero (by simpa using hz)
    have hu0 : 0 < units (mag x) := Nat.pos_of_ne_zero (fun h => by have := units_eq_zero.mp h; omega)
    have hs : sign x = false := by
      cases hs : sign x
      · rfl
      · have := hx.lower
        unfold toInt at this
        rw [hs, if_pos rfl] at this
        omega
    rw [hs, if_neg Bool.false_ne_true, isInf_of_finite hx.finite, if_neg Bool.false_ne_true]
    have hxv : toInt x = (units (mag x) : Int) := by simp [toInt, hs]
    have hrv : toInt r = (units (mag r) : Int) := by
      unfold toInt at h0 ⊢
      split
      · rename_i hsr
        rw [hsr, if_pos rfl] at h0
        omega
      · rfl
    have hle : sqrtMag (units (mag x)) ≤ mag r := by
      refine sqrtMag_le (units_lt_of_finite hmx) ?_
      have h1 := hx.upper
      rw [hxv] at h1
      rw [hrv] at hsq
      have h2 : (units (mag x) : Int) * 2 ^ 149 ≤ units (mag r) * units (mag r) :=
        (mul_le_mul_of_nonneg_right h1 (by positivity)).trans hsq
      exact_mod_cast h2
    have hlt : sqrtMag (units (mag x)) < infMag := lt_of_le_of_lt hle (isFinite_iff.mp hr)
    have h31 : sqrtMag (units (mag x)) < 2 ^ 31 := hlt.trans (by decide)
    refine ⟨by rw [isFinite_iff, mag_ofMag _ h31]; exact hlt, ?_, ?_⟩
    · unfold toInt
      rw [sign_ofMag _ h31, if_neg Bool.false_ne_true]
      omega
    · rw [hrv]
      unfold toInt
      rw [sign_ofMag _ h31, if_neg Bool.false_ne_true, mag_ofMag _ h31]
      exact_mod_cast units_le_iff.mpr hle

theorem levelOf_in {s : F32} (hs : In 0 (2 ^ 150) s) : In 0 (2 ^ 150) (levelOf s) := by
  have hz : In 0 (2 ^ 150) zero := in_zero le_rfl (by norm_num)
  have hm := max_in hz hs
  have := sqrt_in (r := 0x40000000#32) (hm.mono (le_max_of_le_left (by rw [toInt_zero])) le_rfl) (by decide)
    (by rw [toInt_two]; positivity) (by rw [toInt_two]; norm_num)
  rw [toInt_two] at this
  exact this

/-- Stage E keeps the envelope's bounds. -/
theorem stageE_ok {c : Cfg} (hc : c.Legal) (v : Derived) {e : Envelope} {x : F32} (he : e.Ok)
    (hx : within negOne one x = true) : (stageE c v e x).Ok := by
  obtain ⟨h1, h2, -⟩ := he
  have i1 : In 0 (2 ^ 150) e.envS1 := in_of_bits h1 isFinite_zero (by decide) toInt_zero toInt_two
  have i2 : In 0 (2 ^ 150) e.envS2 := in_of_bits h2 isFinite_zero (by decide) toInt_zero toInt_two
  have s1 := envSection_in hc i1 (energyOf_in hc hx)
  have s2 := envSection_in hc i2 s1
  exact ⟨bits_of_in s1 isFinite_zero (by decide) toInt_zero toInt_two,
    bits_of_in s2 isFinite_zero (by decide) toInt_zero toInt_two,
    bits_of_in (levelOf_in s2) isFinite_zero (by decide) toInt_zero toInt_two⟩

/-! ### Stage Q -/

/-- `Fp.ofInt` is never NaN or infinite for a note number and keeps the order; here only its finiteness for small integers. -/
theorem noteValue_candidate {note : Byte} {k : Int} (hn : note.toNat ≤ 127) (h1 : -4 ≤ k) (h2 : k ≤ 4) :
    noteValue (candidateNote note k) := by
  refine ⟨((note.toNat : Int) + 12 * k + 48).toNat, by omega, ?_⟩
  unfold candidateNote
  congr 1
  omega

theorem noteValue_zero : noteValue zero := ⟨48, by norm_num, by decide +kernel⟩

/-- A note value is in [-48, 175]. -/
theorem noteValue_in {q : F32} (h : noteValue q) : In (-48 * 2 ^ 149) (175 * 2 ^ 149) q := by
  obtain ⟨i, hi, rfl⟩ := h
  have h1 : toInt 0xC2400000#32 = -48 * 2 ^ 149 := by decide +kernel
  have h2 : toInt 0x432F0000#32 = 175 * 2 ^ 149 := by decide +kernel
  have hv : toInt (ofInt ((i : Int) - 48)) = roundInt (((i : Int) - 48) * 2 ^ 149) 1 := by
    unfold ofInt
    rw [toInt_round]
    unfold roundInt
    have e1 : (((i : Int) - 48) * 2 ^ 149).natAbs = ((i : Int) - 48).natAbs * 2 ^ 149 := by
      rw [Int.natAbs_mul]
      rfl
    rw [e1]
    by_cases h : (i : Int) - 48 < 0
    · rw [if_pos (by simpa using h), if_pos (by omega)]
    · rw [if_neg (by simpa using h), if_neg (by omega)]
  have hf : isFinite (ofInt ((i : Int) - 48)) = true := by
    unfold ofInt
    rw [isFinite_round]
    refine nearestMag_lt_of_le one_pos (y := 0x432F0000#32) (by decide) ?_
    have : units (mag 0x432F0000#32) = 175 * 2 ^ 149 := by decide +kernel
    rw [this]
    omega
  refine ⟨hf, ?_, ?_⟩
  · rw [hv, ← h1]
    exact le_roundInt one_pos (by decide) (by rw [h1]; push_cast; omega)
  · rw [hv, ← h2]
    exact roundInt_le one_pos (by decide) (by rw [h2]; push_cast; omega)

/-- The octave offsets of the search are between OCT_MIN and OCT_MAX (R106). -/
theorem mem_octaves {c : Cfg} {k : Int} : k ∈ octaves c ↔ c.octMin.toInt ≤ k ∧ k ≤ c.octMax.toInt := by
  unfold octaves
  simp only [List.mem_map, List.mem_range]
  constructor
  · rintro ⟨i, hi, rfl⟩
    omega
  · intro h
    exact ⟨(k - c.octMin.toInt).toNat, by omega, by omega⟩

/-- The search visits every octave offset and degree, and no other (R106). -/
theorem mem_searchOrder {c : Cfg} {k : Int} {j : Nat} :
    (k, j) ∈ searchOrder c ↔ c.octMin.toInt ≤ k ∧ k ≤ c.octMax.toInt ∧ j < 15 := by
  unfold searchOrder
  simp only [List.mem_flatMap, List.mem_map, List.mem_range, Prod.mk.injEq]
  constructor
  · rintro ⟨k', hk', j', hj', rfl, rfl⟩
    exact ⟨(mem_octaves.mp hk').1, (mem_octaves.mp hk').2, hj'⟩
  · rintro ⟨h1, h2, h3⟩
    exact ⟨k, mem_octaves.mpr ⟨h1, h2⟩, j, h3, rfl, rfl⟩

/-- What the candidates are, where every entry of the row exists: the table's notes shifted by octaves, in search order. -/
theorem readCandidates_ok (m : Memory) {s : Nat} (hs : s ≤ 5) (order : List (Int × Nat))
    (h : ∀ p ∈ order, p.2 < 15) :
    readCandidates m s order =
      .ok (order.map fun p => candidateNote ((Memory.read m (15 * s + p.2)).getD 0#8) p.1) := by
  induction order with
  | nil => rfl
  | cons p rest ih =>
    obtain ⟨k, j⟩ := p
    have hj : j < 15 := h (k, j) (List.mem_cons_self ..)
    obtain ⟨note, hn⟩ := Option.isSome_iff_exists.mp ((Memory.read_isSome_iff m (15 * s + j)).mpr (by omega))
    have ih' := ih fun p hp => h p (List.mem_cons_of_mem _ hp)
    simp only [readCandidates, hn, ih', List.map_cons, Option.getD_some]

/-- The candidates of the search, in search order, where SCALE_IDX is in 0..5 (R106). -/
def candidatesOf (c : Cfg) (m : Memory) (s : Nat) : List F32 :=
  (searchOrder c).map fun p => candidateNote ((Memory.read m (15 * s + p.2)).getD 0#8) p.1

theorem nearest_eq (c : Cfg) (m : Memory) (t : F32) {s : Nat} (hs : s ≤ 5) :
    nearest c m t s = .ok (nearestOf t (candidatesOf c m s)) := by
  unfold nearest
  rw [readCandidates_ok m hs _ fun p hp => (mem_searchOrder.mp (show (p.1, p.2) ∈ _ from hp)).2.2]
  rfl

/-- The search answers a candidate. -/
theorem nearestOf_mem {t q : F32} {cs : List F32} (h : nearestOf t cs = some q) : q ∈ cs := by
  have key : ∀ (cs : List F32) (best : Option (F32 × F32)) (q : F32),
      (cs.foldl (searchStep t) best).map Prod.fst = some q → q ∈ cs ∨ best.map Prod.fst = some q := by
    intro cs
    induction cs with
    | nil => exact fun best q h => .inr h
    | cons c rest ih =>
      intro best q h
      rcases ih (searchStep t best c) q h with h1 | h1
      · exact .inl (List.mem_cons_of_mem _ h1)
      · unfold searchStep at h1
        cases best with
        | none =>
          simp only [Option.map_some, Option.some.injEq] at h1
          exact .inl (h1 ▸ List.mem_cons_self ..)
        | some b =>
          simp only at h1
          split at h1
          · simp only [Option.map_some, Option.some.injEq] at h1
            exact .inl (h1 ▸ List.mem_cons_self ..)
          · exact .inr h1
  rcases key cs none q h with h1 | h1
  · exact h1
  · cases h1

/-- Stage Q never stops where SCALE_IDX is in 0..5: it keeps QLAST and TARGET, or commits the nearest candidate (R103 to R108). -/
theorem stageQ_cases (c : Cfg) {v : Derived} (m : Memory) (d : Detector) (e : Envelope) (n : Quant)
    (hv : v.scaleIdx.toNat ≤ 5) :
    ∃ n', stageQ c v m d e n = .ok n' ∧
      ((n' = n ∧ (quantEnabled c d e = false ∨ nearestOf (rawTarget c v d) (candidatesOf c m v.scaleIdx.toNat) = none)) ∨
        ∃ q, quantEnabled c d e = true ∧ nearestOf (rawTarget c v d) (candidatesOf c m v.scaleIdx.toNat) = some q ∧
          n' = commit c n q) := by
  unfold stageQ
  cases he : quantEnabled c d e
  · exact ⟨n, rfl, .inl ⟨rfl, .inl rfl⟩⟩
  · rw [if_pos rfl, nearest_eq c m _ hv]
    cases hq : nearestOf (rawTarget c v d) (candidatesOf c m v.scaleIdx.toNat) with
    | none => exact ⟨n, rfl, .inl ⟨rfl, .inr rfl⟩⟩
    | some q => exact ⟨commit c n q, rfl, .inr ⟨q, rfl, rfl, rfl⟩⟩

/-- The legal octave range is within [-4, 4] (R22). -/
theorem Cfg.Legal.octave {c : Cfg} (h : c.Legal) : -4 ≤ c.octMin.toInt ∧ c.octMax.toInt ≤ 4 := by
  have h1 : decide ((-4 : Int) ≤ c.octMin.toInt ∧ c.octMin.toInt ≤ 4) = true := h .octMin (CfgReg.mem_all _)
  have h2 : decide ((-4 : Int) ≤ c.octMax.toInt ∧ c.octMax.toInt ≤ 4) = true := h .octMax (CfgReg.mem_all _)
  exact ⟨(of_decide_eq_true h1).1, (of_decide_eq_true h2).2⟩

/-- Every candidate is a note value, under a legal configuration and a table of notes (R110). -/
theorem noteValue_of_mem_candidates {c : Cfg} (hc : c.Legal) {m : Memory} (hm : Memory.Ok m) {s : Nat} {q : F32}
    (h : q ∈ candidatesOf c m s) : noteValue q := by
  obtain ⟨⟨k, j⟩, hp, rfl⟩ := List.mem_map.mp h
  obtain ⟨h1, h2, -⟩ := mem_searchOrder.mp hp
  have ho := hc.octave
  refine noteValue_candidate ?_ (by omega) (by omega)
  cases hr : Memory.read m (15 * s + j) with
  | none => simp
  | some b => exact Memory.read_le hm.2 hr

/-- Stage Q keeps QLAST and TARGET note values (R110). -/
theorem stageQ_ok {c : Cfg} (hc : c.Legal) {v : Derived} {m : Memory} (hm : Memory.Ok m) {d : Detector} {e : Envelope}
    {n n' : Quant} (hv : v.scaleIdx.toNat ≤ 5) (hn : n.Ok) (h : stageQ c v m d e n = .ok n') : n'.Ok := by
  obtain ⟨n'', h', hcase⟩ := stageQ_cases c m d e n hv
  rw [h] at h'
  cases h'
  rcases hcase with ⟨rfl, -⟩ | ⟨q, -, hq, rfl⟩
  · exact hn
  · have hqv := noteValue_of_mem_candidates hc hm (nearestOf_mem hq)
    refine ⟨hqv, ?_⟩
    change noteValue (if _ then q else n.target)
    split
    · exact hqv
    · exact hn.2

/-! ### Stage V and MIX -/

theorem toInt_256 : toInt 0x43800000#32 = 256 * 2 ^ 149 := by decide +kernel
theorem toInt_neg_256 : toInt 0xC3800000#32 = -256 * 2 ^ 149 := by decide +kernel
theorem toInt_260 : toInt 0x43820000#32 = 260 * 2 ^ 149 := by decide +kernel
theorem toInt_neg_260 : toInt 0xC3820000#32 = -260 * 2 ^ 149 := by decide +kernel

/-- SMOOTH stays within 256 (R111): a step toward a note value passes it by at most a rounding error. -/
theorem glide_in {c : Cfg} {v : Derived} {s t : F32} (hv : v.Ok) (hs : In (-256 * 2 ^ 149) (256 * 2 ^ 149) s)
    (ht : noteValue t) : In (-256 * 2 ^ 149) (256 * 2 ^ 149) (glide c v s t) := by
  have hg := in_unit hv.2.2.2.1
  have ht' := noteValue_in ht
  have s0 := hs.lower
  have s1 := hs.upper
  have t0 := ht'.lower
  have t1 := ht'.upper
  have h512 : toInt 0x44000000#32 = 512 * 2 ^ 149 := by decide +kernel
  have hn512 : toInt 0xC4000000#32 = -512 * 2 ^ 149 := by decide +kernel
  obtain ⟨d1, -, -⟩ := sub_between (x := t) (y := s) (lo := 0xC4000000#32) (hi := 0x44000000#32) ht'.finite hs.finite
    (by decide) (by decide) (by rw [hn512]; omega) (by rw [h512]; omega)
  have hclose := roundInt_close (d := 1) one_pos ((isFinite_sub ht'.finite hs.finite).mp d1)
  rw [← toInt_sub ht'.finite hs.finite] at hclose
  have hbig : |toInt t - toInt s| ≤ 512 * 2 ^ 149 := by rw [abs_le]; omega
  push_cast at hclose
  rw [mul_one] at hclose
  have he1 := le_abs_self (toInt (sub t s) - (toInt t - toInt s))
  have he2 := neg_abs_le (toInt (sub t s) - (toInt t - toInt s))
  have hp := mul_unit hg d1
  have p0 := hp.lower
  have p1 := hp.upper
  obtain ⟨a1, a2, a3⟩ := add_between (x := s) (y := mul v.glideC (sub t s)) (lo := 0xC3800000#32) (hi := 0x43800000#32)
    hs.finite hp.finite (by decide) (by decide) (by rw [toInt_neg_256]; omega) (by rw [toInt_256]; omega)
  rw [toInt_neg_256] at a2
  rw [toInt_256] at a3
  exact In.snap ⟨a1, a2, a3⟩ (by norm_num) (by norm_num)

/-- LFO_PHASE stays in [0, 1) (R112). -/
theorem lfoAdvance_in {c : Cfg} (hc : c.Legal) {ph : F32} (h : In 0 (2 ^ 149) ph) (hlt : toInt ph < 2 ^ 149) :
    In 0 (2 ^ 149) (lfoAdvance c ph) ∧ toInt (lfoAdvance c ph) < 2 ^ 149 := by
  have hi := hc.float .lfoInc rfl (by decide) (by decide)
  rw [toInt_bits_zero] at hi
  have hhalf : toInt 0x3F000000#32 = 2 ^ 148 := by decide +kernel
  rw [hhalf] at hi
  change In 0 _ c.lfoInc at hi
  have p0 := h.lower
  have i0 := hi.lower
  have i1 := hi.upper
  have h15 : toInt 0x3FC00000#32 = 3 * 2 ^ 148 := by decide +kernel
  obtain ⟨a1, a2, a3⟩ := add_between (x := ph) (y := c.lfoInc) (lo := zero) (hi := 0x3FC00000#32) h.finite hi.finite
    isFinite_zero (by decide) (by rw [toInt_zero]; omega) (by rw [h15]; omega)
  rw [toInt_zero] at a2
  rw [h15] at a3
  unfold lfoAdvance
  simp only
  split
  · rename_i hge
    rw [le_iff isFinite_one a1, toInt_one] at hge
    obtain ⟨b1, b2, b3⟩ := sub_between (x := add ph c.lfoInc) (y := one) (lo := zero) (hi := 0x3F000000#32) a1 isFinite_one
      isFinite_zero (by decide) (by rw [toInt_zero, toInt_one]; omega) (by rw [hhalf, toInt_one]; omega)
    rw [toInt_zero] at b2
    rw [hhalf] at b3
    exact ⟨⟨b1, b2, by omega⟩, by omega⟩
  · rename_i hge
    rw [le_iff isFinite_one a1, toInt_one] at hge
    exact ⟨⟨a1, a2, by omega⟩, by omega⟩

/-- The vibrato offset is within 2 semitones (R113). -/
theorem vibrato_in {c : Cfg} (hc : c.Legal) {k ph : F32} (hk : In 0 (2 ^ 149) k) (hph : isFinite ph = true) :
    In (-2 ^ 150) (2 ^ 150) (vibrato c k ph) := by
  have hd := hc.float .vibDepthMax rfl (by decide) (by decide)
  rw [toInt_bits_zero, toInt_two] at hd
  change In 0 _ c.vibDepthMax at hd
  have d0 := hd.lower
  have d1 := hd.upper
  have hm := mul_unit_right hk hd.finite
  have hm' : In 0 (2 ^ 150) (mul c.vibDepthMax k) :=
    hm.mono (by rw [min_eq_left d0]) (max_le (by positivity) d1)
  have hs := sin2Pi_in hph
  have n2 : toInt 0xC0000000#32 = -2 ^ 150 := by decide +kernel
  have hab : |toInt (mul c.vibDepthMax k) * toInt (sin2Pi ph)| ≤ 2 ^ 150 * 2 ^ 149 := by
    rw [abs_mul]
    exact mul_le_mul (abs_le.mpr ⟨by have := hm'.lower; omega, hm'.upper⟩) (abs_le.mpr ⟨hs.lower, hs.upper⟩)
      (abs_nonneg _) (by positivity)
  obtain ⟨hl, hu⟩ := abs_le.mp hab
  obtain ⟨b1, b2, b3⟩ := mul_between (x := mul c.vibDepthMax k) (y := sin2Pi ph) (lo := 0xC0000000#32) (hi := 0x40000000#32)
    hm'.finite hs.finite (by decide) (by decide) (by rw [n2]; linarith) (by rw [toInt_two]; linarith)
  rw [n2] at b2
  rw [toInt_two] at b3
  exact ⟨b1, b2, b3⟩

/-- `clamp(v, 0, 1)` of anything but a NaN is in [0, 1] (R10). -/
theorem clamp_in {v : F32} (h : isNaN v = false) : In 0 (2 ^ 149) (clamp v zero one) := by
  unfold clamp
  split
  · exact in_zero le_rfl (by positivity)
  · rename_i h1
    split
    · exact in_one
    · rename_i h2
      refine in_unit ?_
      have k0 : isNaN zero = false := by decide
      have k1 : isNaN one = false := by decide
      simp only [lt, h, k0, k1, Bool.not_false, Bool.true_and, Bool.and_true, decide_eq_true_eq, Int.not_lt] at h1 h2
      unfold within
      rw [Bool.and_eq_true]
      simp only [le, h, k0, k1, Bool.not_false, Bool.true_and, Bool.and_true, decide_eq_true_eq]
      exact ⟨h1, h2⟩

/-- A rounded pattern is no NaN. -/
theorem isNaN_round (s : Bool) (n d : Nat) : isNaN (round s n d) = false := by
  have := roundMag_le_infMag n d
  unfold isNaN
  rw [mag_round]
  simp
  omega

/-- A product of finite numbers is no NaN. -/
theorem isNaN_mul {x y : F32} (hx : isFinite x = true) (hy : isFinite y = true) : isNaN (mul x y) = false := by
  unfold mul
  simp only [isNaN_of_finite hx, isNaN_of_finite hy, isInf_of_finite hx, isInf_of_finite hy, Bool.or_self,
    Bool.false_eq_true, if_false]
  exact isNaN_round _ _ _

/-- The target gain is in [0, 1] (R114). -/
theorem vcaTarget_in {c : Cfg} (hc : c.Legal) {d : Detector} {e : Envelope} (he : e.Ok) :
    In 0 (2 ^ 149) (vcaTarget c d e) := by
  unfold vcaTarget
  split
  · have hl := in_of_within isFinite_zero (by decide) he.2.2
    have hs := hc.float .vcaScale rfl (by decide) (by decide)
    exact clamp_in (isNaN_mul hl.finite hs.finite)
  · exact in_zero le_rfl (by positivity)

/-- VCA_GAIN stays in [0, 1] (R115). -/
theorem vcaSlew_in {c : Cfg} (hc : c.Legal) {gt g : F32} (ht : In 0 (2 ^ 149) gt) (hg : In 0 (2 ^ 149) g) :
    In 0 (2 ^ 149) (vcaSlew c gt g) := by
  have hr : In 0 (2 ^ 149) (vcaRate c gt g) := by
    unfold vcaRate
    split
    · exact hc.unit .vcaAttack rfl
    · exact hc.unit .vcaRelease rfl
  exact (filter_step pow_one (by norm_num) hg ht hr).snap le_rfl (by norm_num)

/-- Stage V keeps the voice's bounds. -/
theorem stageV_ok {c : Cfg} (hc : c.Legal) {v : Derived} (hv : v.Ok) {k : F32} (hk : within zero one k = true)
    (d : Detector) {e : Envelope} (he : e.Ok) {n : Quant} (hn : n.Ok) {w : Voice} (hw : w.Ok) :
    (stageV c v k d e n w).Ok := by
  obtain ⟨h1, ⟨h2, h3⟩, -, -, h5, -⟩ := hw
  have hs : In (-256 * 2 ^ 149) (256 * 2 ^ 149) w.smooth :=
    in_of_bits h1 (by decide) (by decide) toInt_neg_256 toInt_256
  have hle : le w.lfoPhase one = true := by
    simp only [lt, le, Bool.and_eq_true, decide_eq_true_eq] at h3 ⊢
    exact ⟨h3.1, h3.2.le⟩
  have hph : In 0 (2 ^ 149) w.lfoPhase := in_unit (by unfold within; rw [h2, hle]; rfl)
  have hphlt : toInt w.lfoPhase < 2 ^ 149 := by
    have := (lt_iff hph.finite isFinite_one).mp h3
    rwa [toInt_one] at this
  have hsm := glide_in (c := c) hv hs hn.2
  obtain ⟨hl1, hl2⟩ := lfoAdvance_in hc hph hphlt
  have hvib := vibrato_in hc (in_unit hk) hph.finite
  have s0 := hsm.lower
  have s1 := hsm.upper
  have v0 := hvib.lower
  have v1 := hvib.upper
  obtain ⟨a1, a2, a3⟩ := add_between (x := glide c v w.smooth n.target) (y := vibrato c k w.lfoPhase) (lo := 0xC3820000#32)
    (hi := 0x43820000#32) hsm.finite hvib.finite (by decide) (by decide) (by rw [toInt_neg_260]; omega)
    (by rw [toInt_260]; omega)
  have hpitch : In (-260 * 2 ^ 149) (260 * 2 ^ 149) (add (glide c v w.smooth n.target) (vibrato c k w.lfoPhase)) :=
    ⟨a1, by rw [← toInt_neg_260]; exact a2, by rw [← toInt_260]; exact a3⟩
  have hosc := midiToHz_in (hpitch.mono (by norm_num) le_rfl)
  have ht := vcaTarget_in hc (d := d) he
  have hg := vcaSlew_in hc ht (in_unit h5)
  refine ⟨bits_of_in hsm (by decide) (by decide) toInt_neg_256 toInt_256, ⟨?_, ?_⟩,
    bits_of_in hpitch (by decide) (by decide) toInt_neg_260 toInt_260, ?_, unit_of_in hg, unit_of_in ht⟩
  · exact (le_iff isFinite_zero hl1.finite).mpr (by rw [toInt_zero]; exact hl1.lower)
  · exact (lt_iff hl1.finite isFinite_one).mpr (by rw [toInt_one]; exact hl2)
  · exact within_of_in isFinite_zero (by decide)
      (hosc.mono (by rw [toInt_zero]) (by decide +kernel))

/-- The mix of a dry sample in [-1, 1] and a finite harmony sample is finite (R86, R116). -/
theorem mixOf_finite {x g m h : F32} (hx : within negOne one x = true) (hg : within zero one g = true)
    (hm : within zero one m = true) (hh : isFinite h = true) : isFinite (mixOf x g m h) = true := by
  have hx' := in_symm_unit hx
  have hg' := in_unit hg
  have hm' := in_unit hm
  have ha := mul_unit_right (one_sub_in hm') hx'.finite
  have hs := mul_unit_right hg' hh
  have hw := mul_unit_right hm' hs.finite
  have x0 := hx'.lower
  have x1 := hx'.upper
  have a0 := ha.lower
  have a1 := ha.upper
  have s0 := hs.lower
  have s1 := hs.upper
  have w0 := hw.lower
  have w1 := hw.upper
  have hmax : |toInt h| ≤ units (infMag - 1) := by
    have hle := units_le_iff.mpr (show mag h ≤ infMag - 1 by have := isFinite_iff.mp hh; omega)
    unfold toInt
    split
    · rw [abs_neg, Nat.abs_cast]
      exact_mod_cast hle
    · rw [Nat.abs_cast]
      exact_mod_cast hle
  obtain ⟨h0, h1⟩ := abs_le.mp hmax
  unfold mixOf
  rw [isFinite_add ha.finite hw.finite]
  have hU : units (infMag - 1) + 2 ^ 253 ≤ units (infMag - 1 + 1) := by decide +kernel
  have hle := nearestMag_le_of_lt_mid (n := (toInt (mul x (sub one m)) + toInt (mul (mul h g) m)).natAbs) (m := infMag - 1)
    one_pos (by
      have : (toInt (mul x (sub one m)) + toInt (mul (mul h g) m)).natAbs ≤ units (infMag - 1) + 2 ^ 149 := by omega
      omega)
  have : 0 < infMag := by decide
  omega

end Sys2Proof.Machine
end

