-- ==== Sys2Proof/Laws/Commands.lean ====
section
/-!
SUPPORT. One lemma per command that says what it can do (the inversion lemmas a proof cites instead of unfolding the command), what
each register write and each flag update keeps, and the conditions under which SAMPLE completes.
-/

namespace Sys2Proof.Machine

-- One theorem at a time: many at once ask for more threads than the memory limit of a check allows.
set_option Elab.async false

open Fp

/-! ### Writes keep registers legal -/

/-- A legal range of an f32 register is a range: finite bounds in order. -/
theorem CfgReg.range_ordered (r : CfgReg) {lo hi : F32} (h : r.range = .f32 lo hi) :
    isFinite lo = true ∧ isFinite hi = true ∧ toInt lo ≤ toInt hi ∧ rangeHolds (.f32 lo hi) lo = true ∧
      rangeHolds (.f32 lo hi) hi = true := by
  cases r <;> simp only [CfgReg.range, CfgRange.f32.injEq, reduceCtorEq] at h <;> obtain ⟨rfl, rfl⟩ := h <;> decide +kernel

/-- Between the bounds means not below the lower and not above the upper, for anything but a NaN. -/
theorem within_of_not_lt {lo hi v : F32} (hn : isNaN v = false) (hl : isFinite lo = true) (hh : isFinite hi = true)
    (h1 : lt v lo = false) (h2 : lt hi v = false) : within lo hi v = true := by
  simp only [lt, hn, isNaN_of_finite hl, isNaN_of_finite hh, Bool.not_false, Bool.true_and, decide_eq_false_iff_not,
    Int.not_lt] at h1 h2
  unfold within
  rw [Bool.and_eq_true]
  simp only [le, hn, isNaN_of_finite hl, isNaN_of_finite hh, Bool.not_false, Bool.true_and, decide_eq_true_eq]
  exact ⟨h1, h2⟩

/-- A number that equals zero may be replaced by +0.0 in any range. -/
theorem within_zero_of_eq {lo hi v : F32} (h : within lo hi v = true) (hl : isFinite lo = true) (hh : isFinite hi = true)
    (he : eq v zero = true) : within lo hi zero = true := by
  have h' := in_of_within hl hh h
  have := (eq_iff h'.finite isFinite_zero).mp he
  exact within_of_in hl hh ⟨isFinite_zero, by rw [← this]; exact h'.lower, by rw [← this]; exact h'.upper⟩

/-- What a write to an f32 configuration register stores is in its legal range, and is no -0.0 (R23). -/
theorem warlF32_holds {lo hi old opnd : F32} (hl : isFinite lo = true) (hh : isFinite hi = true)
    (hlo : rangeHolds (.f32 lo hi) lo = true) (hhi : rangeHolds (.f32 lo hi) hi = true)
    (hold : rangeHolds (.f32 lo hi) old = true) : rangeHolds (.f32 lo hi) (warlF32 lo hi old opnd).1 = true := by
  unfold warlF32 asF32
  simp only
  split
  · exact hold
  · rename_i hn
    split
    · exact hlo
    · rename_i h1
      split
      · exact hhi
      · rename_i h2
        have := within_of_not_lt (by simpa using hn) hl hh (by simpa using h1) (by simpa using h2)
        split
        · rename_i he
          exact Bool.and_eq_true_iff.mpr ⟨within_zero_of_eq this hl hh he, by decide⟩
        · rename_i he
          refine Bool.and_eq_true_iff.mpr ⟨this, bne_iff_ne.mpr fun h => he ?_⟩
          have h' : opnd = 0x80000000#32 := h
          rw [h']
          decide

/-- What a write to an integer configuration register stores is in its legal range (R24). -/
theorem warlInt_toInt {lo hi n : Int} (hl : -2 ^ 31 ≤ lo) (hle : lo ≤ hi) (hh : hi < 2 ^ 31) :
    lo ≤ (warlInt lo hi n).1.toInt ∧ (warlInt lo hi n).1.toInt ≤ hi := by
  have key : ∀ m : Int, lo ≤ m → m ≤ hi → (BitVec.ofInt 32 m).toInt = m := by
    intro m h1 h2
    rw [BitVec.toInt_ofInt]
    exact Int.bmod_eq_of_le (by norm_num; omega) (by norm_num; omega)
  unfold warlInt
  split
  · rw [key lo le_rfl hle]
    omega
  · split
    · rw [key hi hle le_rfl]
      omega
    · rw [key n (by omega) (by omega)]
      omega

theorem toNat_of_toInt_nonneg {w : Word} (h : 0 ≤ w.toInt) : (w.toNat : Int) = w.toInt := by
  rw [BitVec.toInt_eq_toNat_cond] at *
  split at h
  · rename_i hlt
    rw [if_pos hlt]
  · omega

/-- What a WRREG stores in a configuration register is legal, where the register held a legal value (R22, R23, R24). -/
theorem warlCfg_legal (r : CfgReg) {old opnd : Word} (h : rangeHolds r.range old = true) :
    rangeHolds r.range (warlCfg r old opnd).1 = true := by
  unfold warlCfg
  cases hr : r.range with
  | f32 lo hi =>
    obtain ⟨h1, h2, -, h4, h5⟩ := CfgReg.range_ordered r hr
    rw [hr] at h
    exact warlF32_holds h1 h2 h4 h5 h
  | u32 lo hi =>
    have hb : lo ≤ hi ∧ hi < 2 ^ 31 := by
      cases r <;> simp only [CfgReg.range, CfgRange.u32.injEq, reduceCtorEq] at hr <;> omega
    obtain ⟨a, b⟩ := warlInt_toInt (lo := (lo : Int)) (hi := (hi : Int)) (n := (u32 opnd : Int)) (by omega) (by omega)
      (by omega)
    simp only [rangeHolds, decide_eq_true_eq]
    have := toNat_of_toInt_nonneg (w := (warlInt lo hi (u32 opnd)).1) (by omega)
    omega
  | s32 lo hi =>
    have hb : -2 ^ 31 ≤ lo ∧ lo ≤ hi ∧ hi < 2 ^ 31 := by
      cases r <;> simp only [CfgReg.range, CfgRange.s32.injEq, reduceCtorEq] at hr <;> omega
    simp only [rangeHolds, decide_eq_true_eq]
    exact warlInt_toInt hb.1 hb.2.1 hb.2.2

/-- A WRREG to one configuration register keeps the configuration legal (R22). -/
theorem Cfg.legal_set {c : Cfg} (h : c.Legal) (r : CfgReg) (opnd : Word) :
    (c.set r (warlCfg r (c.get r) opnd).1).Legal := by
  intro q _
  rcases eq_or_ne q r with rfl | hne
  · rw [Cfg.get_set_same]
    exact warlCfg_legal q (h q (CfgReg.mem_all q))
  · rw [Cfg.get_set_other _ _ _ _ hne]
    exact h q (CfgReg.mem_all q)

/-- What a WRREG stores in a knob register is in [0, 1] (R26). -/
theorem warlKnob_unit (opnd : Word) : within zero one (warlKnob opnd).1 = true := by
  unfold warlKnob asF32
  simp only
  split
  · decide +kernel
  · rename_i hn
    split
    · decide +kernel
    · rename_i h1
      split
      · decide +kernel
      · rename_i h2
        split
        · decide +kernel
        · exact within_of_not_lt (by simpa using hn) isFinite_zero isFinite_one (by simpa using h1) (by simpa using h2)

/-- A WRREG to one knob register keeps every raw knob in [0, 1] (R26). -/
theorem Knobs.unit_set {n : Knobs} (h : n.Unit) (k : Knob) {v : F32} (hv : within zero one v = true) :
    (n.set k v).Unit := by
  intro j _
  rcases eq_or_ne j k with rfl | hne
  · rw [Knobs.get_set_same]
    exact hv
  · rw [Knobs.get_set_other _ _ _ _ hne]
    exact h j (Knob.mem_all j)

/-- WRTAB stores a note number (R66). -/
theorem noteOperand_spec (n : Word) :
    (noteOperand n).1.toNat = Min.min n.toNat 127 ∧ (noteOperand n).2 = decide (127 < n.toNat) := by
  unfold noteOperand u32
  split
  · rename_i h
    refine ⟨?_, by simpa using h⟩
    rw [min_eq_right (by omega)]
    rfl
  · rename_i h
    refine ⟨?_, by simpa using h⟩
    rw [min_eq_left (by omega)]
    change (BitVec.ofNat 8 n.toNat).toNat = _
    rw [BitVec.toNat_ofNat]
    omega

/-- The sanitised input is in [-1, 1] (R82). -/
theorem sanitizeX_within (x : Word) : within negOne one (sanitizeX x).1 = true := by
  unfold sanitizeX asF32
  simp only
  split
  · decide +kernel
  · rename_i hn
    split
    · decide +kernel
    · split
      · decide +kernel
      · split
        · decide +kernel
        · rename_i h1
          split
          · decide +kernel
          · rename_i h2
            exact within_of_not_lt (by simpa using hn) isFinite_negOne isFinite_one (by simpa using h2) (by simpa using h1)

/-- The sanitised harmony sample is finite (R117). -/
theorem sanitizeH_finite (h : Word) : isFinite (sanitizeH h).1 = true := by
  unfold sanitizeH asF32
  simp only
  split
  · assumption
  · decide

/-- A STATUS bit leaves bits 31:4 zero (R34). -/
theorem status_raise_lt {w : Word} (h : w.toNat < 16) (b : StatusBit) : (w ||| b.mask).toNat < 16 := by
  rw [BitVec.toNat_or]
  exact Nat.or_lt_two_pow (n := 4) h (by cases b <;> decide)

/-- Clearing bits leaves bits 31:4 zero (R34, R64). -/
theorem clearedStatus_lt {w v : Word} (h : w.toNat < 16) : (clearedStatus w v).toNat < 16 := by
  unfold clearedStatus
  rw [BitVec.toNat_and]
  exact lt_of_le_of_lt Nat.and_le_left h

/-! ### What each command does -/

/-- SAMPLE completes where SCALE_IDX is in 0..5, in the state its four stages give (R81). -/
theorem execSample_next (x : Word) (s : State) (h : s.drv.scaleIdx.toNat ≤ 5) :
    ∃ quant, stageQ s.cfg s.drv s.table (stageP s.cfg s.det (sanitizeX x).1) (stageE s.cfg s.drv s.env (sanitizeX x).1)
        s.quant = .ok quant ∧
      exec (.sample x) s = .next (({ s with
        xLast := (sanitizeX x).1
        det := stageP s.cfg s.det (sanitizeX x).1
        env := stageE s.cfg s.drv s.env (sanitizeX x).1
        quant := quant
        voice := stageV s.cfg s.drv s.ks.vib (stageP s.cfg s.det (sanitizeX x).1)
          (stageE s.cfg s.drv s.env (sanitizeX x).1) quant s.voice }.raiseIf (sanitizeX x).2 .nanIn).answer
        (stageV s.cfg s.drv s.ks.vib (stageP s.cfg s.det (sanitizeX x).1)
          (stageE s.cfg s.drv s.env (sanitizeX x).1) quant s.voice).oscFreq) := by
  obtain ⟨quant, hq, -⟩ := stageQ_cases s.cfg s.table (stageP s.cfg s.det (sanitizeX x).1)
    (stageE s.cfg s.drv s.env (sanitizeX x).1) s.quant h
  refine ⟨quant, hq, ?_⟩
  unfold exec execSample
  simp only
  rw [hq]

/-- SAMPLE gives a next state only as its stages say (R81). -/
theorem execSample_inv {x : Word} {s t : State} (h : exec (.sample x) s = .next t) :
    ∃ quant, stageQ s.cfg s.drv s.table (stageP s.cfg s.det (sanitizeX x).1) (stageE s.cfg s.drv s.env (sanitizeX x).1)
        s.quant = .ok quant ∧
      t = ({ s with
        xLast := (sanitizeX x).1
        det := stageP s.cfg s.det (sanitizeX x).1
        env := stageE s.cfg s.drv s.env (sanitizeX x).1
        quant := quant
        voice := stageV s.cfg s.drv s.ks.vib (stageP s.cfg s.det (sanitizeX x).1)
          (stageE s.cfg s.drv s.env (sanitizeX x).1) quant s.voice }.raiseIf (sanitizeX x).2 .nanIn).answer
        (stageV s.cfg s.drv s.ks.vib (stageP s.cfg s.det (sanitizeX x).1)
          (stageE s.cfg s.drv s.env (sanitizeX x).1) quant s.voice).oscFreq := by
  unfold exec execSample at h
  simp only at h
  split at h
  · cases h
  · rename_i quant hq
    exact ⟨quant, hq, (Host.Outcome.next.inj h).symm⟩

/-- What WRREG does, by the register its index names (R64). -/
theorem execWrreg_cases {idx : Byte} {v : Word} {s t : State} (h : exec (.wrreg idx v) s = .next t) :
    (∃ r, Reg.index (.cfg r) = idx ∧ t = (s.writeCfg r v).answer 0#32) ∨
      (∃ k, Reg.index (.kraw k) = idx ∧ t = (s.writeKnob k v).answer 0#32) ∨
      (Reg.index .status = idx ∧ t = (s.clearStatus v).answer 0#32) ∨
      (writableIndex idx = false ∧ t = s.takeIll) := by
  unfold exec execWrreg at h
  simp only at h
  unfold writableIndex
  split at h <;> rename_i hr <;> have ht := (Host.Outcome.next.inj h).symm
  · exact .inl ⟨_, Reg.index_of_ofIndex hr, ht⟩
  · exact .inr (.inl ⟨_, Reg.index_of_ofIndex hr, ht⟩)
  · exact .inr (.inr (.inl ⟨Reg.index_of_ofIndex hr, ht⟩))
  all_goals exact .inr (.inr (.inr ⟨by simp [hr, Reg.access, Access.writable], ht⟩))

/-- What RDREG does (R65). -/
theorem execRdreg_cases {idx : Byte} {s t : State} (h : exec (.rdreg idx) s = .next t) :
    (∃ r, Reg.index r = idx ∧ t = s.answer (s.readReg r)) ∨ (readableIndex idx = false ∧ t = s.takeIll) := by
  unfold exec execRdreg at h
  simp only at h
  unfold readableIndex
  split at h <;> rename_i hr <;> have ht := (Host.Outcome.next.inj h).symm
  · exact .inl ⟨_, Reg.index_of_ofIndex hr, ht⟩
  · exact .inr ⟨by rw [hr]; rfl, ht⟩

/-- What WRTAB does (R66). -/
theorem execWrtab_cases {idx : Byte} {n : Word} {s t : State} (h : exec (.wrtab idx n) s = .next t) :
    (idx.toNat ≤ 89 ∧
      t = ({ s with table := Memory.write s.table idx.toNat (noteOperand n).1 }.raiseIf (noteOperand n).2 .cfgErr).answer
        0#32) ∨ (89 < idx.toNat ∧ t = s.takeIll) := by
  unfold exec execWrtab at h
  simp only at h
  split at h <;> rename_i hr <;> have ht := (Host.Outcome.next.inj h).symm
  · exact .inr ⟨hr, ht⟩
  · exact .inl ⟨by omega, ht⟩

/-- What RDTAB does (R67). -/
theorem execRdtab_cases {idx : Byte} {s t : State} (h : exec (.rdtab idx) s = .next t) :
    (idx.toNat ≤ 89 ∧ ∃ b, Memory.read s.table idx.toNat = some b ∧ t = s.answer (b.setWidth 32)) ∨
      (89 < idx.toNat ∧ t = s.takeIll) := by
  have hs := Memory.read_isSome_iff s.table idx.toNat
  unfold exec execRdtab at h
  simp only at h
  split at h <;> rename_i hr <;> have ht := (Host.Outcome.next.inj h).symm <;> rw [hr] at hs
  · have := hs.mp rfl
    exact .inl ⟨by omega, _, hr, ht⟩
  · simp only [Option.isSome_none, Bool.false_eq_true, false_iff] at hs
    exact .inr ⟨by omega, ht⟩

end Sys2Proof.Machine
end

