-- ==== Sys2Proof/Laws/Rounding.lean ====
section
/-!
SUPPORT. What a rounded result is over the real numbers (spec/00_scope.md R9, R12): the number nearest to the exact value, ties
to even, and that a value between two that round alike rounds like them.
-/

namespace Sys2Proof.Machine.Fp

-- One theorem at a time: many at once ask for more threads than the memory limit of a check allows.
set_option Elab.async false

/-- `-1` or `1`. -/
def signOf (s : Bool) : ℝ := if s then -1 else 1

theorem abs_signOf (s : Bool) : |signOf s| = 1 := by cases s <;> simp [signOf]

theorem toInt_ofMag (s : Bool) {m : Nat} (h : m < infMag) :
    toInt (ofMag s m) = if s then -(units m : Int) else (units m : Int) := by
  have h' : m < 2 ^ 31 := lt_trans h (by decide)
  unfold toInt
  rw [sign_ofMag s h', mag_ofMag s h']

theorem value_ofMag (s : Bool) {m : Nat} (h : m < infMag) :
    (value (ofMag s m) : ℝ) = signOf s * ((units m : ℝ) / 2 ^ 149) := by
  unfold value
  rw [toInt_ofMag s h]
  cases s <;> simp [signOf, neg_div]

theorem value_eq (x : F32) : (value x : ℝ) = signOf (sign x) * ((units (mag x) : ℝ) / 2 ^ 149) := by
  unfold value toInt
  cases sign x <;> simp [signOf, neg_div]

/-- Where an exact magnitude lies between the two midpoints around `m`, no magnitude is nearer than `m`. -/
theorem nearest_of_mid {m : Nat} {y : ℝ} (ha : 2 * y ≤ units m + units (m + 1))
    (ha' : 2 * y = units m + units (m + 1) → m % 2 = 0) (hb : 0 < m → (units (m - 1) : ℝ) + units m ≤ 2 * y)
    (hb' : 0 < m → 2 * y = (units (m - 1) : ℝ) + units m → m % 2 = 0) (m' : Nat) :
    |(units m : ℝ) - y| < |(units m' : ℝ) - y| ∨
      (|(units m : ℝ) - y| = |(units m' : ℝ) - y| ∧ (m' = m ∨ m % 2 = 0)) := by
  rcases lt_trichotomy m' m with h | h | h
  · have h0 : 0 < m := by omega
    have hb := hb h0
    have hb' := hb' h0
    have h1 : (units m' : ℝ) ≤ units (m - 1) := by exact_mod_cast units_le_iff.mpr (by omega)
    have h2 : (units (m - 1) : ℝ) < units m := by exact_mod_cast units_lt_iff.mpr (by omega)
    have e : |(units m' : ℝ) - y| = y - units m' := by
      rw [abs_sub_comm]
      exact abs_of_nonneg (by linarith)
    rw [e]
    rcases le_total (units m : ℝ) y with h3 | h3
    · left
      rw [abs_sub_comm, abs_of_nonneg (by linarith)]
      linarith
    · rw [abs_of_nonneg (by linarith)]
      rcases lt_or_eq_of_le (show (units m : ℝ) - y ≤ y - units m' by linarith) with h4 | h4
      · exact .inl h4
      · exact .inr ⟨h4, .inr (hb' (by linarith))⟩
  · subst h
    exact .inr ⟨rfl, .inl rfl⟩
  · have h1 : (units (m + 1) : ℝ) ≤ units m' := by exact_mod_cast units_le_iff.mpr (by omega)
    have h2 : (units m : ℝ) < units (m + 1) := by exact_mod_cast units_lt_iff.mpr (by omega)
    have e : |(units m' : ℝ) - y| = units m' - y := abs_of_nonneg (by linarith)
    rw [e]
    rcases le_total (units m : ℝ) y with h3 | h3
    · rw [abs_sub_comm, abs_of_nonneg (by linarith)]
      rcases lt_or_eq_of_le (show y - (units m : ℝ) ≤ units m' - y by linarith) with h4 | h4
      · exact .inl h4
      · exact .inr ⟨h4, .inr (ha' (by linarith))⟩
    · left
      rw [abs_of_nonneg (by linarith)]
      linarith

/-- The criterion of rounding: an exact value of sign `s` and magnitude `y` units, between the two midpoints around `m`, ties to
even. -/
theorem roundsTo_of_mid {s : Bool} {m : Nat} {y : ℝ} (hm : m < infMag) (hy : 0 ≤ y)
    (ha : 2 * y ≤ units m + units (m + 1)) (ha' : 2 * y = units m + units (m + 1) → m % 2 = 0)
    (hb : 0 < m → (units (m - 1) : ℝ) + units m ≤ 2 * y)
    (hb' : 0 < m → 2 * y = (units (m - 1) : ℝ) + units m → m % 2 = 0) :
    RoundsTo (signOf s * (y / 2 ^ 149)) (ofMag s m) := by
  have h31 : m < 2 ^ 31 := lt_trans hm (by decide)
  have hP : (0 : ℝ) < 2 ^ 149 := by positivity
  refine ⟨isFinite_iff.mpr (by rwa [mag_ofMag s h31]), fun w hw => ?_⟩
  have scale : ∀ (t : ℝ), |signOf s * (t / 2 ^ 149) - signOf s * (y / 2 ^ 149)| = |t - y| / 2 ^ 149 := by
    intro t
    rw [← mul_sub, abs_mul, abs_signOf, one_mul, ← sub_div, abs_div, abs_of_pos hP]
  have even : m % 2 = 0 → (ofMag s m).toNat % 2 = 0 := by
    intro h
    rw [ofMag_toNat s h31]
    split <;> omega
  rw [value_ofMag s hm, scale]
  have key := nearest_of_mid ha ha' hb hb'
  by_cases hs : sign w = s
  · have hwv : (value w : ℝ) = signOf s * ((units (mag w) : ℝ) / 2 ^ 149) := by rw [value_eq, hs]
    rw [hwv, scale]
    rcases key (mag w) with h | ⟨h, h'⟩
    · exact .inl (by gcongr)
    · refine .inr ⟨by rw [h], h'.imp (fun e => ?_) even⟩
      have : w = ofMag s m := eq_of_sign_mag (by rw [sign_ofMag s h31, hs]) (by rw [mag_ofMag s h31, e])
      rw [this]
  · have hwv : (value w : ℝ) = signOf s * (-(units (mag w) : ℝ) / 2 ^ 149) := by
      rw [value_eq]
      cases s <;> cases hw' : sign w <;> simp_all [signOf, neg_div]
    rw [hwv, scale]
    have hu : (0 : ℝ) ≤ units (mag w) := by positivity
    have e : |-(units (mag w) : ℝ) - y| = units (mag w) + y := by
      rw [abs_sub_comm, sub_neg_eq_add, abs_of_nonneg (by linarith), add_comm]
    rw [e]
    have h0 : |(units 0 : ℝ) - y| = y := by simp [abs_of_nonneg hy]
    have hle := key 0
    rw [h0] at hle
    rcases eq_or_lt_of_le hu with h | h
    · rw [← h, zero_add]
      rcases hle with h1 | ⟨h1, h2⟩
      · exact .inl (by gcongr)
      · refine .inr ⟨by rw [h1], h2.imp (fun e => ?_) even⟩
        have hmw : mag w = 0 := units_eq_zero.mp (by exact_mod_cast h.symm)
        unfold value
        rw [toInt_ofMag s hm, ← e]
        unfold toInt
        rw [hmw]
        simp
    · left
      have h2 : |(units m : ℝ) - y| ≤ y := by
        rcases hle with h1 | ⟨h1, -⟩
        · exact h1.le
        · exact h1.le
      have : |(units m : ℝ) - y| < units (mag w) + y := by linarith
      gcongr

/-- Rounding a fraction of units gives the nearest binary32 number. -/
theorem roundsTo_round {s : Bool} {n d : Nat} (hd : 0 < d) (hf : isFinite (round s n d) = true) :
    RoundsTo (signOf s * ((n : ℝ) / d / 2 ^ 149)) (round s n d) := by
  have hm := isFinite_round.mp hf
  have hdr : (0 : ℝ) < d := by exact_mod_cast hd
  unfold round
  rw [roundMag_of_lt hm]
  obtain ⟨a1, a2⟩ := nearestMag_mid_above n hd
  have conv : ∀ k : Nat, (2 * ((n : ℝ) / d) ≤ k ↔ 2 * n ≤ k * d) := by
    intro k
    rw [← mul_div_assoc, div_le_iff₀ hdr]
    exact_mod_cast Iff.rfl
  have convge : ∀ k : Nat, ((k : ℝ) ≤ 2 * ((n : ℝ) / d) ↔ k * d ≤ 2 * n) := by
    intro k
    rw [← mul_div_assoc, le_div_iff₀ hdr]
    exact_mod_cast Iff.rfl
  refine roundsTo_of_mid hm (by positivity) ?_ ?_ ?_ ?_
  · exact_mod_cast (conv (units (nearestMag n d) + units (nearestMag n d + 1))).mpr a1
  · intro h
    refine a2 (le_antisymm a1 ?_)
    exact (convge _).mp (by push_cast; exact h.ge)
  · intro h0
    exact_mod_cast (convge (units (nearestMag n d - 1) + units (nearestMag n d))).mpr (nearestMag_mid_below n hd h0).1
  · intro h0 h
    obtain ⟨b1, b2⟩ := nearestMag_mid_below n hd h0
    refine b2 (le_antisymm ?_ b1)
    exact (conv _).mp (by push_cast; exact h.le)

/-- A fraction below 2^128 - 2^103, the midpoint above the greatest finite number, rounds to a finite number. -/
theorem isFinite_round_of_lt {s : Bool} {n d : Nat} (hd : 0 < d) (h : (n : ℝ) / d / 2 ^ 149 < 2 ^ 128 - 2 ^ 103) :
    isFinite (round s n d) = true := by
  have hdr : (0 : ℝ) < d := by exact_mod_cast hd
  rw [div_lt_iff₀ (by positivity), div_lt_iff₀ hdr] at h
  have hn : n < (2 ^ 25 - 1) * 2 ^ 103 * 2 ^ 149 * d := by
    rw [show (2 : ℝ) ^ 128 - 2 ^ 103 = (2 ^ 25 - 1) * 2 ^ 103 by norm_num] at h
    exact_mod_cast (show (n : ℝ) < (((2 ^ 25 - 1 : Nat) : ℝ)) * 2 ^ 103 * 2 ^ 149 * d by
      rwa [show ((2 ^ 25 - 1 : Nat) : ℝ) = 2 ^ 25 - 1 by norm_num])
  have hmid : units (infMag - 1) + units (infMag - 1 + 1) = 2 * ((2 ^ 25 - 1) * 2 ^ 103 * 2 ^ 149) := by decide +kernel
  rw [isFinite_round]
  have := nearestMag_le_of_lt_mid (m := infMag - 1) hd (by rw [hmid, mul_assoc]; exact Nat.mul_lt_mul_of_pos_left hn two_pos)
  exact lt_of_le_of_lt this (by decide)

/-- A value of magnitude below 2^128 - 2^103, given as a signed fraction of units, is rounded to the nearest binary32 number. -/
theorem roundsTo_round_of_abs_lt {x : ℝ} {s : Bool} {n d : Nat} (hd : 0 < d) (e : x = signOf s * ((n : ℝ) / d / 2 ^ 149))
    (h : |x| < 2 ^ 128 - 2 ^ 103) : RoundsTo x (round s n d) := by
  rw [e, abs_mul, abs_signOf, one_mul, abs_of_nonneg (by positivity)] at h
  exact e ▸ roundsTo_round hd (isFinite_round_of_lt hd h)

/-- A value between two that round to the same number rounds to it. -/
theorem RoundsTo.squeeze {a b x : ℝ} {r : F32} (ha : RoundsTo a r) (hb : RoundsTo b r) (h1 : a ≤ x) (h2 : x ≤ b) :
    RoundsTo x r := by
  refine ⟨ha.1, fun w hw => ?_⟩
  have hA := ha.2 w hw
  have hB := hb.2 w hw
  have sq : ∀ t : ℝ, ((|(value r : ℝ) - t| < |(value w : ℝ) - t|) ↔
      ((value r : ℝ) - t) ^ 2 < ((value w : ℝ) - t) ^ 2) := fun t => sq_lt_sq.symm
  have sqe : ∀ t : ℝ, ((|(value r : ℝ) - t| = |(value w : ℝ) - t|) ↔
      ((value r : ℝ) - t) ^ 2 = ((value w : ℝ) - t) ^ 2) := fun t => (sq_eq_sq_iff_abs_eq_abs _ _).symm
  rw [sq, sqe] at *
  generalize (value r : ℝ) = v at *
  generalize hwu : (value w : ℝ) = u at *
  rcases lt_trichotomy u v with h | h | h
  · rcases hA with hA | ⟨hA, hA'⟩
    · left
      nlinarith
    · rcases eq_or_lt_of_le h1 with e | e
      · subst e
        exact .inr ⟨hA, hA'⟩
      · left
        nlinarith
  · subst h
    refine .inr ⟨rfl, ?_⟩
    rcases hA with hA | ⟨-, hA'⟩
    · exact absurd hA (lt_irrefl _)
    · exact hA'
  · rcases hB with hB | ⟨hB, hB'⟩
    · left
      nlinarith
    · rcases eq_or_lt_of_le h2 with e | e
      · subst e
        exact .inr ⟨hB, hB'⟩
      · left
        nlinarith

/-- A magnitude of at least 2^24 is an even number of units. -/
theorem units_even {m : Nat} (h : 2 ^ 24 ≤ m) : units m % 2 = 0 := by
  rw [units_of_ge (by omega)]
  obtain ⟨k, hk⟩ : ∃ k, m / 2 ^ 23 - 1 = k + 1 := ⟨m / 2 ^ 23 - 2, by omega⟩
  rw [hk, show (2 ^ 23 + m % 2 ^ 23) * 2 ^ (k + 1) = 2 * ((2 ^ 23 + m % 2 ^ 23) * 2 ^ k) by ring]
  exact Nat.mul_mod_right _ _

/-- The integer root of `u * 2^149` has between 75 and 213 bits. -/
theorem isqrt_units_bounds {u : Nat} (h0 : 0 < u) (hu : u < 2 ^ 277) :
    2 ^ 74 ≤ isqrt 214 (u * 2 ^ 149) ∧ isqrt 214 (u * 2 ^ 149) < 2 ^ 213 := by
  have hn : u * 2 ^ 149 < 4 ^ 213 :=
    calc u * 2 ^ 149 < 2 ^ 277 * 2 ^ 149 := Nat.mul_lt_mul_of_pos_right hu (by norm_num)
      _ = 4 ^ 213 := by decide +kernel
  have hn' : u * 2 ^ 149 < 4 ^ 214 := lt_trans hn (by decide +kernel)
  have hge : 2 ^ 149 ≤ u * 2 ^ 149 := Nat.le_mul_of_pos_left _ h0
  obtain ⟨i1, i2⟩ := isqrt_spec 214 (u * 2 ^ 149) hn'
  generalize u * 2 ^ 149 = n at *
  generalize isqrt 214 n = r at *
  have sq : (2 ^ 213) * 2 ^ 213 = 4 ^ 213 := by decide +kernel
  constructor
  · by_contra hc
    have : (r + 1) * (r + 1) ≤ 2 ^ 74 * 2 ^ 74 := Nat.mul_le_mul (by omega) (by omega)
    omega
  · by_contra hc
    have h1 : (2 ^ 213) * 2 ^ 213 ≤ r * r := Nat.mul_le_mul (by omega) (by omega)
    rw [sq] at h1
    exact absurd (lt_of_lt_of_le (lt_of_le_of_lt (le_trans h1 i1) hn) le_rfl) (lt_irrefl _)

/-- Twice a magnitude of that many bits rounds to a finite number with an even number of units around it. -/
theorem nearestMag_root {r : Nat} (h1 : 2 ^ 74 ≤ r) (h2 : r < 2 ^ 213) {t : Nat} (ht : t ≤ 1) :
    nearestMag (2 * r + t) 2 < infMag ∧ 2 ^ 24 + 2 ≤ nearestMag (2 * r + t) 2 := by
  constructor
  · refine nearestMag_lt_of_le (y := 0x7F7FFFFF#32) (by norm_num) (by decide) ?_
    have : units (mag 0x7F7FFFFF#32) = (2 ^ 24 - 1) * 2 ^ 253 := by decide +kernel
    rw [this]
    omega
  · refine le_nearestMag (by norm_num) ?_
    have : units (2 ^ 24 + 2) = 2 ^ 24 + 4 := by decide +kernel
    rw [this]
    omega

/-- A root strictly between two integers that are below the last place rounds like the point half way. -/
theorem roundsTo_between {r : Nat} {y : ℝ} (h1 : 2 ^ 74 ≤ r) (h2 : r < 2 ^ 213) (hlo : (r : ℝ) < y) (hhi : y < r + 1) :
    RoundsTo (y / 2 ^ 149) (ofMag false (nearestMag (2 * r + 1) 2)) := by
  obtain ⟨hm, hbig⟩ := nearestMag_root h1 h2 le_rfl
  have e0 := units_even (m := nearestMag (2 * r + 1) 2) (by omega)
  have e1 := units_even (m := nearestMag (2 * r + 1) 2 + 1) (by omega)
  have e2 := units_even (m := nearestMag (2 * r + 1) 2 - 1) (by omega)
  have a1 := (nearestMag_mid_above (2 * r + 1) (d := 2) (by norm_num)).1
  have b1 := (nearestMag_mid_below (2 * r + 1) (d := 2) (by norm_num) (by omega)).1
  generalize nearestMag (2 * r + 1) 2 = m at *
  have a2 : 2 * (r + 1) ≤ units m + units (m + 1) := by omega
  have b2 : units (m - 1) + units m ≤ 2 * r := by omega
  have a3 : (2 : ℝ) * (r + 1) ≤ units m + units (m + 1) := by exact_mod_cast a2
  have b3 : (units (m - 1) : ℝ) + units m ≤ 2 * r := by exact_mod_cast b2
  have hr : (0 : ℝ) ≤ r := by positivity
  have := roundsTo_of_mid (s := false) (y := y) hm (by linarith) (by linarith) (fun h => by linarith)
    (fun _ => by linarith) (fun _ h => by linarith)
  simpa [signOf] using this

/-- The root of `u` units: the root of `u * 2^149`, rounded once. -/
theorem roundsTo_sqrtMag {u : Nat} (h0 : 0 < u) (hu : u < 2 ^ 277) :
    RoundsTo (Real.sqrt (((u * 2 ^ 149 : Nat) : ℝ)) / 2 ^ 149) (ofMag false (sqrtMag u)) := by
  have hn : u * 2 ^ 149 < 4 ^ 214 :=
    calc u * 2 ^ 149 < 2 ^ 277 * 2 ^ 149 := Nat.mul_lt_mul_of_pos_right hu (by norm_num)
      _ ≤ 4 ^ 214 := by decide +kernel
  obtain ⟨i1, i2⟩ := isqrt_spec 214 (u * 2 ^ 149) hn
  obtain ⟨hge, hlt⟩ := isqrt_units_bounds h0 hu
  unfold sqrtMag
  simp only
  generalize u * 2 ^ 149 = n at *
  generalize isqrt 214 n = r at *
  split
  · rename_i hr
    have hf := (nearestMag_root hge hlt (Nat.zero_le 1)).1
    rw [Nat.add_zero] at hf ⊢
    have hs : Real.sqrt (n : ℝ) = r := by
      rw [← hr, Nat.cast_mul]
      exact Real.sqrt_mul_self (by positivity)
    have := roundsTo_round (s := false) (n := 2 * r) (d := 2) (by norm_num)
      (isFinite_round.mpr hf)
    have e : ((2 * r : Nat) : ℝ) / (2 : Nat) = r := by
      push_cast
      ring
    rw [e] at this
    rw [hs]
    unfold round signOf at this
    rwa [if_neg (by decide), one_mul] at this
  · rename_i hr
    rw [roundMag_of_lt (nearestMag_root hge hlt le_rfl).1]
    refine roundsTo_between hge hlt ?_ ?_
    · rw [Real.lt_sqrt (by positivity), sq]
      exact_mod_cast lt_of_le_of_ne i1 hr
    · rw [Real.sqrt_lt' (by positivity), sq]
      exact_mod_cast i2

end Sys2Proof.Machine.Fp
end

