-- ==== Sys2Proof/Laws/Series.lean ====
section
/-!
SUPPORT. The series behind the enclosures of Machine/Elementary.lean (spec/00_scope.md R12 to R14). A series is summed by its
tails: `S_j = a_j + m_j * S_{j+1}`, with `|a_j| <= 1` and `|m_j| <= q < 1`. The exponential, the logarithm, the arctangent and
the sine are such series, and the fixed-point sums enclose their tails.
-/

namespace Sys2Proof.Machine.Fp

-- One theorem at a time: many at once ask for more threads than the memory limit of a check allows.
set_option Elab.async false

/-! ### Division rounded down and up -/

theorem floor_le (n d : Nat) : ((n / d : Nat) : ℝ) ≤ (n : ℝ) / d := Nat.cast_div_le

theorem le_ceilDiv (n : Nat) {d : Nat} (hd : 0 < d) : (n : ℝ) / d ≤ (ceilDiv n d : Nat) := by
  rw [div_le_iff₀ (by exact_mod_cast hd)]
  have h : n ≤ ceilDiv n d * d := by
    unfold ceilDiv
    have := Nat.div_add_mod (n + d - 1) d
    have := Nat.mod_lt (n + d - 1) hd
    rw [Nat.mul_comm]
    omega
  exact_mod_cast h

theorem sub_le_cast (a b : Nat) : (a : ℝ) - b ≤ ((a - b : Nat) : ℝ) := by
  rw [sub_le_iff_le_add]
  exact_mod_cast (by omega : a ≤ a - b + b)

theorem cast_sub_le {a b : Nat} {x : ℝ} (h0 : 0 ≤ x) (h : (a : ℝ) - b ≤ x) : ((a - b : Nat) : ℝ) ≤ x := by
  rcases Nat.le_total b a with hb | hb
  · rwa [Nat.cast_sub hb]
  · rw [Nat.sub_eq_zero_of_le hb]
    simpa using h0

/-! ### A series by its tails -/

/-- Term `i` of tail `j`. -/
def tailTerm (a m : Nat → ℝ) : Nat → Nat → ℝ
  | 0, j => a j
  | i + 1, j => m j * tailTerm a m i (j + 1)

/-- Tail `j`. -/
noncomputable def tail (a m : Nat → ℝ) (j : Nat) : ℝ := ∑' i, tailTerm a m i j

section
variable {a m c : Nat → ℝ} {q : ℝ}

theorem abs_tailTerm (hc : Antitone c) (ha : ∀ j, |a j| ≤ c j) (hm : ∀ j, |m j| ≤ q) (i j : Nat) :
    |tailTerm a m i j| ≤ q ^ i * c j := by
  induction i generalizing j with
  | zero => simpa [tailTerm] using ha j
  | succ i ih =>
    have hq : 0 ≤ q := (abs_nonneg _).trans (hm 0)
    have h0 : 0 ≤ c j := (abs_nonneg _).trans (ha j)
    simp only [tailTerm]
    rw [abs_mul, pow_succ', mul_assoc]
    refine mul_le_mul (hm j) ((ih (j + 1)).trans ?_) (abs_nonneg _) hq
    exact mul_le_mul_of_nonneg_left (hc (Nat.le_succ j)) (pow_nonneg hq i)

theorem summable_tail (hc : Antitone c) (ha : ∀ j, |a j| ≤ c j) (hm : ∀ j, |m j| ≤ q) (hq : q < 1) (j : Nat) :
    Summable fun i => tailTerm a m i j :=
  Summable.of_norm_bounded ((summable_geometric_of_lt_one ((abs_nonneg _).trans (hm 0)) hq).mul_right (c j))
    fun i => abs_tailTerm hc ha hm i j

theorem tail_succ (hc : Antitone c) (ha : ∀ j, |a j| ≤ c j) (hm : ∀ j, |m j| ≤ q) (hq : q < 1) (j : Nat) :
    tail a m j = a j + m j * tail a m (j + 1) := by
  unfold tail
  rw [(summable_tail hc ha hm hq j).tsum_eq_zero_add, ← tsum_mul_left]
  rfl

theorem abs_tail (hc : Antitone c) (ha : ∀ j, |a j| ≤ c j) (hm : ∀ j, |m j| ≤ q) (hq : q < 1) (j : Nat) :
    |tail a m j| ≤ (1 - q)⁻¹ * c j :=
  tsum_of_norm_bounded (f := fun i => tailTerm a m i j)
    ((hasSum_geometric_of_lt_one ((abs_nonneg _).trans (hm 0)) hq).mul_right (c j)) fun i => abs_tailTerm hc ha hm i j

theorem tail_nonneg (ha : ∀ j, 0 ≤ a j) (hm : ∀ j, 0 ≤ m j) (j : Nat) : 0 ≤ tail a m j := by
  refine tsum_nonneg fun i => ?_
  induction i generalizing j with
  | zero => exact ha j
  | succ i ih => exact mul_nonneg (hm j) (ih (j + 1))

/-- Tail 0 of a series whose terms are known. -/
theorem tail_eq_of_hasSum {f : Nat → ℝ} {x : ℝ} (h : ∀ i, tailTerm a m i 0 = f i) (hf : HasSum f x) : tail a m 0 = x := by
  unfold tail
  simp only [h]
  exact hf.tsum_eq

/-- `1/(2j+1)`, the coefficients of the logarithm and the arctangent. -/
noncomputable def oddInv (j : Nat) : ℝ := 1 / (2 * j + 1)

theorem oddInv_antitone : Antitone oddInv := by
  intro i j h
  unfold oddInv
  have : (i : ℝ) ≤ j := by exact_mod_cast h
  gcongr

theorem oddInv_pos (j : Nat) : 0 < oddInv j := by
  unfold oddInv
  positivity

theorem oddInv_le_one (j : Nat) : oddInv j ≤ 1 := by
  have := oddInv_antitone (Nat.zero_le j)
  simpa [oddInv] using this

theorem oddInv_succ_le (j : Nat) : oddInv (j + 1) ≤ 1 / 3 := by
  have := oddInv_antitone (show 1 ≤ j + 1 by omega)
  refine this.trans (le_of_eq ?_)
  norm_num [oddInv]

theorem oddInv_term (w : ℝ) (i j : Nat) : tailTerm oddInv (fun _ => w) i j = w ^ i * oddInv (j + i) := by
  induction i generalizing j with
  | zero => simp [tailTerm]
  | succ i ih =>
    simp only [tailTerm]
    rw [ih, show j + 1 + i = j + (i + 1) by omega]
    ring

end

/-! ### The exponential -/

section
variable {z : ℝ}

/-- The tails of the exponential: `S_k = 1 + (z/k) * S_{k+1}`, at `k = j + 1`. -/
noncomputable def expTail (z : ℝ) : Nat → ℝ := tail (fun _ => 1) (fun j => z / (j + 1))

theorem expTerm (z : ℝ) (i j : Nat) :
    tailTerm (fun _ => 1) (fun j => z / (j + 1)) i j * (j + i).factorial = z ^ i * j.factorial := by
  induction i generalizing j with
  | zero => simp [tailTerm]
  | succ i ih =>
    simp only [tailTerm]
    have h := ih (j + 1)
    rw [show j + 1 + i = j + (i + 1) by omega] at h
    rw [mul_assoc, h, Nat.factorial_succ]
    have : ((j : ℝ) + 1) ≠ 0 := by positivity
    push_cast
    field_simp
    ring

theorem expTail_zero (z : ℝ) : expTail z 0 = Real.exp z := by
  have h : ∀ i, tailTerm (fun _ => 1) (fun j => z / (j + 1)) i 0 = z ^ i / i.factorial := by
    intro i
    have h := expTerm z i 0
    rw [Nat.zero_add] at h
    have : (i.factorial : ℝ) ≠ 0 := by positivity
    rw [eq_div_iff this, h]
    simp
  unfold expTail tail
  simp only [h]
  rw [Real.exp_eq_exp_ℝ]
  exact (NormedSpace.expSeries_div_hasSum_exp z).tsum_eq

theorem expTail_facts (h0 : 0 ≤ z) (h1 : z ≤ 7 / 10) (j : Nat) :
    expTail z j = 1 + z / (j + 1) * expTail z (j + 1) ∧ 1 ≤ expTail z j ∧ expTail z (j + 1) ≤ 2 := by
  have ha : ∀ _j : Nat, |(1 : ℝ)| ≤ 1 := fun _ => by simp
  have hle : ∀ j : Nat, z / (j + 1) ≤ z := fun j => div_le_self h0 (by norm_num)
  have hn : ∀ j : Nat, 0 ≤ z / (j + 1) := fun j => by positivity
  have hm : ∀ j : Nat, |z / (j + 1)| ≤ 7 / 10 := fun j => by
    rw [abs_of_nonneg (hn j)]
    exact (hle j).trans h1
  have hr : ∀ j, expTail z j = 1 + z / (j + 1) * expTail z (j + 1) := tail_succ antitone_const ha hm (by norm_num)
  have pos : ∀ j, 0 ≤ expTail z j := tail_nonneg (fun _ => zero_le_one) hn
  have up : ∀ j, expTail z j ≤ 10 / 3 := fun j => by
    have := (abs_le.mp (abs_tail antitone_const ha hm (by norm_num) j)).2
    norm_num at this
    exact this
  have half : ∀ j : Nat, z / ((j + 1 : Nat) + 1) ≤ 7 / 20 := fun j => by
    rw [div_le_iff₀ (by positivity)]
    push_cast
    nlinarith [show (0 : ℝ) ≤ j by positivity]
  have up1 : ∀ j, expTail z (j + 1) ≤ 13 / 6 := fun j => by
    rw [hr (j + 1)]
    nlinarith [mul_le_mul (half j) (up (j + 2)) (pos _) (by norm_num)]
  refine ⟨hr j, ?_, ?_⟩
  · rw [hr j]
    nlinarith [mul_nonneg (hn j) (pos (j + 1))]
  · rw [hr (j + 1)]
    nlinarith [mul_le_mul (half j) (up1 (j + 1)) (pos _) (by norm_num)]

theorem expLo_le {p zl : Nat} (h0 : 0 ≤ z) (h1 : z ≤ 7 / 10) (hz : (zl : ℝ) ≤ 2 ^ p * z) (n j : Nat) :
    (expLo p zl n (j + 1) : ℝ) ≤ 2 ^ p * expTail z j := by
  have hP : (0 : ℝ) < 2 ^ p := by positivity
  induction n generalizing j with
  | zero =>
    simp only [expLo]
    push_cast
    nlinarith [(expTail_facts h0 h1 j).2.1]
  | succ n ih =>
    simp only [expLo]
    obtain ⟨hr, -, -⟩ := expTail_facts h0 h1 j
    have h := ih (j + 1)
    have f := floor_le (zl * expLo p zl n (j + 1 + 1)) ((j + 1) * 2 ^ p)
    push_cast at f ⊢
    have hd : (0 : ℝ) < (j + 1) * 2 ^ p := by positivity
    have : (zl : ℝ) * expLo p zl n (j + 1 + 1) ≤ 2 ^ p * z * (2 ^ p * expTail z (j + 1)) :=
      mul_le_mul hz h (by positivity) (by positivity)
    calc _ ≤ (2 : ℝ) ^ p + zl * expLo p zl n (j + 1 + 1) / ((j + 1) * 2 ^ p) := by linarith
      _ ≤ 2 ^ p + 2 ^ p * z * (2 ^ p * expTail z (j + 1)) / ((j + 1) * 2 ^ p) := by gcongr
      _ = 2 ^ p * expTail z j := by
        rw [hr]
        field_simp

theorem le_expHi {p zh : Nat} (h0 : 0 ≤ z) (h1 : z ≤ 7 / 10) (hz : 2 ^ p * z ≤ (zh : ℝ)) (n j : Nat) (hj : 0 < n ∨ 0 < j) :
    2 ^ p * expTail z j ≤ (expHi p zh n (j + 1) : ℝ) := by
  have hP : (0 : ℝ) < 2 ^ p := by positivity
  induction n generalizing j with
  | zero =>
    simp only [expHi]
    push_cast
    obtain ⟨j, rfl⟩ : ∃ i, j = i + 1 := ⟨j - 1, by omega⟩
    nlinarith [(expTail_facts h0 h1 j).2.2]
  | succ n ih =>
    simp only [expHi]
    obtain ⟨hr, -, -⟩ := expTail_facts h0 h1 j
    have h := ih (j + 1) (.inr (by omega))
    have pos : 0 ≤ expTail z (j + 1) := zero_le_one.trans (expTail_facts h0 h1 (j + 1)).2.1
    have f := le_ceilDiv (zh * expHi p zh n (j + 1 + 1)) (d := (j + 1) * 2 ^ p) (by positivity)
    push_cast at f ⊢
    have : 2 ^ p * z * (2 ^ p * expTail z (j + 1)) ≤ (zh : ℝ) * expHi p zh n (j + 1 + 1) :=
      mul_le_mul hz h (by positivity) (by positivity)
    calc 2 ^ p * expTail z j = 2 ^ p + 2 ^ p * z * (2 ^ p * expTail z (j + 1)) / ((j + 1) * 2 ^ p) := by
          rw [hr]
          field_simp
      _ ≤ 2 ^ p + (zh : ℝ) * expHi p zh n (j + 1 + 1) / ((j + 1) * 2 ^ p) := by gcongr
      _ ≤ _ := by linarith

/-- The enclosure of the exponential of a fraction up to 7/10. -/
theorem exp_bounds {p zl zh n : Nat} (h0 : 0 ≤ z) (h1 : z ≤ 7 / 10) (hl : (zl : ℝ) ≤ 2 ^ p * z) (hh : 2 ^ p * z ≤ (zh : ℝ))
    (hn : 0 < n) :
    (expLo p zl n 1 : ℝ) ≤ 2 ^ p * Real.exp z ∧ 2 ^ p * Real.exp z ≤ (expHi p zh n 1 : ℝ) := by
  rw [← expTail_zero]
  exact ⟨expLo_le h0 h1 hl n 0, le_expHi h0 h1 hh n 0 (.inl hn)⟩

end

/-! ### The logarithm -/

section
variable {y : ℝ}

/-- The tails of the area tangent: `T_j = 1/(2j+1) + y * T_{j+1}`, with `artanh x = x * T_0` and `y = x^2`. -/
noncomputable def artanhTail (y : ℝ) : Nat → ℝ := tail oddInv fun _ => y

theorem artanhTail_zero {x : ℝ} (hx : |x| < 1) :
    2 * x * artanhTail (x ^ 2) 0 = Real.log (1 + x) - Real.log (1 - x) := by
  have h := Real.hasSum_log_sub_log_of_abs_lt_one hx
  have key : (fun k : Nat => 2 * x * ((x ^ 2) ^ k * oddInv (0 + k))) = fun k : Nat =>
      (2 : ℝ) * (1 / (2 * k + 1)) * x ^ (2 * k + 1) := by
    funext k
    rw [Nat.zero_add, oddInv, pow_succ x (2 * k), pow_mul]
    ring
  rw [← key] at h
  rw [← h.tsum_eq, tsum_mul_left]
  unfold artanhTail tail
  simp only [oddInv_term]

theorem artanhTail_facts (h0 : 0 ≤ y) (h1 : y ≤ 1 / 9) (j : Nat) :
    artanhTail y j = oddInv j + y * artanhTail y (j + 1) ∧ 0 ≤ artanhTail y j ∧ artanhTail y (j + 1) ≤ 1 := by
  have ha : ∀ j, |oddInv j| ≤ oddInv j := fun j => (abs_of_pos (oddInv_pos j)).le
  have hm : ∀ _j : Nat, |y| ≤ 1 / 9 := fun _ => by rwa [abs_of_nonneg h0]
  have hr : ∀ j, artanhTail y j = oddInv j + y * artanhTail y (j + 1) :=
    tail_succ oddInv_antitone ha hm (by norm_num)
  have pos : ∀ j, 0 ≤ artanhTail y j := tail_nonneg (fun j => (oddInv_pos j).le) fun _ => h0
  have up : ∀ j, artanhTail y j ≤ 9 / 8 := fun j => by
    have := (abs_le.mp (abs_tail oddInv_antitone ha hm (by norm_num) j)).2
    have h2 := oddInv_le_one j
    norm_num at this
    exact this.trans (by linarith)
  refine ⟨hr j, pos j, ?_⟩
  rw [hr (j + 1)]
  nlinarith [mul_le_mul h1 (up (j + 2)) (pos _) (by norm_num), oddInv_succ_le j]

theorem artanhLo_le {p yl : Nat} (h0 : 0 ≤ y) (h1 : y ≤ 1 / 9) (hy : (yl : ℝ) ≤ 2 ^ p * y) (n j : Nat) :
    (artanhLo p yl n j : ℝ) ≤ 2 ^ p * artanhTail y j := by
  have hP : (0 : ℝ) < 2 ^ p := by positivity
  induction n generalizing j with
  | zero =>
    simp only [artanhLo]
    have := (artanhTail_facts h0 h1 j).2.1
    push_cast
    positivity
  | succ n ih =>
    simp only [artanhLo]
    rw [(artanhTail_facts h0 h1 j).1]
    have f1 := floor_le (2 ^ p) (2 * j + 1)
    have f2 := floor_le (yl * artanhLo p yl n (j + 1)) (2 ^ p)
    push_cast at f1 f2 ⊢
    have : (yl : ℝ) * artanhLo p yl n (j + 1) ≤ 2 ^ p * y * (2 ^ p * artanhTail y (j + 1)) :=
      mul_le_mul hy (ih (j + 1)) (by positivity) (by positivity)
    have h3 : (yl : ℝ) * artanhLo p yl n (j + 1) / 2 ^ p ≤ y * (2 ^ p * artanhTail y (j + 1)) := by
      rw [div_le_iff₀ hP]
      linarith
    unfold oddInv
    calc _ ≤ (2 : ℝ) ^ p / (2 * j + 1) + y * (2 ^ p * artanhTail y (j + 1)) := by linarith
      _ = _ := by ring

theorem le_artanhHi {p yh : Nat} (h0 : 0 ≤ y) (h1 : y ≤ 1 / 9) (hy : 2 ^ p * y ≤ (yh : ℝ)) (n j : Nat) (hj : 0 < n ∨ 0 < j) :
    2 ^ p * artanhTail y j ≤ (artanhHi p yh n j : ℝ) := by
  have hP : (0 : ℝ) < 2 ^ p := by positivity
  induction n generalizing j with
  | zero =>
    simp only [artanhHi]
    obtain ⟨j, rfl⟩ : ∃ i, j = i + 1 := ⟨j - 1, by omega⟩
    have := (artanhTail_facts h0 h1 j).2.2
    push_cast
    nlinarith
  | succ n ih =>
    simp only [artanhHi]
    rw [(artanhTail_facts h0 h1 j).1]
    have f1 := le_ceilDiv (2 ^ p) (d := 2 * j + 1) (by omega)
    have f2 := le_ceilDiv (yh * artanhHi p yh n (j + 1)) (d := 2 ^ p) (by positivity)
    push_cast at f1 f2 ⊢
    have pos := (artanhTail_facts h0 h1 (j + 1)).2.1
    have : 2 ^ p * y * (2 ^ p * artanhTail y (j + 1)) ≤ (yh : ℝ) * artanhHi p yh n (j + 1) :=
      mul_le_mul hy (ih (j + 1) (.inr (by omega))) (by positivity) (by positivity)
    have h3 : y * (2 ^ p * artanhTail y (j + 1)) ≤ (yh : ℝ) * artanhHi p yh n (j + 1) / 2 ^ p := by
      rw [le_div_iff₀ hP]
      linarith
    unfold oddInv
    calc _ = (2 : ℝ) ^ p / (2 * j + 1) + y * (2 ^ p * artanhTail y (j + 1)) := by ring
      _ ≤ _ := by linarith

/-- The enclosure of `ln ((b + a)/(b - a))` for `0 <= a/b <= 1/3`. -/
theorem ln_bounds {p a b : Nat} (hb : 0 < b) (hab : 3 * a ≤ b) :
    ((lnBounds p a b).1 : ℝ) ≤ 2 ^ p * Real.log (((b : ℝ) + a) / (b - a)) ∧
      2 ^ p * Real.log (((b : ℝ) + a) / (b - a)) ≤ ((lnBounds p a b).2 : ℝ) := by
  have hbr : (0 : ℝ) < b := by exact_mod_cast hb
  have habr : 3 * (a : ℝ) ≤ b := by exact_mod_cast hab
  have ha : (0 : ℝ) ≤ a := by positivity
  have hx0 : (0 : ℝ) ≤ a / b := by positivity
  have hx1 : (a : ℝ) / b ≤ 1 / 3 := by
    rw [div_le_iff₀ hbr]
    linarith
  have hy0 : (0 : ℝ) ≤ (a / b) ^ 2 := by positivity
  have hy1 : ((a : ℝ) / b) ^ 2 ≤ 1 / 9 := by nlinarith
  have hlog : Real.log (((b : ℝ) + a) / (b - a)) = 2 * (a / b) * artanhTail ((a / b) ^ 2) 0 := by
    rw [artanhTail_zero (by rw [abs_of_nonneg hx0]; linarith), ← Real.log_div (by positivity) (by linarith)]
    congr 1
    have : (b : ℝ) - a ≠ 0 := by linarith
    have : (1 : ℝ) - a / b ≠ 0 := by linarith
    field_simp
  rw [hlog]
  have f1 := floor_le (a * a * 2 ^ p) (b * b)
  have f2 := le_ceilDiv (a * a * 2 ^ p) (d := b * b) (by positivity)
  have e : ((a * a * 2 ^ p : Nat) : ℝ) / ((b * b : Nat) : ℝ) = 2 ^ p * (a / b) ^ 2 := by
    push_cast
    field_simp
  rw [e] at f1 f2
  have l := artanhLo_le hy0 hy1 f1 (terms p) 0
  have u := le_artanhHi hy0 hy1 f2 (terms p) 0 (.inl (by unfold terms; omega))
  unfold lnBounds
  have g1 := floor_le (2 * a * artanhLo p (a * a * 2 ^ p / (b * b)) (terms p) 0) b
  have g2 := le_ceilDiv (2 * a * artanhHi p (ceilDiv (a * a * 2 ^ p) (b * b)) (terms p) 0) hb
  constructor
  · refine g1.trans ?_
    push_cast
    rw [div_le_iff₀ hbr]
    calc _ ≤ 2 * (a : ℝ) * (2 ^ p * artanhTail ((a / b) ^ 2) 0) := by gcongr
      _ = _ := by field_simp
  · refine le_trans ?_ g2
    push_cast
    rw [le_div_iff₀ hbr]
    calc _ = 2 * (a : ℝ) * (2 ^ p * artanhTail ((a / b) ^ 2) 0) := by field_simp
      _ ≤ _ := by gcongr

/-- The enclosure of `ln 2`. -/
theorem ln2_bounds (p : Nat) :
    ((ln2Bounds p).1 : ℝ) ≤ 2 ^ p * Real.log 2 ∧ 2 ^ p * Real.log 2 ≤ ((ln2Bounds p).2 : ℝ) := by
  have h := ln_bounds (p := p) (a := 1) (b := 3) (by norm_num) (by norm_num)
  norm_num at h
  exact h

end

/-! ### The arctangent and pi -/

section
variable {w : ℝ}

/-- The tails of the arctangent: `A_j = 1/(2j+1) - w * A_{j+1}`, with `arctan x = x * A_0` and `w = x^2`. -/
noncomputable def atanTail (w : ℝ) : Nat → ℝ := tail oddInv fun _ => -w

theorem atanTail_zero {x : ℝ} (hx : |x| < 1) : x * atanTail (x ^ 2) 0 = Real.arctan x := by
  have h := Real.hasSum_arctan (x := x) (by simpa using hx)
  have key : (fun k : Nat => x * ((-(x ^ 2)) ^ k * oddInv (0 + k))) = fun k : Nat =>
      (-1) ^ k * x ^ (2 * k + 1) / ((2 * k + 1 : Nat) : ℝ) := by
    funext k
    rw [Nat.zero_add, oddInv, pow_succ x (2 * k), pow_mul, neg_pow (x ^ 2)]
    push_cast
    ring
  rw [← key] at h
  rw [← h.tsum_eq, tsum_mul_left]
  unfold atanTail tail
  simp only [oddInv_term]

theorem atanTail_facts (h0 : 0 ≤ w) (h1 : w ≤ 1 / 25) (j : Nat) :
    atanTail w j = oddInv j - w * atanTail w (j + 1) ∧ 0 ≤ atanTail w j ∧ atanTail w j ≤ 1 := by
  have ha : ∀ j, |oddInv j| ≤ oddInv j := fun j => (abs_of_pos (oddInv_pos j)).le
  have hm : ∀ _j : Nat, |-w| ≤ 1 / 25 := fun _ => by rwa [abs_neg, abs_of_nonneg h0]
  have hr : ∀ j, atanTail w j = oddInv j - w * atanTail w (j + 1) := fun j => by
    have := tail_succ oddInv_antitone ha hm (by norm_num) j
    unfold atanTail
    linarith
  have up : ∀ j, atanTail w j ≤ 25 / 24 * oddInv j := fun j => by
    have := (abs_le.mp (abs_tail oddInv_antitone ha hm (by norm_num) j)).2
    norm_num at this
    exact this
  have pos : ∀ j, 0 ≤ atanTail w j := fun j => by
    rw [hr j]
    have h2 := up (j + 1)
    have h3 := oddInv_antitone (Nat.le_succ j)
    have h4 := oddInv_pos (j + 1)
    nlinarith [mul_le_mul_of_nonneg_left h2 h0]
  refine ⟨hr j, pos j, ?_⟩
  rw [hr j]
  nlinarith [mul_nonneg h0 (pos (j + 1)), oddInv_le_one j]

theorem atan_bounds {p q : Nat} (hq : 5 ≤ q) (n j : Nat) :
    ((atanBounds p q n j).1 : ℝ) ≤ 2 ^ p * atanTail ((q : ℝ)⁻¹ ^ 2) j ∧
      2 ^ p * atanTail ((q : ℝ)⁻¹ ^ 2) j ≤ ((atanBounds p q n j).2 : ℝ) := by
  have hP : (0 : ℝ) < 2 ^ p := by positivity
  have hqr : (5 : ℝ) ≤ q := by exact_mod_cast hq
  have h0 : (0 : ℝ) ≤ (q : ℝ)⁻¹ ^ 2 := by positivity
  have h1 : (q : ℝ)⁻¹ ^ 2 ≤ 1 / 25 := by
    have : (q : ℝ)⁻¹ ≤ 5⁻¹ := by gcongr
    have : (0 : ℝ) ≤ (q : ℝ)⁻¹ := by positivity
    nlinarith
  have hqq : 0 < q * q := by nlinarith
  have hw : ∀ t : ℝ, t / ((q * q : Nat) : ℝ) = (q : ℝ)⁻¹ ^ 2 * t := by
    intro t
    push_cast
    field_simp
  generalize (q : ℝ)⁻¹ ^ 2 = w at *
  induction n generalizing j with
  | zero =>
    obtain ⟨-, l, u⟩ := atanTail_facts h0 h1 j
    simp only [atanBounds]
    push_cast
    constructor
    · positivity
    · nlinarith
  | succ n ih =>
    obtain ⟨hr, l, -⟩ := atanTail_facts h0 h1 j
    obtain ⟨il, iu⟩ := ih (j + 1)
    simp only [atanBounds]
    have f1 := floor_le (2 ^ p) (2 * j + 1)
    have f2 := le_ceilDiv (2 ^ p) (d := 2 * j + 1) (by omega)
    have g1 := floor_le (atanBounds p q n (j + 1)).1 (q * q)
    have g2 := le_ceilDiv (atanBounds p q n (j + 1)).2 hqq
    rw [hw] at g1 g2
    have e : ((2 ^ p : Nat) : ℝ) / ((2 * j + 1 : Nat) : ℝ) = 2 ^ p * oddInv j := by
      unfold oddInv
      push_cast
      ring
    rw [e] at f1 f2
    have m1 := mul_le_mul_of_nonneg_left il h0
    have m2 := mul_le_mul_of_nonneg_left iu h0
    constructor
    · refine cast_sub_le (by positivity) ?_
      rw [hr]
      nlinarith
    · refine le_trans ?_ (sub_le_cast _ _)
      rw [hr]
      nlinarith

/-- The enclosure of pi, by Machin's formula. -/
theorem pi_bounds (p : Nat) :
    ((piBounds p).1 : ℝ) ≤ 2 ^ p * Real.pi ∧ 2 ^ p * Real.pi ≤ ((piBounds p).2 : ℝ) := by
  have hP : (0 : ℝ) < 2 ^ p := by positivity
  obtain ⟨u1, u2⟩ := atan_bounds (p := p) (q := 5) le_rfl (terms p) 0
  obtain ⟨v1, v2⟩ := atan_bounds (p := p) (q := 239) (by norm_num) (terms p) 0
  have hpi : Real.pi = 16 / 5 * atanTail (((5 : Nat) : ℝ)⁻¹ ^ 2) 0 - 4 / 239 * atanTail (((239 : Nat) : ℝ)⁻¹ ^ 2) 0 := by
    have m := Real.four_mul_arctan_inv_5_sub_arctan_inv_239
    have a5 := atanTail_zero (x := ((5 : Nat) : ℝ)⁻¹) (by rw [abs_of_nonneg (by positivity)]; norm_num)
    have a239 := atanTail_zero (x := ((239 : Nat) : ℝ)⁻¹) (by rw [abs_of_nonneg (by positivity)]; norm_num)
    push_cast at a5 a239 ⊢
    rw [← a5, ← a239] at m
    linarith
  unfold piBounds
  simp only
  have f1 := floor_le (16 * (atanBounds p 5 (terms p) 0).1) 5
  have f2 := le_ceilDiv (16 * (atanBounds p 5 (terms p) 0).2) (d := 5) (by norm_num)
  have g1 := floor_le (4 * (atanBounds p 239 (terms p) 0).1) 239
  have g2 := le_ceilDiv (4 * (atanBounds p 239 (terms p) 0).2) (d := 239) (by norm_num)
  push_cast at f1 f2 g1 g2
  constructor
  · refine cast_sub_le (by positivity) ?_
    rw [hpi]
    nlinarith
  · refine le_trans ?_ (sub_le_cast _ _)
    rw [hpi]
    nlinarith

end

/-! ### The sine -/

section
variable {v : ℝ}

/-- The tails of the sine: `U_k = 1 - (v/(2k(2k+1))) * U_{k+1}` at `k = j + 1`, with `sin z = z * U_1` and `v = z^2`. -/
noncomputable def sinTail (v : ℝ) : Nat → ℝ := tail (fun _ => 1) fun j => -(v / ((2 * j + 2) * (2 * j + 3)))

theorem sinTerm (v : ℝ) (i j : Nat) :
    tailTerm (fun _ => 1) (fun j => -(v / ((2 * j + 2) * (2 * j + 3)))) i j * (2 * (j + i) + 1).factorial =
      (-v) ^ i * (2 * j + 1).factorial := by
  induction i generalizing j with
  | zero => simp [tailTerm]
  | succ i ih =>
    simp only [tailTerm]
    have h := ih (j + 1)
    rw [show j + 1 + i = j + (i + 1) by omega] at h
    rw [mul_assoc, h, show 2 * (j + 1) + 1 = 2 * j + 1 + 1 + 1 by omega, Nat.factorial_succ, Nat.factorial_succ (2 * j + 1)]
    have : ((2 * j + 2 : ℝ)) ≠ 0 := by positivity
    have : ((2 * j + 3 : ℝ)) ≠ 0 := by positivity
    push_cast
    field_simp
    ring

theorem sinTail_zero (z : ℝ) : z * sinTail (z ^ 2) 0 = Real.sin z := by
  have h : ∀ i, tailTerm (fun _ => 1) (fun j : Nat => -(z ^ 2 / ((2 * j + 2) * (2 * j + 3)))) i 0 =
      (-(z ^ 2)) ^ i / (2 * i + 1).factorial := by
    intro i
    have h := sinTerm (z ^ 2) i 0
    rw [Nat.zero_add] at h
    have : ((2 * i + 1).factorial : ℝ) ≠ 0 := by positivity
    rw [eq_div_iff this, h]
    simp
  have hs := Real.hasSum_sin z
  have key : (fun n : Nat => z * ((-(z ^ 2)) ^ n / ((2 * n + 1).factorial : ℝ))) = fun n : Nat =>
      (-1) ^ n * z ^ (2 * n + 1) / ((2 * n + 1).factorial : ℝ) := by
    funext n
    rw [pow_succ z (2 * n), pow_mul, neg_pow (z ^ 2)]
    ring
  rw [← key] at hs
  rw [← hs.tsum_eq, tsum_mul_left]
  unfold sinTail tail
  simp only [h]

theorem sinTail_facts (h0 : 0 ≤ v) (h1 : v ≤ 5 / 2) (j : Nat) :
    sinTail v j = 1 - v / ((2 * j + 2) * (2 * j + 3)) * sinTail v (j + 1) ∧ 0 ≤ sinTail v j ∧ sinTail v j ≤ 1 := by
  have ha : ∀ _j : Nat, |(1 : ℝ)| ≤ 1 := fun _ => by simp
  have hn : ∀ j : Nat, 0 ≤ v / ((2 * j + 2) * (2 * j + 3)) := fun j => by positivity
  have hq : ∀ j : Nat, v / ((2 * j + 2) * (2 * j + 3)) ≤ 5 / 12 := fun j => by
    rw [div_le_iff₀ (by positivity)]
    nlinarith [show (0 : ℝ) ≤ j by positivity]
  have hm : ∀ j : Nat, |-(v / ((2 * j + 2) * (2 * j + 3)))| ≤ 5 / 12 := fun j => by
    rw [abs_neg, abs_of_nonneg (hn j)]
    exact hq j
  have hr : ∀ j, sinTail v j = 1 - v / ((2 * j + 2) * (2 * j + 3)) * sinTail v (j + 1) := fun j => by
    have := tail_succ antitone_const ha hm (by norm_num) j
    unfold sinTail
    linarith
  have up : ∀ j, sinTail v j ≤ 12 / 7 := fun j => by
    have := (abs_le.mp (abs_tail antitone_const ha hm (by norm_num) j)).2
    norm_num at this
    exact this
  have pos : ∀ j, 0 ≤ sinTail v j := fun j => by
    rw [hr j]
    nlinarith [mul_le_mul_of_nonneg_left (up (j + 1)) (hn j), hq j]
  refine ⟨hr j, pos j, ?_⟩
  rw [hr j]
  nlinarith [mul_nonneg (hn j) (pos (j + 1))]

theorem sin_bounds {p lo hi : Nat} (h0 : 0 ≤ v) (h1 : v ≤ 5 / 2) (hl : (lo : ℝ) ≤ 2 ^ p * v) (hh : 2 ^ p * v ≤ (hi : ℝ))
    (n j : Nat) :
    ((sinBounds p lo hi n (j + 1)).1 : ℝ) ≤ 2 ^ p * sinTail v j ∧
      2 ^ p * sinTail v j ≤ ((sinBounds p lo hi n (j + 1)).2 : ℝ) := by
  have hP : (0 : ℝ) < 2 ^ p := by positivity
  induction n generalizing j with
  | zero =>
    obtain ⟨-, l, u⟩ := sinTail_facts h0 h1 j
    simp only [sinBounds]
    push_cast
    constructor
    · positivity
    · nlinarith
  | succ n ih =>
    obtain ⟨hr, l, -⟩ := sinTail_facts h0 h1 j
    have l' := (sinTail_facts h0 h1 (j + 1)).2.1
    obtain ⟨il, iu⟩ := ih (j + 1)
    simp only [sinBounds]
    generalize sinBounds p lo hi n (j + 1 + 1) = r at *
    have hd : 0 < 2 * (j + 1) * (2 * (j + 1) + 1) * 2 ^ p := by positivity
    have f1 := floor_le (lo * r.1) (2 * (j + 1) * (2 * (j + 1) + 1) * 2 ^ p)
    have f2 := le_ceilDiv (hi * r.2) hd
    push_cast at f1 f2
    have m1 : (lo : ℝ) * r.1 ≤ 2 ^ p * v * (2 ^ p * sinTail v (j + 1)) := mul_le_mul hl il (by positivity) (by positivity)
    have m2 : 2 ^ p * v * (2 ^ p * sinTail v (j + 1)) ≤ (hi : ℝ) * r.2 := mul_le_mul hh iu (by positivity) (by positivity)
    have e : 2 ^ p * v * (2 ^ p * sinTail v (j + 1)) / (2 * (j + 1) * (2 * (j + 1) + 1) * 2 ^ p) =
        2 ^ p * (v / ((2 * j + 2) * (2 * j + 3)) * sinTail v (j + 1)) := by
      field_simp
      ring
    have g1 : (lo : ℝ) * r.1 / (2 * (j + 1) * (2 * (j + 1) + 1) * 2 ^ p) ≤
        2 ^ p * (v / ((2 * j + 2) * (2 * j + 3)) * sinTail v (j + 1)) := by
      rw [← e]
      gcongr
    have g2 : 2 ^ p * (v / ((2 * j + 2) * (2 * j + 3)) * sinTail v (j + 1)) ≤
        (hi : ℝ) * r.2 / (2 * (j + 1) * (2 * (j + 1) + 1) * 2 ^ p) := by
      rw [← e]
      gcongr
    constructor
    · refine cast_sub_le (by positivity) ?_
      rw [hr]
      push_cast
      nlinarith
    · refine le_trans ?_ (sub_le_cast _ _)
      rw [hr]
      push_cast
      nlinarith

end

end Sys2Proof.Machine.Fp
end

