-- ==== Sys2Proof/Laws/Elementary.lean ====
section
/-!
SUPPORT. The enclosures of the elementary functions enclose (spec/00_scope.md R12, R13, R14): where both bounds of a function
round to one binary32 number, that number is the real result rounded once.
-/

namespace Sys2Proof.Machine.Fp

-- One theorem at a time: many at once ask for more threads than the memory limit of a check allows.
set_option Elab.async false

/-- Where the enclosure decides, `settle` answers a rounding both bounds share. -/
theorem settle_of_decided {b : Nat → F32 × F32} (h : Decided b) : ∃ p, settle b = (b p).1 ∧ (b p).1 = (b p).2 := by
  unfold settle
  split
  · exact ⟨96, rfl, by assumption⟩
  · split
    · exact ⟨192, rfl, by assumption⟩
    · rename_i h1 h2
      exact ⟨384, rfl, (h.resolve_left h1).resolve_left h2⟩

/-- A fixed-point value, rounded. -/
theorem roundsTo_roundFixed {p : Nat} {v : Int} (hf : isFinite (roundFixed p v) = true) :
    RoundsTo ((v : ℝ) / 2 ^ p) (roundFixed p v) := by
  have h := roundsTo_round (by positivity) hf
  unfold roundFixed
  convert h using 1
  have e : (((v.natAbs * 2 ^ 149 : Nat) : ℝ)) / ((2 ^ p : Nat) : ℝ) / 2 ^ 149 = |(v : ℝ)| / 2 ^ p := by
    rw [Nat.cast_mul, Nat.cast_natAbs, Int.cast_abs, Nat.cast_pow, Nat.cast_pow, Nat.cast_ofNat]
    field_simp
  rw [e]
  by_cases h0 : v < 0
  · have hr : (v : ℝ) < 0 := by exact_mod_cast h0
    simp [signOf, h0, abs_of_neg hr, neg_div]
  · have hr : (0 : ℝ) ≤ v := by exact_mod_cast not_lt.mp h0
    simp [signOf, h0, abs_of_nonneg hr]

/-! ### HzToMidi -/

/-- `u` units lie in the octave `octaveOf u` above 440 Hz. -/
theorem octave_spec {u : Nat} (h : 0 < u) :
    (octaveFraction u (octaveOf u)).2 ≤ (octaveFraction u (octaveOf u)).1 ∧
      (octaveFraction u (octaveOf u)).1 < 2 * (octaveFraction u (octaveOf u)).2 := by
  have l1 : 2 ^ Nat.log2 u ≤ u := Nat.log2_self_le (by omega)
  have l2 : u < 2 ^ (Nat.log2 u + 1) := Nat.lt_log2_self
  unfold octaveFraction octaveOf
  simp only
  generalize Nat.log2 u = n at *
  have e : ∀ a b c : Nat, a + b = c → 2 ^ a * 2 ^ b = 2 ^ c := fun a b c h => by rw [← pow_add, h]
  split
  · rename_i hc
    rcases Nat.lt_or_ge n 158 with hn | hn
    · obtain ⟨j, hj⟩ : ∃ j, n + j = 157 := ⟨157 - n, by omega⟩
      have e1 : (-((n : Int) - 157 - 1)).toNat = j + 1 := by omega
      have e2 : ((n : Int) - 157 - 1).toNat = 0 := by omega
      rw [e1, e2, pow_zero, mul_one]
      have hp := e n j 157 hj
      have hpos : 0 < 2 ^ n := by positivity
      rw [← hp] at hc
      have hc' : u * 2 ^ j < 55 * 2 ^ 152 := by
        have : (u * 2 ^ j) * 2 ^ n < 55 * 2 ^ 152 * 2 ^ n := by
          calc (u * 2 ^ j) * 2 ^ n = u * (2 ^ n * 2 ^ j) := by ring
            _ < _ := hc
        exact Nat.lt_of_mul_lt_mul_right this
      have hlo : 2 ^ 157 ≤ u * 2 ^ j := by
        rw [← hp]
        exact Nat.mul_le_mul_right _ l1
      rw [show u * 2 ^ (j + 1) = 2 * (u * 2 ^ j) by ring]
      generalize u * 2 ^ j = t at *
      constructor <;> omega
    · obtain ⟨j, hj⟩ : ∃ j, n = 158 + j := ⟨n - 158, by omega⟩
      have e1 : (-((n : Int) - 157 - 1)).toNat = 0 := by omega
      have e2 : ((n : Int) - 157 - 1).toNat = j := by omega
      rw [e1, e2, pow_zero, mul_one]
      subst hj
      rw [pow_add] at hc l1
      have hpos : 0 < 2 ^ j := by positivity
      generalize 2 ^ j = t at *
      constructor <;> omega
  · rename_i hc
    have hc := Nat.not_lt.mp hc
    rcases Nat.lt_or_ge n 157 with hn | hn
    · obtain ⟨j, hj⟩ : ∃ j, n + j = 157 := ⟨157 - n, by omega⟩
      have e1 : (-((n : Int) - 157)).toNat = j := by omega
      have e2 : ((n : Int) - 157).toNat = 0 := by omega
      rw [e1, e2, pow_zero, mul_one]
      have hp := e n j 157 hj
      have hpos : 0 < 2 ^ n := by positivity
      rw [← hp] at hc
      have hc' : 55 * 2 ^ 152 ≤ u * 2 ^ j := by
        have : 55 * 2 ^ 152 * 2 ^ n ≤ (u * 2 ^ j) * 2 ^ n := by
          calc _ ≤ u * (2 ^ n * 2 ^ j) := hc
            _ = (u * 2 ^ j) * 2 ^ n := by ring
        exact Nat.le_of_mul_le_mul_right this hpos
      have hhi : u * 2 ^ j < 2 ^ 158 := by
        have := Nat.mul_lt_mul_of_pos_right l2 (show 0 < 2 ^ j by positivity)
        rwa [← pow_add, show n + 1 + j = 158 by omega] at this
      omega
    · obtain ⟨j, hj⟩ : ∃ j, n = 157 + j := ⟨n - 157, by omega⟩
      have e1 : (-((n : Int) - 157)).toNat = 0 := by omega
      have e2 : ((n : Int) - 157).toNat = j := by omega
      rw [e1, e2, pow_zero, mul_one]
      subst hj
      rw [pow_add] at hc
      rw [show 157 + j + 1 = 158 + j by omega, pow_add] at l2
      have hpos : 0 < 2 ^ j := by positivity
      generalize 2 ^ j = t at *
      constructor <;> omega

/-- The logarithm of `u` units over 440 Hz is the octave and the logarithm of the fraction. -/
theorem logb_octave {u : Nat} (h : 0 < u) (k : Int) :
    Real.logb 2 ((u : ℝ) / 2 ^ 149 / 440) =
      k + Real.log (((octaveFraction u k).1 : ℝ) / (octaveFraction u k).2) / Real.log 2 := by
  have hl : Real.log 2 ≠ 0 := (Real.log_pos (by norm_num)).ne'
  have hu : (0 : ℝ) < u := by exact_mod_cast h
  have hk : (2 : ℝ) ^ (-k).toNat = 2 ^ k.toNat / (2 : ℝ) ^ k := by
    have : ((-k).toNat : Int) = k.toNat - k := by omega
    rw [← zpow_natCast, this, zpow_sub₀ (by norm_num), zpow_natCast]
  have e : (u : ℝ) / 2 ^ 149 / 440 = 2 ^ k * (((octaveFraction u k).1 : ℝ) / (octaveFraction u k).2) := by
    unfold octaveFraction
    push_cast
    rw [hk]
    have : (2 : ℝ) ^ k ≠ 0 := by positivity
    field_simp
    norm_num
  have hpos : (0 : ℝ) < ((octaveFraction u k).1 : ℝ) / (octaveFraction u k).2 := by
    unfold octaveFraction
    push_cast
    positivity
  rw [e, Real.logb, Real.log_mul (by positivity) hpos.ne', Real.log_zpow, add_div, mul_div_assoc, div_self hl, mul_one]

/-- Where both bounds of HzToMidi round to one number, it is the real result rounded once. -/
theorem roundsTo_hzToMidiBounds {u p : Nat} (h : 0 < u) (hc1 : 0 < (ln2Bounds p).1)
    (he : (hzToMidiBounds u p).1 = (hzToMidiBounds u p).2)
    (hf : isFinite (hzToMidiBounds u p).1 = true) :
    RoundsTo (69 + 12 * Real.logb 2 ((u : ℝ) / 2 ^ 149 / 440)) (hzToMidiBounds u p).1 := by
  have hf2 := hf
  rw [he] at hf2
  have hl2 : 0 < Real.log 2 := Real.log_pos (by norm_num)
  have hP : (0 : ℝ) < 2 ^ p := by positivity
  obtain ⟨o1, o2⟩ := octave_spec h
  rw [logb_octave h (octaveOf u)]
  unfold hzToMidiBounds at he hf hf2 ⊢
  simp only at he hf hf2 ⊢
  generalize octaveOf u = k at *
  generalize hr : octaveFraction u k = r at *
  have r2 : 0 < r.2 := by
    rw [← hr]
    unfold octaveFraction
    positivity
  have r2r : (0 : ℝ) < r.2 := by exact_mod_cast r2
  obtain ⟨c1, c2⟩ := ln2_bounds p
  obtain ⟨l1, l2⟩ := ln_bounds (p := p) (a := r.1 - r.2) (b := r.1 + r.2) (by omega) (by omega)
  have e : (((r.1 + r.2 : Nat) : ℝ) + ((r.1 - r.2 : Nat) : ℝ)) / (((r.1 + r.2 : Nat) : ℝ) - ((r.1 - r.2 : Nat) : ℝ)) =
      (r.1 : ℝ) / r.2 := by
    rw [Nat.cast_sub o1]
    push_cast
    rw [show (r.1 : ℝ) + r.2 + (r.1 - r.2) = 2 * r.1 by ring, show (r.1 : ℝ) + r.2 - (r.1 - r.2) = 2 * r.2 by ring,
      mul_div_mul_left _ _ (by norm_num)]
  rw [e] at l1 l2
  have hlog0 : 0 ≤ Real.log ((r.1 : ℝ) / r.2) := Real.log_nonneg (by
    rw [le_div_iff₀ r2r, one_mul]
    exact_mod_cast o1)
  generalize lnBounds p (r.1 - r.2) (r.1 + r.2) = l at *
  generalize Real.log ((r.1 : ℝ) / r.2) = x at *
  have hc2 : (0 : ℝ) < (ln2Bounds p).2 := lt_of_lt_of_le (by positivity) c2
  have lower : (((l.1 * 2 ^ p / (ln2Bounds p).2 : Nat)) : ℝ) ≤ 2 ^ p * (x / Real.log 2) := by
    refine (floor_le _ _).trans ?_
    rw [div_le_iff₀ hc2]
    push_cast
    calc (l.1 : ℝ) * 2 ^ p ≤ 2 ^ p * x * 2 ^ p := by gcongr
      _ = 2 ^ p * (x / Real.log 2) * (2 ^ p * Real.log 2) := by field_simp
      _ ≤ _ := by gcongr
  have hA := roundsTo_roundFixed hf
  have hB := roundsTo_roundFixed hf2
  rw [← he] at hB
  have hc1r : (0 : ℝ) < (ln2Bounds p).1 := by exact_mod_cast hc1
  have upper : 2 ^ p * (x / Real.log 2) ≤ (((ceilDiv (l.2 * 2 ^ p) (ln2Bounds p).1 : Nat)) : ℝ) := by
    refine le_trans ?_ (le_ceilDiv _ hc1)
    rw [le_div_iff₀ hc1r]
    push_cast
    calc 2 ^ p * (x / Real.log 2) * ((ln2Bounds p).1 : ℝ) ≤ 2 ^ p * (x / Real.log 2) * (2 ^ p * Real.log 2) := by gcongr
      _ = 2 ^ p * x * 2 ^ p := by field_simp
      _ ≤ _ := by gcongr
  generalize l.1 * 2 ^ p / (ln2Bounds p).2 = A at *
  generalize ceilDiv (l.2 * 2 ^ p) (ln2Bounds p).1 = B at *
  refine hA.squeeze hB ?_ ?_
  · push_cast
    rw [div_le_iff₀ hP]
    nlinarith
  · push_cast
    rw [le_div_iff₀ hP]
    nlinarith

/-- A bound of a fraction bounds its floor. -/
theorem floor_le_of {n d : Nat} {y : ℝ} (hd : 0 < d) (h : (n : ℝ) ≤ y * d) : ((n / d : Nat) : ℝ) ≤ y :=
  (floor_le n d).trans ((div_le_iff₀ (by exact_mod_cast hd)).mpr h)

/-- A bound of a fraction bounds its ceiling. -/
theorem le_ceilDiv_of {n d : Nat} {y : ℝ} (hd : 0 < d) (h : y * d ≤ (n : ℝ)) : y ≤ (ceilDiv n d : ℝ) :=
  ((le_div_iff₀ (by exact_mod_cast hd)).mpr h).trans (le_ceilDiv n hd)

/-! ### MidiToHz -/

/-- An octave scaling, rounded. -/
theorem roundsTo_roundOctave {p e : Nat} {k : Int} (hf : isFinite (roundOctave p k e) = true) :
    RoundsTo (440 * (2 : ℝ) ^ k * ((e : ℝ) / 2 ^ p)) (roundOctave p k e) := by
  have h := roundsTo_round (s := false) (by positivity) hf
  unfold roundOctave
  convert h using 1
  have hk : (2 : ℝ) ^ (-k).toNat = 2 ^ k.toNat / (2 : ℝ) ^ k := by
    have : ((-k).toNat : Int) = k.toNat - k := by omega
    rw [← zpow_natCast, this, zpow_sub₀ (by norm_num), zpow_natCast]
  push_cast
  rw [hk]
  have : (2 : ℝ) ^ k ≠ 0 := by positivity
  simp only [signOf, Bool.false_eq_true, if_false]
  field_simp
  norm_num

/-- Where both bounds of MidiToHz round to one number, it is the real result rounded once. -/
theorem roundsTo_midiToHzBounds {k : Int} {b p : Nat} (hb : b < 12 * 2 ^ 149) (ht : 0 < terms p)
    (he : (midiToHzBounds k b p).1 = (midiToHzBounds k b p).2) (hf : isFinite (midiToHzBounds k b p).1 = true) :
    RoundsTo (440 * (2 : ℝ) ^ ((k : ℝ) + b / (12 * 2 ^ 149))) (midiToHzBounds k b p).1 := by
  have hf2 := hf
  rw [he] at hf2
  have hl2 : 0 < Real.log 2 := Real.log_pos (by norm_num)
  have hl7 := Real.log_two_lt_d9
  have hP : (0 : ℝ) < 2 ^ p := by positivity
  have hb1 : (b : ℝ) / (12 * 2 ^ 149) ≤ 1 := by
    rw [div_le_one (by positivity)]
    exact_mod_cast hb.le
  have hb0 : (0 : ℝ) ≤ (b : ℝ) / (12 * 2 ^ 149) := by positivity
  obtain ⟨c1, c2⟩ := ln2_bounds p
  have hz : (2 : ℝ) ^ ((k : ℝ) + b / (12 * 2 ^ 149)) = 2 ^ k * Real.exp ((b : ℝ) / (12 * 2 ^ 149) * Real.log 2) := by
    rw [Real.rpow_add (by norm_num), Real.rpow_intCast, Real.rpow_def_of_pos (by norm_num), mul_comm (Real.log 2)]
  rw [hz]
  have hdc : (b : ℝ) / (12 * 2 ^ 149) * ((12 * 2 ^ 149 : Nat) : ℝ) = b := by
    rw [Nat.cast_mul, Nat.cast_pow, Nat.cast_ofNat, Nat.cast_ofNat]
    exact div_mul_cancel₀ _ (by positivity)
  have hv : 2 ^ p * ((b : ℝ) / (12 * 2 ^ 149) * Real.log 2) * ((12 * 2 ^ 149 : Nat) : ℝ) = b * (2 ^ p * Real.log 2) := by
    rw [show ∀ x y z t : ℝ, x * (y * z) * t = y * t * (x * z) from fun _ _ _ _ => by ring, hdc]
  have hlo : ((b * (ln2Bounds p).1 / (12 * 2 ^ 149) : Nat) : ℝ) ≤ 2 ^ p * ((b : ℝ) / (12 * 2 ^ 149) * Real.log 2) := by
    refine floor_le_of (by positivity) ?_
    rw [hv, Nat.cast_mul]
    gcongr
  have hhi : 2 ^ p * ((b : ℝ) / (12 * 2 ^ 149) * Real.log 2) ≤
      ((ceilDiv (b * (ln2Bounds p).2) (12 * 2 ^ 149) : Nat) : ℝ) := by
    refine le_ceilDiv_of (by positivity) ?_
    rw [hv, Nat.cast_mul]
    gcongr
  have h7 : (b : ℝ) / (12 * 2 ^ 149) * Real.log 2 ≤ 7 / 10 := by nlinarith
  have hx := exp_bounds (mul_nonneg hb0 hl2.le) h7 hlo hhi ht
  unfold midiToHzBounds at he hf hf2 ⊢
  simp only at he hf hf2 ⊢
  have hA := roundsTo_roundOctave hf
  have hB := roundsTo_roundOctave hf2
  rw [← he] at hB
  have hk : (0 : ℝ) < 440 * 2 ^ k := by positivity
  rw [← mul_assoc (440 : ℝ)]
  refine hA.squeeze hB (mul_le_mul_of_nonneg_left ?_ hk.le) (mul_le_mul_of_nonneg_left ?_ hk.le)
  · exact (div_le_iff₀' hP).mpr hx.1
  · exact (le_div_iff₀' hP).mpr hx.2

/-! ### Sin2Pi -/

/-- A value with a sign, between two of that sign that round to one number. -/
theorem RoundsTo.squeeze_signed {s : Bool} {a b x : ℝ} {r : F32} (ha : RoundsTo (signOf s * a) r)
    (hb : RoundsTo (signOf s * b) r) (h1 : a ≤ x) (h2 : x ≤ b) : RoundsTo (signOf s * x) r := by
  cases s
  · simp only [signOf, Bool.false_eq_true, if_false, one_mul] at *
    exact ha.squeeze hb h1 h2
  · simp only [signOf, if_true, neg_mul, one_mul] at *
    exact hb.squeeze ha (neg_le_neg h2) (neg_le_neg h1)

/-- Where both bounds of Sin2Pi in the first quarter round to one number, it is the real result rounded once. -/
theorem roundsTo_sin2PiBounds {s : Bool} {w p : Nat} (hw : w ≤ 2 ^ 147)
    (he : (sin2PiBounds s w p).1 = (sin2PiBounds s w p).2) (hf : isFinite (sin2PiBounds s w p).1 = true) :
    RoundsTo (signOf s * Real.sin (2 * Real.pi * ((w : ℝ) / 2 ^ 149))) (sin2PiBounds s w p).1 := by
  have hf2 := hf
  rw [he] at hf2
  have hP : (0 : ℝ) < 2 ^ p := by positivity
  have hpi := Real.pi_pos
  have hpi2 := Real.pi_lt_d2
  have hwr : (w : ℝ) / 2 ^ 149 ≤ 1 / 4 := by
    rw [div_le_iff₀ (by positivity)]
    have : (w : ℝ) ≤ 2 ^ 147 := by exact_mod_cast hw
    linarith
  have hw0 : (0 : ℝ) ≤ (w : ℝ) / 2 ^ 149 := by positivity
  obtain ⟨c1, c2⟩ := pi_bounds p
  generalize hθ : 2 * Real.pi * ((w : ℝ) / 2 ^ 149) = θ
  have hθ0 : 0 ≤ θ := by rw [← hθ]; positivity
  have hθ1 : θ ≤ 1.575 := by rw [← hθ]; nlinarith
  unfold sin2PiBounds at he hf hf2 ⊢
  simp only at he hf hf2 ⊢
  generalize piBounds p = c at *
  have hdc : (w : ℝ) / 2 ^ 149 * ((2 ^ 149 : Nat) : ℝ) = w := by
    rw [Nat.cast_pow, Nat.cast_ofNat]
    exact div_mul_cancel₀ _ (by positivity)
  have hv : 2 ^ p * θ * ((2 ^ 149 : Nat) : ℝ) = 2 * (2 ^ p * Real.pi) * w := by
    rw [← hθ, show ∀ x y z t : ℝ, x * (2 * y * z) * t = 2 * (x * y) * (z * t) from fun _ _ _ _ => by ring, hdc]
  have hz1 : ((2 * c.1 * w / 2 ^ 149 : Nat) : ℝ) ≤ 2 ^ p * θ := by
    refine floor_le_of (by positivity) ?_
    rw [hv, Nat.cast_mul, Nat.cast_mul, Nat.cast_ofNat]
    gcongr
  have hz2 : 2 ^ p * θ ≤ ((ceilDiv (2 * c.2 * w) (2 ^ 149) : Nat) : ℝ) := by
    refine le_ceilDiv_of (by positivity) ?_
    rw [hv, Nat.cast_mul, Nat.cast_mul, Nat.cast_ofNat]
    gcongr
  have hq1 : ((2 * w * c.1 : Nat) : ℝ) ≤ 2 ^ p * θ * ((2 ^ 149 : Nat) : ℝ) := by
    rw [hv, Nat.cast_mul, Nat.cast_mul, Nat.cast_ofNat, mul_right_comm]
    gcongr
  have hq2 : 2 ^ p * θ * ((2 ^ 149 : Nat) : ℝ) ≤ ((2 * w * c.2 : Nat) : ℝ) := by
    rw [hv, Nat.cast_mul, Nat.cast_mul, Nat.cast_ofNat, mul_right_comm]
    gcongr
  generalize 2 * c.1 * w / 2 ^ 149 = z1 at *
  generalize ceilDiv (2 * c.2 * w) (2 ^ 149) = z2 at *
  have hv1 : ((z1 * z1 / 2 ^ p : Nat) : ℝ) ≤ 2 ^ p * θ ^ 2 := by
    refine floor_le_of (by positivity) ?_
    push_cast
    calc (z1 : ℝ) * z1 ≤ (2 ^ p * θ) * (2 ^ p * θ) := by gcongr
      _ = _ := by ring
  have hv2 : 2 ^ p * θ ^ 2 ≤ ((ceilDiv (z2 * z2) (2 ^ p) : Nat) : ℝ) := by
    refine le_ceilDiv_of (by positivity) ?_
    push_cast
    calc 2 ^ p * θ ^ 2 * 2 ^ p = (2 ^ p * θ) * (2 ^ p * θ) := by ring
      _ ≤ (z2 : ℝ) * z2 := by gcongr
  obtain ⟨s1, s2⟩ := sin_bounds (sq_nonneg θ) (by nlinarith) hv1 hv2 (terms p) 0
  simp only [Nat.zero_add] at s1 s2
  have hs := sinTail_zero θ
  have ht := (sinTail_facts (sq_nonneg θ) (show θ ^ 2 ≤ 5 / 2 by nlinarith) 0).2.1
  have hN : ((2 ^ 149 : Nat) : ℝ) = 2 ^ 149 := by rw [Nat.cast_pow, Nat.cast_ofNat]
  rw [hN] at hq1 hq2
  generalize sinBounds p (z1 * z1 / 2 ^ p) (ceilDiv (z2 * z2) (2 ^ p)) (terms p) 1 = u at *
  have hA := roundsTo_round (by positivity) hf
  have hB := roundsTo_round (by positivity) hf2
  rw [← he] at hB
  generalize 2 * w * c.1 = q1 at *
  generalize 2 * w * c.2 = q2 at *
  have hD : ((2 ^ p * 2 ^ p : Nat) : ℝ) = 2 ^ p * 2 ^ p := by rw [Nat.cast_mul, Nat.cast_pow, Nat.cast_ofNat]
  have hsD : Real.sin θ * (2 ^ p * 2 ^ p * 2 ^ 149) = 2 ^ p * θ * 2 ^ 149 * (2 ^ p * sinTail (θ ^ 2) 0) := by
    rw [← hs]
    ring
  refine hA.squeeze_signed hB ?_ ?_
  · rw [div_div, hD, div_le_iff₀ (by positivity), hsD]
    refine (Nat.cast_le.mpr (Nat.min_le_left _ _)).trans ?_
    rw [Nat.cast_mul]
    gcongr
  · rw [div_div, hD, le_div_iff₀ (by positivity)]
    rcases Nat.le_total (q2 * u.2) (2 ^ 149 * (2 ^ p * 2 ^ p)) with h | h
    · rw [show (q2 * u.2).min _ = q2 * u.2 from Nat.min_eq_left h, hsD, Nat.cast_mul]
      gcongr
    · rw [show (q2 * u.2).min _ = 2 ^ 149 * (2 ^ p * 2 ^ p) from Nat.min_eq_right h, Nat.cast_mul, hN, hD, mul_comm ((2 : ℝ) ^ 149)]
      exact mul_le_of_le_one_left (by positivity) (Real.sin_le_one θ)

end Sys2Proof.Machine.Fp
end

