-- ==== Sys2Proof/Laws/Nearest.lean ====
section
/-!
SUPPORT. The search of the scale quantizer (spec/45_scale_quantizer.md R106, R107): its order, and that it answers the first
candidate at the least distance.
-/

namespace Sys2Proof.Machine

-- One theorem at a time: many at once ask for more threads than the memory limit of a check allows.
set_option Elab.async false

open Fp

/-- `a < b` on patterns that are no NaN is the order of their keys. -/
theorem lt_eq_key {x y : F32} (hx : isNaN x = false) (hy : isNaN y = false) : lt x y = decide (key x < key y) := by
  simp [lt, hx, hy]

/-- A sum with a finite second operand is a NaN only where the first operand is. -/
theorem isNaN_add_finite {x y : F32} (hx : isNaN x = false) (hy : isFinite y = true) : isNaN (add x y) = false := by
  unfold add
  simp only [hx, isNaN_of_finite hy, isInf_of_finite hy, Bool.or_self, Bool.false_and, Bool.false_eq_true, if_false]
  split
  · exact hx
  · split
    · unfold isNaN
      rw [mag_ofMag _ (by norm_num)]
      decide
    · exact isNaN_round _ _ _

theorem isNaN_sub_finite {x y : F32} (hx : isNaN x = false) (hy : isFinite y = true) : isNaN (sub x y) = false :=
  isNaN_add_finite hx (by rw [isFinite_neg]; exact hy)

theorem isNaN_abs (x : F32) : isNaN (abs x) = isNaN x := by
  unfold isNaN
  rw [mag_abs]

/-- The distance to a finite candidate is no NaN, for a target that is none. -/
theorem isNaN_distance {t c : F32} (ht : isNaN t = false) (hc : isFinite c = true) : isNaN (distance t c) = false := by
  unfold distance
  rw [isNaN_abs]
  exact isNaN_sub_finite ht hc

/-- What the search answers from a best-so-far `b`: either `b`, and no candidate is strictly nearer, or a candidate strictly nearer
than `b` and every candidate before it, and not farther than any after it. -/
theorem search_spec {t : F32} (ht : isNaN t = false) (cs : List F32) (hcs : ∀ c ∈ cs, isFinite c = true) {b : F32}
    (hb : isFinite b = true) :
    (cs.foldl (searchStep t) (some (b, distance t b)) = some (b, distance t b) ∧
        ∀ c ∈ cs, lt (distance t c) (distance t b) = false) ∨
      ∃ pre q post, cs = pre ++ q :: post ∧
        cs.foldl (searchStep t) (some (b, distance t b)) = some (q, distance t q) ∧
        lt (distance t q) (distance t b) = true ∧ (∀ c ∈ pre, lt (distance t q) (distance t c) = true) ∧
        ∀ c ∈ post, lt (distance t c) (distance t q) = false := by
  induction cs generalizing b with
  | nil => exact .inl ⟨rfl, fun c hc => absurd hc (List.not_mem_nil)⟩
  | cons c rest ih =>
    have hc : isFinite c = true := hcs c (List.mem_cons_self ..)
    have hrest : ∀ x ∈ rest, isFinite x = true := fun x hx => hcs x (List.mem_cons_of_mem _ hx)
    have nb := isNaN_distance ht hb
    have nc := isNaN_distance ht hc
    cases hlt : lt (distance t c) (distance t b)
    · have hstep : (c :: rest).foldl (searchStep t) (some (b, distance t b)) =
          rest.foldl (searchStep t) (some (b, distance t b)) := by
        rw [List.foldl_cons]
        simp only [searchStep, hlt, Bool.false_eq_true, if_false]
      rw [hstep]
      rcases ih hrest hb with ⟨h1, h2⟩ | ⟨pre, q, post, h1, h2, h3, h4, h5⟩
      · refine .inl ⟨h1, fun x hx => ?_⟩
        rcases List.mem_cons.mp hx with rfl | hx'
        · exact hlt
        · exact h2 x hx'
      · refine .inr ⟨c :: pre, q, post, by rw [h1]; rfl, h2, h3, fun x hx => ?_, h5⟩
        rcases List.mem_cons.mp hx with rfl | hx'
        · have hq : isFinite q = true := hrest q (by rw [h1]; exact List.mem_append_right _ (List.mem_cons_self ..))
          have nq := isNaN_distance ht hq
          rw [lt_eq_key nc nb, decide_eq_false_iff_not] at hlt
          rw [lt_eq_key nq nb, decide_eq_true_eq] at h3
          rw [lt_eq_key nq nc, decide_eq_true_eq]
          omega
        · exact h4 x hx'
    · have hstep : (c :: rest).foldl (searchStep t) (some (b, distance t b)) =
          rest.foldl (searchStep t) (some (c, distance t c)) := by
        rw [List.foldl_cons]
        simp only [searchStep, hlt, if_true]
      rw [hstep]
      rcases ih hrest hc with ⟨h1, h2⟩ | ⟨pre, q, post, h1, h2, h3, h4, h5⟩
      · exact .inr ⟨[], c, rest, rfl, h1, hlt, fun x hx => absurd hx List.not_mem_nil, h2⟩
      · have hq : isFinite q = true := hrest q (by rw [h1]; exact List.mem_append_right _ (List.mem_cons_self ..))
        have nq := isNaN_distance ht hq
        have h3' := h3
        rw [lt_eq_key nq nc, decide_eq_true_eq] at h3'
        rw [lt_eq_key nc nb, decide_eq_true_eq] at hlt
        refine .inr ⟨c :: pre, q, post, by rw [h1]; rfl, h2, ?_, fun x hx => ?_, h5⟩
        · rw [lt_eq_key nq nb, decide_eq_true_eq]
          omega
        · rcases List.mem_cons.mp hx with rfl | hx'
          · exact h3
          · exact h4 x hx'

/-- The search answers the first candidate at the least distance (R106, R107). -/
theorem nearestOf_spec {t q : F32} (ht : isNaN t = false) {cs : List F32} (hcs : ∀ c ∈ cs, isFinite c = true)
    (h : nearestOf t cs = some q) :
    ∃ pre post, cs = pre ++ q :: post ∧ (∀ c ∈ pre, lt (distance t q) (distance t c) = true) ∧
      ∀ c ∈ post, lt (distance t c) (distance t q) = false := by
  cases cs with
  | nil => cases h
  | cons c rest =>
    have hrest : ∀ x ∈ rest, isFinite x = true := fun x hx => hcs x (List.mem_cons_of_mem _ hx)
    unfold nearestOf at h
    rw [List.foldl_cons, show searchStep t none c = some (c, distance t c) from rfl] at h
    rcases search_spec ht rest hrest (hcs c (List.mem_cons_self ..)) with ⟨h1, h2⟩ | ⟨pre, q', post, h1, h2, h3, h4, h5⟩
    · rw [h1] at h
      cases h
      exact ⟨[], rest, rfl, fun x hx => absurd hx List.not_mem_nil, h2⟩
    · rw [h2] at h
      cases h
      refine ⟨c :: pre, post, by rw [h1]; rfl, fun x hx => ?_, h5⟩
      rcases List.mem_cons.mp hx with rfl | hx'
      · exact h3
      · exact h4 x hx'

/-- A search over at least one candidate answers one. -/
theorem nearestOf_isSome {t : F32} {cs : List F32} (h : cs ≠ []) : ∃ q, nearestOf t cs = some q := by
  have key : ∀ (cs : List F32) (b : F32 × F32), ∃ b', cs.foldl (searchStep t) (some b) = some b' := by
    intro cs
    induction cs with
    | nil => exact fun b => ⟨b, rfl⟩
    | cons c rest ih =>
      intro b
      rw [List.foldl_cons]
      unfold searchStep
      split
      · exact ih _
      · rename_i heq
        cases heq
        split
        · exact ih _
        · exact ih _
  cases cs with
  | nil => exact absurd rfl h
  | cons c rest =>
    obtain ⟨b, hb⟩ := key rest (c, distance t c)
    refine ⟨b.1, ?_⟩
    unfold nearestOf
    rw [List.foldl_cons, show searchStep t none c = some (c, distance t c) from rfl, hb]
    rfl

/-- The visiting order is ascending octave, then ascending degree (R107). -/
theorem searchOrder_sorted (c : Cfg) :
    (searchOrder c).Pairwise fun p q => p.1 < q.1 ∨ (p.1 = q.1 ∧ p.2 < q.2) := by
  unfold searchOrder
  rw [List.pairwise_flatMap]
  constructor
  · intro k _
    rw [List.pairwise_map]
    exact (List.pairwise_lt_range).imp fun h => .inr ⟨rfl, h⟩
  · unfold octaves
    rw [List.pairwise_map]
    refine (List.pairwise_lt_range).imp ?_
    intro i j hij p hp q hq
    obtain ⟨_, _, rfl⟩ := List.mem_map.mp hp
    obtain ⟨_, _, rfl⟩ := List.mem_map.mp hq
    exact .inl (by simp only; omega)

end Sys2Proof.Machine
end

