-- ==== Sys2Proof/Laws/PerInstr.lean ====
section
/-!
SUPPORT. What holds of every command as syntax, one lemma per constructor: the command word of its encoding matches its own row
of the opcode map (spec/30_encoding.md R54).
-/

namespace Sys2Proof.Laws

/-- The command word of `i` is the pattern of its row, and differs from it at most in the index field where the row's mask leaves
that free. -/
def RowMatch.Statement (i : Instr) : Prop :=
  i.row ∈ commandRows ∧ i.row.covers (encode i).cmd = true ∧ rsvField (encode i).cmd = 0#16

/-- A command word covers a row that fixes the opcode and the reserved field, whatever its index. -/
theorem commandWord_covers (opc : Fin 9) (idx : Byte) :
    (commandWord (BitVec.ofNat 8 opc) idx &&& 0xFFFFFF00#32) = BitVec.ofNat 8 opc ++ 0#24 := by
  unfold commandWord
  apply BitVec.eq_of_getLsbD_eq
  intro k hk
  simp only [BitVec.getLsbD_and, BitVec.getLsbD_append]
  interval_cases k <;> simp

/-- The reserved field of an assembled command word is zero (R52). -/
theorem commandWord_rsv (opc idx : Byte) : rsvField (commandWord opc idx) = 0#16 := by
  unfold commandWord rsvField
  apply BitVec.eq_of_getLsbD_eq
  intro k hk
  simp only [BitVec.getLsbD_extractLsb', BitVec.getLsbD_append]
  interval_cases k <;> simp

/-- The opcode field of an assembled command word (R52). -/
theorem commandWord_opc (opc idx : Byte) : opcField (commandWord opc idx) = opc := by
  unfold commandWord opcField
  apply BitVec.eq_of_getLsbD_eq
  intro k hk
  simp only [BitVec.getLsbD_extractLsb', BitVec.getLsbD_append]
  interval_cases k <;> simp

/-- The index field of an assembled command word (R52). -/
theorem commandWord_idx (opc idx : Byte) : idxField (commandWord opc idx) = idx := by
  unfold commandWord idxField
  apply BitVec.eq_of_getLsbD_eq
  intro k hk
  simp only [BitVec.getLsbD_extractLsb', BitVec.getLsbD_append]
  interval_cases k <;> simp

/-- Every command has a row of the opcode map (R54). -/
theorem row_mem (i : Instr) : i.row ∈ commandRows := by
  cases i <;> simp [commandRows, Instr.row]

theorem RowMatch.nop : RowMatch.Statement .nop := ⟨row_mem _, by decide, by decide⟩

theorem RowMatch.sample (x : Word) : RowMatch.Statement (.sample x) :=
  ⟨row_mem _, show CommandRow.covers ⟨0x01000000#32, 0xFFFFFFFF#32⟩ (commandWord 1#8 0#8) = true by decide,
    commandWord_rsv _ _⟩

theorem RowMatch.mix (h : Word) : RowMatch.Statement (.mix h) :=
  ⟨row_mem _, show CommandRow.covers ⟨0x02000000#32, 0xFFFFFFFF#32⟩ (commandWord 2#8 0#8) = true by decide,
    commandWord_rsv _ _⟩

theorem RowMatch.block : RowMatch.Statement .block := ⟨row_mem _, by decide, by decide⟩

theorem RowMatch.wrreg (idx : Byte) (v : Word) : RowMatch.Statement (.wrreg idx v) :=
  ⟨row_mem _, by simpa [CommandRow.covers, Instr.row, encode] using commandWord_covers 4 idx, commandWord_rsv _ _⟩

theorem RowMatch.rdreg (idx : Byte) : RowMatch.Statement (.rdreg idx) :=
  ⟨row_mem _, by simpa [CommandRow.covers, Instr.row, encode] using commandWord_covers 5 idx, commandWord_rsv _ _⟩

theorem RowMatch.wrtab (idx : Byte) (n : Word) : RowMatch.Statement (.wrtab idx n) :=
  ⟨row_mem _, by simpa [CommandRow.covers, Instr.row, encode] using commandWord_covers 6 idx, commandWord_rsv _ _⟩

theorem RowMatch.rdtab (idx : Byte) : RowMatch.Statement (.rdtab idx) :=
  ⟨row_mem _, by simpa [CommandRow.covers, Instr.row, encode] using commandWord_covers 7 idx, commandWord_rsv _ _⟩

theorem RowMatch.sreset : RowMatch.Statement .sreset := ⟨row_mem _, by decide, by decide⟩

end Sys2Proof.Laws
end

