-- ==== Sys2Proof/Tests/Slice0.lean ====
section
/-!
SUPPORT. Tests of one step each, with expected results from the vectors of spec/95_test_vectors.md and the worked examples of
the command rules, smoke tests of well-formedness, and for every obligation with hypotheses a witness that meets them.
-/

namespace Sys2Proof.Tests

-- One theorem at a time: many at once ask for more threads than the memory limit of a check allows.
set_option Elab.async false

open Sys2Proof Sys2Proof.Machine

/-- The state of an outcome that goes on. -/
def nextState (o : Host.Outcome State Fault Refusal) : Option State :=
  match o with
  | .next t => some t
  | .fault _ => none
  | .refused _ => none

/-- The state after a command, where it goes on. -/
def after (i : Instr) (s : State) : Option State := nextState (exec i s)

/-- What a register reads after a command. -/
def reads (i : Instr) (s : State) (r : Reg) : Option Word := (after i s).map fun t => t.readReg r

/-- What several read-only registers read after a command. -/
def readsRo (i : Instr) (s : State) (rs : List RoReg) : List Word :=
  match after i s with
  | some t => rs.map fun r => t.readReg (.ro r)
  | none => []

/-- The response of a command. -/
def answers (i : Instr) (s : State) : Option Response := (after i s).bind fun t => t.response

/-- From hardware reset. -/
def r0 : State := State.reset

/-- A state in the middle of a performance: gate open, pitch confident at 110 Hz, 435 samples since the last edge, gain 1. -/
def playing : State :=
  { r0 with
    ks := { Knobs.reset with mix := 0x3F000000#32 }
    det := { Detector.reset with
      armed := true, zcCount := 435#32, periodLast := 436#32, freq := 0x42DC0000#32, cert := 0x3F7F0000#32 }
    env := { envS1 := 0x3E800000#32, envS2 := 0x3E800000#32, level := 0x3F000000#32, gateOpen := true }
    voice := { Voice.reset with lfoPhase := 0x3E800000#32, vcaGain := 0x3F800000#32, vcaTgt := 0x3F800000#32 }
    xLast := 0x3F000000#32 }

/-! ### Decoding (R52, R54, R55; vectors V-D1 to V-D16) -/

theorem test_decode_written_words :
    decode ⟨0b00000000000000000000000000000000#32, 0x12345678#32⟩ = .ok .nop ∧
    decode ⟨0b00000001000000000000000000000000#32, 0x3F000000#32⟩ = .ok (.sample 0x3F000000#32) ∧
    decode ⟨0b00000010000000000000000000000000#32, 0x3E800000#32⟩ = .ok (.mix 0x3E800000#32) ∧
    decode ⟨0b00000011000000000000000000000000#32, 0#32⟩ = .ok .block ∧
    decode ⟨0b00000100000000000000000011111111#32, 1#32⟩ = .ok (.wrreg 0xFF#8 1#32) ∧
    decode ⟨0b00000101000000000000000001100000#32, 0#32⟩ = .ok (.rdreg 0x60#8) ∧
    decode ⟨0b00000110000000000000000000000011#32, 0x2E#32⟩ = .ok (.wrtab 3#8 0x2E#32) ∧
    decode ⟨0b00000111000000000000000001011010#32, 0#32⟩ = .ok (.rdtab 90#8) ∧
    decode ⟨0b00001000000000000000000000000000#32, 0#32⟩ = .ok .sreset := by decide

theorem test_decode_illegal_words :
    [0x00000001#32, 0x00000100#32, 0x01000001#32, 0x04010000#32, 0x08000001#32, 0x09000000#32, 0xFF0000FF#32,
      0x80000000#32].map (fun w => decode ⟨w, 0#32⟩) =
    [.error .index, .error .reserved, .error .index, .error .reserved, .error .index, .error .opcode, .error .opcode,
      .error .opcode] := by decide

theorem test_decode_bytes_little_endian :
    decodeBytes [0x0A#8, 0x00#8, 0x00#8, 0x04#8, 0x66#8, 0x66#8, 0x66#8, 0x3F#8, 0xAA#8] =
      .ok (.wrreg 0x0A#8 0x3F666666#32, [0xAA#8]) ∧
    decodeBytes [0x0A#8, 0x00#8, 0x00#8, 0x04#8, 0x66#8, 0x66#8, 0x66#8] = .error .truncated := by decide

theorem test_table_word :
    decodeTableWord 32 0x05000060 = some (.rdreg 0x60#8) ∧
    decodeTableWord 64 0x3F00000001000000 = some (.sample 0x3F000000#32) ∧ decodeTableWord 32 0x09000000 = none := by
  decide

theorem test_fetch_word : nextState (step (r0.withFetchWord 32 0x05000060)) =
    some { r0 with pos := 1, response := some ⟨0x48434231#32, false⟩ } := by decide +kernel

/-! ### Well-formedness (R56, R60): each check refuses an ill-formed term -/

theorem test_ill_formed_commands :
    [Instr.wrreg 0x42#8 0#32, .wrreg 0x60#8 0#32, .wrreg 0x1F#8 0#32, .rdreg 0x62#8, .wrtab 90#8 0#32, .rdtab 90#8].map
      Instr.WellFormed = [false, false, false, false, false, false] ∧
    [Instr.wrreg 0x5F#8 0#32, .wrreg 0x26#8 0#32, .rdreg 0x61#8, .wrtab 89#8 0#32, .rdtab 89#8, .nop].map
      Instr.WellFormed = [true, true, true, true, true, true] := by decide

theorem test_ill_formed_lines :
    [AsmLine.wrtab 6 0 0, .wrtab 0 15 0, .wrtab 0 0 128, .rdtab 6 0, .rdtab 0 15, .loadscale 0 [40],
      .loadscale 6 (List.replicate 15 40), .loadscale 0 (List.replicate 15 128),
      .wrreg (.cfg .holdoff) (.decimal false 5 1),
      .wrreg (.cfg .octMin) (.integer (2 ^ 31)), .wrreg (.cfg .holdoff) (.integer (-1)),
      .wrreg (.cfg .sparseMin) (.integer (2 ^ 32)), .wrregAt 0x04#8 (.decimal false 1 0)].all
      (fun l => assemble l == none) = true ∧
    (assemble (.wrtab 5 14 127) = some [⟨0x06000059#32, 127#32⟩]) := by decide

/-- The assembler examples of R64: `wrreg CERT_THRESH, 0.9` and `wrreg OCT_MIN, -3` (V-W1, V-W10). -/
theorem test_assemble :
    assemble (.wrreg (.cfg .certThresh) (.decimal false 9 1)) = some [⟨0x0400000A#32, 0x3F666666#32⟩] ∧
    assemble (.wrreg (.cfg .octMin) (.integer (-3))) = some [⟨0x04000013#32, 0xFFFFFFFD#32⟩] ∧
    assemble .clrstatus = some [⟨0x0400005F#32, 0xF#32⟩] := by decide +kernel

/-! ### NOP, illegal words, SRESET (V-N1, V-N2, V-N3, V-X2, V-X3) -/

theorem test_nop : after .nop playing = some { playing with response := some ⟨0#32, false⟩ } := by decide +kernel

theorem test_illegal_word_is_sticky :
    nextState (runTransaction ⟨0x01000001#32, 0x3F000000#32⟩ r0) =
      some { r0 with status := 1#32, response := some ⟨0#32, true⟩ } ∧
    nextState (runTransaction ⟨0x09000000#32, 0#32⟩ { r0 with status := 1#32 }) =
      some { r0 with status := 1#32, response := some ⟨0#32, true⟩ } := by decide +kernel

theorem test_sreset_derives :
    readsRo .sreset { playing with cfg := { Cfg.reset with gateOnMin := 0x3A83126F#32 } }
      [.gateOn, .gateOff, .zcState, .freq, .cert, .gate, .vcaGain] =
    [0x3A83126F#32, 0x3A03126F#32, 0#32, 0#32, 0#32, 0#32, 0#32] := by decide +kernel

theorem test_sreset_keeps :
    (after .sreset { playing with
        status := 3#32, table := [(3, 46#8)], kraw := { Knobs.reset with gate := Fp.one } }).map
      (fun t => (t.status, t.table, t.kraw.gate, t.ks.mix)) = some (3#32, [(3, 46#8)], Fp.one, 0#32) := by decide +kernel

/-! ### WRREG (V-W2, V-W4, V-W5, V-W7, V-W9, V-W11, V-W13, V-W15, V-W17, V-W20, V-W21, V-W26) -/

theorem test_wrreg_config :
    [(Instr.wrreg 0x04#8 0x00011170#32, Reg.cfg .holdoff), (.wrreg 0x01#8 0x3F800000#32, .cfg .dcR),
      (.wrreg 0x03#8 0x80000000#32, .cfg .zcEps), (.wrreg 0x15#8 0x7FC00000#32, .cfg .qhyst),
      (.wrreg 0x1A#8 0xFF800000#32, .cfg .vcaScale), (.wrreg 0x13#8 0xFFFFFFF0#32, .cfg .octMin),
      (.wrreg 0x12#8 0xFFFFFFFF#32, .cfg .sparseMin)].map (fun p => (reads p.1 r0 p.2, reads p.1 r0 .status)) =
    [(some 0xFFFF#32, some 2#32), (some 0x3F7FF972#32, some 2#32), (some 0#32, some 0#32),
      (some 0x3F000000#32, some 2#32), (some 0#32, some 2#32), (some 0xFFFFFFFC#32, some 2#32),
      (some 6#32, some 2#32)] := by decide +kernel

theorem test_wrreg_knob_status_and_refusals :
    [(Instr.wrreg 0x23#8 0x3FC00000#32, Reg.kraw .gate), (.wrreg 0x24#8 0x7FC00001#32, .kraw .vib),
      (.wrreg 0x20#8 0x00000001#32, .kraw .glide)].map (fun p => (reads p.1 r0 p.2, reads p.1 r0 .status)) =
    [(some 0x3F800000#32, some 8#32), (some 0#32, some 8#32), (some 1#32, some 0#32)] ∧
    reads (.wrreg 0x5F#8 5#32) { r0 with status := 0xF#32 } .status = some 0xA#32 ∧
    reads (.wrreg 0x5F#8 0xFFFFFFF0#32) { r0 with status := 0xF#32 } .status = some 0xF#32 ∧
    [0x42#8, 0x32#8, 0x38#8, 0x60#8, 0x1F#8].map (fun i => answers (.wrreg i 0#32) r0) =
      List.replicate 5 (some ⟨0#32, true⟩) := by decide +kernel

/-! ### RDREG, WRTAB, RDTAB (V-R1 to V-R12, V-T1 to V-T8) -/

theorem test_rdreg :
    [0x60#8, 0x61#8, 0x00#8, 0x04#8, 0x13#8, 0x38#8, 0x39#8, 0x3A#8, 0x1F#8, 0x62#8, 0x57#8].map
      (fun i => answers (.rdreg i) r0) =
    [some ⟨0x48434231#32, false⟩, some ⟨1#32, false⟩, some ⟨0x473B8000#32, false⟩, some ⟨0x1E#32, false⟩,
      some ⟨0xFFFFFFFF#32, false⟩, some ⟨0x3727C5AC#32, false⟩, some ⟨0x36A7C5AC#32, false⟩,
      some ⟨0x3F800000#32, false⟩, some ⟨0#32, true⟩, some ⟨0#32, true⟩, some ⟨0#32, true⟩] := by decide +kernel

theorem test_rdreg_status_does_not_clear :
    (after (.rdreg 0x5F#8) { r0 with status := 0xB#32 }).map (fun t => (t.status, t.response)) =
      some (0xB#32, some ⟨0xB#32, false⟩) := by decide +kernel

theorem test_wrtab :
    [(3#8, 46#32), (3#8, 0xC8#32), (3#8, 0x80000000#32), (90#8, 0x28#32)].map
      (fun p => (after (.wrtab p.1 p.2) r0).map (fun t => (Memory.read t.table 3, t.status))) =
    [some (some 46#8, 0#32), some (some 127#8, 2#32), some (some 127#8, 2#32), some (some 45#8, 1#32)] := by
  decide +kernel

theorem test_rdtab :
    [0#8, 74#8, 89#8, 255#8].map (fun i => answers (.rdtab i) r0) =
    [some ⟨0x28#32, false⟩, some ⟨0x4A#32, false⟩, some ⟨0x45#32, false⟩, some ⟨0#32, true⟩] := by decide +kernel

/-! ### BLOCK (V-B2, V-B4, V-B6, V-B10, V-B11) -/

theorem test_block_thresholds :
    readsRo .block { r0 with kraw := { Knobs.reset with gate := 0x3DCCCCCD#32 } }
      [.gateOn, .gateOff, .glideC, .scaleIdx, .locked] =
    [0x38D1B719#32, 0x3851B719#32, 0x3F800000#32, 0#32, 0#32] := by decide +kernel

theorem test_block_glide_scale_locked :
    readsRo .block { playing with
      cfg := { Cfg.reset with knobCoef := Fp.one }
      kraw := { Knobs.reset with glide := 0x3F000000#32, scale := 0x3F55B082#32 } } [.glideC, .scaleIdx, .locked] =
        [0x3E8013A9#32, 5#32, 1#32] ∧
    readsRo .block { playing with det := { playing.det with cert := 0x3F59999A#32 } } [.locked] = [0#32] := by
  decide +kernel

/-! ### SAMPLE (V-S2, V-S5, V-P9, V-Q15, V-E2, V-V1, V-V6) -/

theorem test_sample_from_reset :
    readsRo (.sample 0x3F000000#32) r0 [.zcState, .zcCount, .envS1, .envS2, .level, .gate, .lfoPhase, .oscFreq] =
    [3#32, 0#32, 0x3A2A64C3#32, 0x35E2D3F5#32, 0x3AAA64C3#32, 1#32, 0x38DA740E#32, 0x4102D013#32] ∧
    (after (.sample 0xFF800000#32) r0).map (fun t => (t.xLast, t.status)) = some (0xBF800000#32, 4#32) := by
  decide +kernel

theorem test_sample_playing :
    readsRo (.sample 0x3F800000#32) { playing with ks := { Knobs.reset with vib := Fp.one } }
      [.periodLast, .zcCount, .freq, .cert, .qlast, .target, .smooth, .pitchOut, .oscFreq, .lfoPhase] =
    [436#32, 0#32, 0x42DC0E18#32, 0x3F800000#32, 0x42440000#32, 0x42440000#32, 0x42440000#32, 0x42460000#32,
      0x430EA700#32, 0x3E800DA7#32] := by decide +kernel

/-! ### MIX and the output ports (V-M2, V-M3, V-M7) -/

theorem test_mix :
    reads (.mix 0x3E800000#32) playing (.ro .yOut) = some 0x3EC00000#32 ∧
    (after (.mix 0x7FC00000#32) playing).map (fun t => (t.yOut, t.status)) = some (0x3E800000#32, 4#32) := by
  decide +kernel

theorem test_ports :
    (after (.mix 0x3F800000#32) { playing with ks := Knobs.reset, xLast := 0xBF400000#32 }).map State.ports =
      some ⟨0#32, 0#32, 0x3F800000#32, true, false, 0xBF400000#32, 0#32, 0#32⟩ := by decide +kernel

/-! ### Arithmetic (R12 to R14, R104, R112, R113) -/

theorem test_elementary :
    [0x43DC0000#32, 0x42DC0E18#32, 0x42700000#32, 0x44B5D174#32, 0x43440000#32].map Fp.hzToMidi =
      [0x428A0000#32, 0x42340470#32, 0x420A0686#32, 0x42B3665B#32, 0x425C0035#32] ∧
    [0x00000000#32, 0x42440000#32, 0x42FE0000#32, 0xC2480000#32, 0x43310000#32].map Fp.midiToHz =
      [0x4102D013#32, 0x430A9760#32, 0x4643FF6A#32, 0x3EE914F6#32, 0x485C0000#32] ∧
    [0x38DA740E#32, 0x3E000000#32, 0x3E800000#32, 0x3F000000#32, 0x3F400000#32, 0x3F7FFFFF#32].map Fp.sin2Pi =
      [0x3A2B92A6#32, 0x3F3504F3#32, 0x3F800000#32, 0#32, 0xBF800000#32, 0xB4C90FDB#32] := by decide +kernel

/-- `f32(n)` (R9): exact, and the two ties above 2^24 to the even neighbour. -/
theorem test_conversions :
    [0, 1, 16777217, 16777219].map Fp.ofNat = [0#32, 0x3F800000#32, 0x4B800000#32, 0x4B800002#32] ∧
      [-48, 175].map Fp.ofInt = [0xC2400000#32, 0x432F0000#32] := by decide +kernel

/-- The ties of R107: V-Q2, V-Q3, V-Q4, and the empty range V-Q14. -/
theorem test_nearest :
    nearest Cfg.reset [] 0x42240000#32 0 = .ok (some 0x42200000#32) ∧
    nearest Cfg.reset [] 0x42320000#32 0 = .ok (some 0x42300000#32) ∧
    nearest Cfg.reset [] 0x42300000#32 1 = .ok (some 0x422C0000#32) ∧
    nearest { Cfg.reset with octMin := 2#32, octMax := 1#32 } [] 0x42480000#32 0 = .ok none := by decide +kernel

/-! ### Witnesses: the hypotheses of each obligation can be met -/

/-- A state that meets the invariant and is not the state after reset. -/
theorem witness_invariant : playing.Inv where
  cfg := by decide +kernel
  kraw := by decide +kernel
  ks := by decide +kernel
  drv := by decide +kernel
  det := by decide +kernel
  env := by decide +kernel
  quant := ⟨⟨48, by decide, by decide +kernel⟩, ⟨48, by decide, by decide +kernel⟩⟩
  voice := by decide +kernel
  xLast := by decide +kernel
  yOut := by decide +kernel
  status := by decide +kernel
  table := by decide +kernel

theorem witness_EveryStepKeepsTheInvariant :
    playing.Inv ∧ step { playing with inbox := [.command ⟨0#32, 0#32⟩] } =
      .next { playing with pos := 1, response := some ⟨0#32, false⟩ } := ⟨witness_invariant, rfl⟩

theorem witness_DecodedTransactionReencodes : decode ⟨0x00000000#32, 7#32⟩ = .ok .nop := by decide

theorem witness_DecodeAppliesTheOpcodeMap :
    Instr.row .nop ∈ commandRows ∧ (Instr.row .nop).covers 0#32 = true ∧ decode ⟨0#32, 0#32⟩ = .ok .nop ∧
      ∀ r ∈ commandRows, r.covers 0x09000000#32 = false := by decide

theorem witness_IllegalWordOnlySetsIll :
    ({ r0 with inbox := [.command ⟨0x09000000#32, 0#32⟩] } : State).inbox = .command ⟨0x09000000#32, 0#32⟩ :: [] ∧
      decode ⟨0x09000000#32, 0#32⟩ = .error .opcode := by decide

/-- A line; a literal of each kind, at the ends of what it may stand for; and lines that are refused. -/
theorem witness_AssembledLinesAreLegal :
    assemble .sreset = some [⟨0x08000000#32, 0#32⟩] ∧ (∀ w o : Word, AsmLine.sreset ≠ .cmd w o) ∧
      (Literal.decimal true 599 2).Fits .f32 = true ∧ (Literal.raw 0xFFC00000#32).Fits (Reg.cfg .dcR).type = true ∧
      (Literal.integer 4294967295).Fits (typeAt 0x04#8) = true ∧ (Literal.integer (-2147483648)).Fits .s32 = true ∧
      [AsmLine.wrreg (.cfg .holdoff) (.decimal false 305 1), .wrregAt 0x13#8 (.integer 2147483648), .wrtab 6 0 0,
        .rdtab 0 15, .loadscale 0 [40]].map assemble = [none, none, none, none, none] :=
  ⟨by decide, fun _ _ h => (nomatch h), by decide, by decide, by decide +kernel, by decide, by decide +kernel⟩

theorem witness_PseudoInstructionsExpand : (List.range' 40 15).length = 15 := by decide

theorem witness_StepRunsTheDecodedCommand :
    ({ r0 with inbox := [.command ⟨0x03000000#32, 0#32⟩] } : State).inbox = .command ⟨0x03000000#32, 0#32⟩ :: [] ∧
      decode ⟨0x03000000#32, 0#32⟩ = .ok .block := by decide

theorem witness_IdleStepHoldsAllState : playing.inbox = [] := by decide

theorem witness_HardResetRestoresEverything :
    ({ playing with inbox := [.hardReset] } : State).inbox = .hardReset :: [] := by decide

theorem witness_SresetDerivesFromClearKnobs : r0.cfg.Legal := by decide +kernel

theorem witness_NopOnlyAnswers :
    (1#32).toNat < 2 ^ 24 ∧ 1#32 ≠ 0#32 ∧ (0x00FFFFFF#32).toNat < 2 ^ 24 ∧ 0x00FFFFFF#32 ≠ 0#32 := by decide

theorem witness_RdregReadsAnyMappedRegister :
    ([0x00, 0x1E, 0x20, 0x26, 0x30, 0x36, 0x38, 0x3B, 0x40, 0x56, 0x5F, 0x60, 0x61].all mappedIndex) = true ∧
    ([0x1F, 0x27, 0x2F, 0x37, 0x3C, 0x3F, 0x57, 0x5E, 0x62, 0xFF].all fun n => !mappedIndex n) = true := by decide

/-- One operand for each clause, at the boundary values of SCALE_MUL's range [0, 5.99] and INTERVAL_NARROW's [-24, 24]. -/
theorem witness_WrregClampsFloatConfiguration :
    Fp.isNaN 0x7FC00000#32 = true ∧ Fp.lt 0x80000001#32 0#32 = true ∧ Fp.lt 0x40BFAE14#32 0x40BFAE15#32 = true ∧
      [0#32, 0x80000000#32, 0x40BFAE14#32].all (fun v => Fp.le 0#32 v && Fp.le v 0x40BFAE14#32) = true ∧
      Fp.lt 0xC1C00001#32 0xC1C00000#32 = true ∧ Fp.lt 0x41C00000#32 0x41C00001#32 = true ∧
      [0xC1C00000#32, 0x80000000#32, 0x41C00000#32].all (fun v => Fp.le 0xC1C00000#32 v && Fp.le v 0x41C00000#32) = true := by
  decide +kernel

theorem witness_WrregClampsKnobs :
    Fp.isNaN 0x7F800001#32 = true ∧ Fp.lt 0x80000001#32 Fp.zero = true ∧ Fp.lt Fp.one 0x3F800001#32 = true ∧
      [0#32, 0x80000000#32, 0x3F800000#32].all (fun v => Fp.within Fp.zero Fp.one v) = true := by decide +kernel

theorem witness_WrregRefusesOtherIndices :
    ([0x1F, 0x27, 0x30, 0x5E, 0x60, 0xFF].all fun n => !writtenIndex n) = true := by decide

theorem witness_WrtabWritesOneEntry : (89#8).toNat ≤ 89 ∧ 89 < (90#8).toNat := by decide

theorem witness_RdtabReadsOneEntry : (0#8).toNat ≤ 89 ∧ (89#8).toNat ≤ 89 ∧ 89 < (90#8).toNat ∧ 89 < (255#8).toNat := by
  decide

theorem witness_BlockScaleIndexIsTheFloor : playing.Inv := witness_invariant

/-- The bounds of SCALE_IDX in the statements about SAMPLE, at both ends. -/
theorem witness_SampleCompletesWithItsFrame :
    r0.drv.scaleIdx.toNat ≤ 5 ∧ ({ r0.drv with scaleIdx := 5#32 } : Derived).scaleIdx.toNat ≤ 5 := by decide +kernel

/-- One operand for each clause; the finite clause at its boundary values. -/
theorem witness_SampleSanitizesItsInput :
    r0.drv.scaleIdx.toNat ≤ 5 ∧ Fp.isNaN 0x7FC00000#32 = true ∧
      [0x3F800001#32, 0x3F800000#32, 0xBF800000#32, 0xBF800001#32, 0x7F7FFFFF#32, 0x80000000#32].all Fp.isFinite = true := by
  decide +kernel

/-- An accepted candidate, and a certainty at its boundary 2^-125 where none is. -/
theorem witness_CertaintyStrictlyDecays :
    playing.Inv ∧ Fp.lt playing.cfg.certDecay Fp.one = true ∧ Fp.le 0x01000000#32 playing.det.cert = true ∧
      pitchAccepted playing.cfg { playing.det with cert := 0x01000000#32, armed := false } 0#32 = false ∧
      pitchAccepted playing.cfg playing.det Fp.one = true :=
  ⟨witness_invariant, by decide +kernel, by decide +kernel, by decide +kernel, by decide +kernel⟩

/-- The gate opens, closes and keeps, each on a concrete SAMPLE. -/
theorem witness_GateSwitchesWithHysteresis :
    (r0.env.gateOpen = false ∧ readsRo (.sample Fp.one) r0 [.gate] = [1#32]) ∧
    (playing.env.gateOpen = true ∧
      readsRo (.sample 0#32) { playing with drv := { playing.drv with gateOn := Fp.one, gateOff := Fp.one } } [.gate] =
        [0#32]) ∧
    (playing.drv.scaleIdx.toNat ≤ 5 ∧ readsRo (.sample 0#32) playing [.gate] = [1#32]) := by decide +kernel

theorem witness_QuantizerKeepsWhereNotEnabled :
    readsRo (.sample 0#32) r0 [.gate] = [0#32] ∧
      ({ Cfg.reset with octMin := 2#32, octMax := 1#32 } : Cfg).octMax.toInt <
        ({ Cfg.reset with octMin := 2#32, octMax := 1#32 } : Cfg).octMin.toInt := by decide +kernel

/-- Stage Q is enabled in a SAMPLE from a state with the invariant. -/
theorem witness_QuantizerFindsTheNearestNote :
    playing.Inv ∧ playing.cfg.octMin.toInt ≤ playing.cfg.octMax.toInt ∧
      (after (.sample Fp.one) playing).map
        (fun t => t.env.gateOpen && Fp.lt playing.cfg.certThresh t.det.cert && Fp.lt Fp.zero t.det.freq) = some true :=
  ⟨witness_invariant, by decide +kernel, by decide +kernel⟩

theorem witness_NearestIsIdempotent : nearest Cfg.reset [] 0x42240000#32 0 = .ok (some 0x42200000#32) :=
  test_nearest.1

/-- A SAMPLE that completes, and a read of QLAST, which alone is left out of the last clause. -/
theorem witness_QlastIsReadByNoRule :
    (∃ t, exec (.sample Fp.one) playing = .next t) ∧ Instr.sample Fp.one ≠ .rdreg 0x4C#8 ∧
      ∃ t, exec (.rdreg 0x4C#8) playing = .next t := by
  obtain ⟨q, -, h⟩ := execSample_next Fp.one playing (by decide +kernel)
  exact ⟨⟨_, h⟩, by decide, ⟨_, rfl⟩⟩

/-- The state after reset, with the gate closed, ENV_S1 at its boundary and the counter anywhere. -/
def quiet : State :=
  { r0 with det := { Detector.reset with zcCount := 7#32 }, env := { Envelope.reset with envS1 := 0x2C000000#32 } }

theorem witness_SilenceStaysSilent :
    quiet.Inv ∧ quiet.det = { Detector.reset with zcCount := quiet.det.zcCount } ∧ quiet.env.gateOpen = false ∧
      Fp.le quiet.cfg.envOffset 0x2C000000#32 = true ∧ Fp.le quiet.env.envS1 0x2C000000#32 = true ∧
      Fp.le quiet.env.envS2 0x2C000000#32 = true ∧ Fp.le 0x36000000#32 quiet.drv.gateOn = true :=
  ⟨⟨by decide +kernel, by decide +kernel, by decide +kernel, by decide +kernel, by decide +kernel, by decide +kernel,
      ⟨⟨48, by decide, by decide +kernel⟩, ⟨48, by decide, by decide +kernel⟩⟩, by decide +kernel, by decide +kernel,
      by decide +kernel, by decide +kernel, by decide +kernel⟩,
    rfl, rfl, by decide +kernel, by decide +kernel, by decide +kernel, by decide +kernel⟩

/-- The two ends of the mix knob, each in a state with the invariant, and a finite operand at the greatest magnitude. -/
theorem witness_MixEndsOfTheKnob :
    Knobs.Unit { Knobs.reset with mix := Fp.zero } ∧ Knobs.Unit { Knobs.reset with mix := Fp.one } ∧
      Fp.isFinite 0xFF7FFFFF#32 = true := by decide +kernel

theorem value_of_toInt {x : F32} {n : Int} (h : Fp.toInt x = n) : Fp.value x = (n : ℚ) / 2 ^ 149 := by
  unfold Fp.value
  rw [h]

theorem value_one : Fp.value 0x3F800000#32 = 1 := by
  rw [value_of_toInt (n := 2 ^ 149) (by decide +kernel)]
  norm_num

/-- The greatest finite number. -/
theorem value_greatest : Fp.value 0x7F7FFFFF#32 = 2 ^ 128 - 2 ^ 104 := by
  rw [value_of_toInt (n := (2 ^ 24 - 1) * 2 ^ 253) (by decide +kernel)]
  norm_num

/-- The greatest sum below the bound, of the greatest finite number and the number just below 2^103; its difference too. -/
theorem witness_SumsRoundOnce :
    Fp.isFinite 0x7F7FFFFF#32 = true ∧ Fp.isFinite 0x72FFFFFF#32 = true ∧
      |Fp.value 0x7F7FFFFF#32 + Fp.value 0x72FFFFFF#32| < 2 ^ 128 - 2 ^ 103 ∧
      |Fp.value 0x7F7FFFFF#32 - Fp.value 0x72FFFFFF#32| < 2 ^ 128 - 2 ^ 103 := by
  rw [value_greatest, value_of_toInt (x := 0x72FFFFFF#32) (n := (2 ^ 24 - 1) * 2 ^ 228) (by decide +kernel)]
  exact ⟨by decide, by decide, by norm_num [abs_lt], by norm_num [abs_lt]⟩

theorem witness_ProductsRoundOnce :
    Fp.isFinite 0x7F7FFFFF#32 = true ∧ Fp.isFinite 0x3F800000#32 = true ∧
      |Fp.value 0x7F7FFFFF#32 * Fp.value 0x3F800000#32| < 2 ^ 128 - 2 ^ 103 := by
  rw [value_greatest, value_one]
  exact ⟨by decide, by decide, by norm_num [abs_lt]⟩

theorem witness_QuotientsRoundOnce :
    Fp.isFinite 0x7F7FFFFF#32 = true ∧ Fp.isFinite 0x3F800000#32 = true ∧ Fp.value 0x3F800000#32 ≠ 0 ∧
      |Fp.value 0x7F7FFFFF#32 / Fp.value 0x3F800000#32| < 2 ^ 128 - 2 ^ 103 := by
  rw [value_greatest, value_one]
  exact ⟨by decide, by decide, one_ne_zero, by norm_num [abs_lt]⟩

theorem witness_RootsRoundOnce : Fp.isFinite 0x40000000#32 = true ∧ 0 ≤ Fp.value 0x40000000#32 :=
  ⟨by decide +kernel, div_nonneg (by decide +kernel) (by positivity)⟩

/-- The two zeros, and the integers at the bound. -/
theorem witness_ComparisonsFollowTheValues :
    Fp.isFinite 0x80000000#32 = true ∧ Fp.isFinite 0#32 = true ∧ 2 ^ 128 - 2 ^ 103 - 1 < 2 ^ 128 - 2 ^ 103 ∧
      |(-(2 ^ 128 - 2 ^ 103 - 1) : Int)| < 2 ^ 128 - 2 ^ 103 := by decide +kernel

theorem witness_DecimalLiteralsRoundOnce : ((599 : Nat) : ℚ) / 10 ^ 2 < 2 ^ 128 - 2 ^ 103 := by norm_num

theorem witness_SnapForcesSmallValuesToZero :
    Fp.lt (Fp.abs 0x80000001#32) 0x26901D7D#32 = true ∧ Fp.lt (Fp.abs 0x26901D7D#32) 0x26901D7D#32 = false ∧
      Fp.lt Fp.zero 0x26901D7D#32 = true := by decide +kernel

theorem witness_HzToMidiIsCorrectlyRounded :
    Fp.isFinite 0x42DC0E18#32 = true ∧ 0 < Fp.value 0x42DC0E18#32 ∧
      Fp.Decided (Fp.hzToMidiBounds (Fp.units (Fp.mag 0x42DC0E18#32))) :=
  ⟨by decide +kernel, div_pos (by decide +kernel) (by positivity), .inl (by decide +kernel)⟩

/-- A pitch a whole number of octaves from 69, and one that needs an enclosure. -/
theorem witness_MidiToHzIsCorrectlyRounded :
    (Fp.toInt 0x42640000#32 - 69 * 2 ^ 149) % (12 * 2 ^ 149) = 0 ∧ Fp.isFinite 0x42440000#32 = true ∧
      |Fp.value 0x42440000#32| ≤ 1400 ∧
      (let t : Int := Fp.toInt 0x42440000#32 - 69 * 2 ^ 149
       Fp.Decided (Fp.midiToHzBounds (t / (12 * 2 ^ 149)) (t % (12 * 2 ^ 149)).toNat)) := by
  refine ⟨by decide +kernel, by decide +kernel, ?_, .inl (by decide +kernel)⟩
  have h : Fp.toInt 0x42440000#32 = 49 * 2 ^ 149 := by decide +kernel
  unfold Fp.value
  rw [h]
  norm_num

/-- A half turn, and a phase that needs an enclosure. -/
theorem witness_Sin2PiIsCorrectlyRounded :
    Fp.units (Fp.mag 0x3F000000#32) % 2 ^ 149 % 2 ^ 148 = 0 ∧ Fp.isFinite 0x3E000000#32 = true ∧
      Fp.units (Fp.mag 0x3E000000#32) % 2 ^ 149 % 2 ^ 148 ≠ 0 ∧
      Fp.Decided (Fp.sin2PiBounds false (Fp.units (Fp.mag 0x3E000000#32))) :=
  ⟨by decide +kernel, by decide +kernel, by decide +kernel, .inl (by decide +kernel)⟩

/-- A transaction that raises ILL, one that does not, and one that leaves an ILL raised before it. -/
theorem witness_RerrExactlyAtIll :
    runTransaction ⟨0x0500001F#32, 0#32⟩ r0 = .next { r0 with status := 1#32, response := some ⟨0#32, true⟩ } ∧
    runTransaction ⟨0x05000061#32, 0#32⟩ r0 = .next { r0 with response := some ⟨1#32, false⟩ } ∧
    runTransaction ⟨0x05000061#32, 0#32⟩ { r0 with status := 1#32 } =
      .next { r0 with status := 1#32, response := some ⟨1#32, false⟩ } := ⟨rfl, rfl, rfl⟩

/-- Every command goes on from a concrete state. -/
theorem witness_StatusChangesByOneRule :
    ∀ i ∈ [Instr.nop, .sample Fp.one, .mix Fp.one, .block, .wrreg 0x5F#8 1#32, .wrreg 0x1E#8 0#32, .wrreg 0x26#8 0#32,
      .rdreg 0x61#8, .wrtab 0#8 0#32, .rdtab 0#8, .sreset], (after i playing).isSome = true := by decide +kernel

end Sys2Proof.Tests
end

section
/-!
PROOFS of the statements about arithmetic (spec/00_scope.md R9, R11): the exact result of each operation as a signed fraction of
units, which `Laws/Rounding.lean` rounds once.
-/

namespace Sys2Proof.Machine.Fp

/-! ### Values as signed fractions of units -/

theorem signOf_bne (s t : Bool) : signOf (s != t) = signOf s * signOf t := by
  cases s <;> cases t <;> simp [signOf]

/-- A sign in a divisor is a sign of the quotient. -/
theorem div_signOf_mul (s : Bool) (a b : ℝ) : a / (signOf s * b) = signOf s * (a / b) := by
  cases s <;> simp [signOf, div_neg]

/-- An integer is its sign times its magnitude. -/
theorem signOf_mul_natAbs (v : Int) : signOf (decide (v < 0)) * (v.natAbs : ℝ) = v := by
  rw [Nat.cast_natAbs, Int.cast_abs]
  by_cases h : v < 0
  · rw [abs_of_neg (by exact_mod_cast h)]
    simp [signOf, h]
  · rw [abs_of_nonneg (by exact_mod_cast not_lt.mp h)]
    simp [signOf, h]

/-- The real value of a pattern is its integer of units, scaled. -/
theorem value_cast (x : F32) : (value x : ℝ) = (toInt x : ℝ) / 2 ^ 149 := by
  unfold value
  push_cast
  rfl

@[simp] theorem value_neg (x : F32) : value (neg x) = -value x := by
  unfold value
  rw [toInt_neg, Int.cast_neg, neg_div]

theorem value_eq_zero_of_mag {x : F32} (h : mag x = 0) : value x = 0 := by
  simp [value, toInt, h]

theorem mag_ne_zero_of_value {x : F32} (h : value x ≠ 0) : mag x ≠ 0 := fun h0 => h (value_eq_zero_of_mag h0)

/-- A pattern of zero magnitude, of either sign, is the number nearest to 0. -/
theorem roundsTo_zero {x : F32} (h : mag x = 0) : RoundsTo 0 x := by
  refine ⟨isFinite_iff.mpr (by rw [h]; decide), fun w _ => ?_⟩
  have even : x.toNat % 2 = 0 := by
    rw [toNat_eq, h]
    split <;> rfl
  rw [value_eq_zero_of_mag h, Rat.cast_zero, sub_zero, sub_zero, abs_zero]
  rcases (abs_nonneg (value w : ℝ)).lt_or_eq with hw | hw
  · exact .inl hw
  · exact .inr ⟨hw, .inr even⟩

/-! ### The operations on finite numbers: which exact result is rounded -/

theorem add_of_finite {x y : F32} (hx : isFinite x = true) (hy : isFinite y = true) :
    add x y = if toInt x + toInt y = 0 then ofMag (sign x && sign y) 0
      else round (decide (toInt x + toInt y < 0)) (toInt x + toInt y).natAbs 1 := by
  simp [add, isNaN_of_finite hx, isNaN_of_finite hy, isInf_of_finite hx, isInf_of_finite hy]

theorem mul_of_finite {x y : F32} (hx : isFinite x = true) (hy : isFinite y = true) :
    mul x y = round (sign x != sign y) (units (mag x) * units (mag y)) (2 ^ 149) := by
  simp [mul, isNaN_of_finite hx, isNaN_of_finite hy, isInf_of_finite hx, isInf_of_finite hy]

theorem div_of_finite {x y : F32} (hx : isFinite x = true) (hy : isFinite y = true) (h : mag y ≠ 0) :
    div x y = round (sign x != sign y) (units (mag x) * 2 ^ 149) (units (mag y)) := by
  simp [div, isNaN_of_finite hx, isNaN_of_finite hy, isInf_of_finite hx, isInf_of_finite hy, h]

theorem sqrt_of_finite {x : F32} (hx : isFinite x = true) (h : mag x ≠ 0) (hs : sign x = false) :
    sqrt x = ofMag false (sqrtMag (units (mag x))) := by
  simp [sqrt, isNaN_of_finite hx, isInf_of_finite hx, h, hs]

theorem sqrt_of_mag_zero {x : F32} (hx : isFinite x = true) (h : mag x = 0) : sqrt x = x := by
  simp [sqrt, isNaN_of_finite hx, h]

/-! ### One rounding of the exact real result -/

theorem roundsTo_add {x y : F32} (hx : isFinite x = true) (hy : isFinite y = true)
    (h : |(value x : ℝ) + value y| < 2 ^ 128 - 2 ^ 103) : RoundsTo ((value x : ℝ) + value y) (add x y) := by
  have exact : (value x : ℝ) + value y = ((toInt x + toInt y : Int) : ℝ) / 2 ^ 149 := by
    rw [value_cast, value_cast, Int.cast_add, add_div]
  rw [add_of_finite hx hy]
  split
  next h0 =>
    rw [exact, h0, Int.cast_zero, zero_div]
    exact roundsTo_zero (mag_ofMag _ (by norm_num))
  next =>
    refine roundsTo_round_of_abs_lt one_pos ?_ h
    rw [exact, Nat.cast_one, div_one, ← mul_div_assoc, signOf_mul_natAbs]

theorem roundsTo_sub {x y : F32} (hx : isFinite x = true) (hy : isFinite y = true)
    (h : |(value x : ℝ) - value y| < 2 ^ 128 - 2 ^ 103) : RoundsTo ((value x : ℝ) - value y) (sub x y) := by
  have e : (value x : ℝ) - value y = value x + value (neg y) := by
    rw [value_neg, Rat.cast_neg, sub_eq_add_neg]
  rw [e] at h ⊢
  exact roundsTo_add hx (by rwa [isFinite_neg]) h

theorem roundsTo_mul {x y : F32} (hx : isFinite x = true) (hy : isFinite y = true)
    (h : |(value x : ℝ) * value y| < 2 ^ 128 - 2 ^ 103) : RoundsTo ((value x : ℝ) * value y) (mul x y) := by
  rw [mul_of_finite hx hy]
  refine roundsTo_round_of_abs_lt (by positivity) ?_ h
  rw [value_eq, value_eq, signOf_bne, Nat.cast_mul, Nat.cast_pow, Nat.cast_ofNat]
  ring

theorem roundsTo_div {x y : F32} (hx : isFinite x = true) (hy : isFinite y = true) (h0 : mag y ≠ 0)
    (h : |(value x : ℝ) / value y| < 2 ^ 128 - 2 ^ 103) : RoundsTo ((value x : ℝ) / value y) (div x y) := by
  have hu : 0 < units (mag y) := Nat.pos_of_ne_zero (mt units_eq_zero.mp h0)
  have hur : (units (mag y) : ℝ) ≠ 0 := by exact_mod_cast hu.ne'
  rw [div_of_finite hx hy h0]
  refine roundsTo_round_of_abs_lt hu ?_ h
  rw [value_eq, value_eq, signOf_bne, div_signOf_mul, Nat.cast_mul, Nat.cast_pow, Nat.cast_ofNat]
  field_simp

/-- A finite number of value at least 0 and nonzero magnitude has a clear sign bit. -/
theorem sign_of_value_nonneg {x : F32} (h : 0 ≤ value x) (h0 : mag x ≠ 0) : sign x = false := by
  have hx : toInt x ≠ 0 := by
    have := mt units_eq_zero.mp h0
    unfold toInt
    split <;> omega
  refine sign_of_pos (lt_of_le_of_ne ?_ hx.symm)
  by_contra hneg
  have : (toInt x : ℚ) < 0 := by exact_mod_cast not_le.mp hneg
  exact absurd h (not_le.mpr (div_neg_of_neg_of_pos this (by positivity)))

/-- The value of a number with a clear sign bit. -/
theorem value_of_sign_false {x : F32} (h : sign x = false) : (value x : ℝ) = (units (mag x) : ℝ) / 2 ^ 149 := by
  rw [value_eq, h]
  simp [signOf]

theorem roundsTo_sqrt {x : F32} (hx : isFinite x = true) (h : 0 ≤ value x) :
    RoundsTo (Real.sqrt (value x : ℝ)) (sqrt x) := by
  by_cases h0 : mag x = 0
  · rw [sqrt_of_mag_zero hx h0, value_eq_zero_of_mag h0, Rat.cast_zero, Real.sqrt_zero]
    exact roundsTo_zero h0
  · have hs := sign_of_value_nonneg h h0
    have hu : 0 < units (mag x) := Nat.pos_of_ne_zero (mt units_eq_zero.mp h0)
    have e : Real.sqrt (value x : ℝ) = Real.sqrt ((units (mag x) * 2 ^ 149 : Nat) : ℝ) / 2 ^ 149 := by
      rw [Nat.cast_mul, Nat.cast_pow, Nat.cast_ofNat, value_of_sign_false hs,
        Real.sqrt_eq_iff_eq_sq (by positivity) (by positivity), div_pow, Real.sq_sqrt (by positivity)]
      field_simp
    rw [sqrt_of_finite hx h0 hs, e]
    exact roundsTo_sqrtMag hu (units_lt_of_finite (isFinite_iff.mp hx))

/-- `f32(n)` below the overflow threshold (R9). -/
theorem roundsTo_ofInt {n : Int} (h : |n| < 2 ^ 128 - 2 ^ 103) : RoundsTo n (ofInt n) := by
  refine roundsTo_round_of_abs_lt one_pos ?_ ?_
  · rw [Nat.cast_one, div_one, Nat.cast_mul, Nat.cast_pow, Nat.cast_ofNat, mul_div_cancel_right₀ _ (by positivity),
      signOf_mul_natAbs]
  · exact_mod_cast h

/-- `f32(n)` of a natural number is `f32(n)` of the integer. -/
theorem ofInt_natCast (n : Nat) : ofInt n = ofNat n := by
  have h : ¬ (n : Int) < 0 := by omega
  simp only [ofInt, ofNat, h, decide_false, Int.natAbs_natCast]

/-! ### Order, floor and absolute value -/

theorem value_le_value {x y : F32} : value x ≤ value y ↔ toInt x ≤ toInt y := by
  unfold value
  rw [div_le_div_iff_of_pos_right (by positivity), Int.cast_le]

theorem value_lt_value {x y : F32} : value x < value y ↔ toInt x < toInt y := by
  rw [← not_le, value_le_value, not_le]

theorem value_inj {x y : F32} : value x = value y ↔ toInt x = toInt y := by
  rw [le_antisymm_iff, value_le_value, value_le_value, ← le_antisymm_iff]

theorem floor_value (x : F32) : ⌊value x⌋ = toInt x / 2 ^ 149 := by
  have h := Rat.floor_intCast_div_natCast (toInt x) (2 ^ 149)
  push_cast at h
  exact h

theorem toInt_abs (x : F32) : toInt (abs x) = |toInt x| := by
  unfold toInt
  rw [sign_abs, mag_abs]
  cases sign x <;> simp

theorem value_abs (x : F32) : value (abs x) = |value x| := by
  unfold value
  rw [toInt_abs, Int.cast_abs, abs_div, abs_of_pos (show (0 : ℚ) < 2 ^ 149 by positivity)]

/-! ### Snap -/

theorem snap_of_lt {fl v : F32} (h : lt (abs v) fl = true) : snap fl v = zero := if_pos h

theorem snap_of_not_lt {fl v : F32} (h : lt (abs v) fl = false) : snap fl v = v := if_neg (Bool.eq_false_iff.mp h)

/-- `abs(v) < 0` holds of no pattern. -/
theorem lt_abs_zero (v : F32) : lt (abs v) zero = false := by
  have h : ¬ key (abs v) < key zero := by
    rw [show key zero = 0 by decide]
    unfold key
    rw [sign_abs]
    simp
  simp [lt, h]

end Sys2Proof.Machine.Fp

namespace Sys2Proof.Proofs

open Sys2Proof.Machine

/-- Settles O42: the exact sum or difference is a signed number of units, rounded once. -/
theorem sumsRoundOnce : Obligations.SumsRoundOnce := fun _ _ hx hy =>
  ⟨fun h => Fp.roundsTo_add hx hy (by exact_mod_cast h), fun h => Fp.roundsTo_sub hx hy (by exact_mod_cast h)⟩

/-- Settles O43: the exact product is a signed fraction of units, rounded once. -/
theorem productsRoundOnce : Obligations.ProductsRoundOnce := fun _ _ hx hy h =>
  Fp.roundsTo_mul hx hy (by exact_mod_cast h)

/-- Settles O44: the exact quotient is a signed fraction of units, rounded once. -/
theorem quotientsRoundOnce : Obligations.QuotientsRoundOnce := fun _ _ hx hy h0 h =>
  Fp.roundsTo_div hx hy (Fp.mag_ne_zero_of_value h0) (by exact_mod_cast h)

/-- Settles O45: a zero is its own root, and the root of a positive number is taken to half a unit before it is rounded. -/
theorem rootsRoundOnce : Obligations.RootsRoundOnce := fun _ hx h => Fp.roundsTo_sqrt hx h

/-- Settles O46: all five follow from the integers of units, and `f32(n)` is one rounding of `n`. -/
theorem comparisonsFollowTheValues : Obligations.ComparisonsFollowTheValues := by
  refine ⟨fun x y hx hy => ⟨?_, ?_, ?_, ?_, Fp.value_abs x⟩, fun n h => ?_, fun n h => Fp.roundsTo_ofInt h⟩
  · rw [Fp.lt_iff hx hy, Fp.value_lt_value]
  · rw [Fp.le_iff hx hy, Fp.value_le_value]
  · rw [Fp.eq_iff hx hy, Fp.value_inj]
  · rw [Fp.floorInt_of_finite hx, Fp.floor_value]
  · have hn : |(n : Int)| < 2 ^ 128 - 2 ^ 103 := by
      rw [Nat.abs_cast]
      omega
    have := Fp.roundsTo_ofInt hn
    rwa [Int.cast_natCast, Fp.ofInt_natCast] at this

/-- Settles O48: the two branches of Snap; `abs(-0.0)` is `+0.0`, and no magnitude is below zero. -/
theorem snapForcesSmallValuesToZero : Obligations.SnapForcesSmallValuesToZero := by
  refine ⟨fun _ _ => ⟨Fp.snap_of_lt, Fp.snap_of_not_lt⟩, fun fl h => ?_, fun v => Fp.snap_of_not_lt (Fp.lt_abs_zero v)⟩
  have abs_negZero : Fp.abs 0x80000000#32 = Fp.zero := by decide
  exact Fp.snap_of_lt (by rwa [abs_negZero])

end Sys2Proof.Proofs
end

section
/-!
PROOFS of the statements about the elementary functions (spec/00_scope.md R12, R13, R14): the argument in the terms of the
enclosure (octaves and a fraction of an octave, or a quarter turn), the bounds that keep both ends of the enclosure finite, and
`Laws/Elementary.lean` for the rounding both ends share.
-/

namespace Sys2Proof.Machine.Fp

/-- The precisions `settle` tries. -/
def precisions : List Nat := [96, 192, 384]

/-- Where the enclosure decides, `settle` answers the rounding both bounds share at one of the precisions it tries. -/
theorem settle_at_precision {b : Nat → F32 × F32} (h : Decided b) :
    ∃ p ∈ precisions, settle b = (b p).1 ∧ (b p).1 = (b p).2 := by
  unfold settle
  split
  next h96 => exact ⟨96, by decide, rfl, h96⟩
  next h96 =>
    split
    next h192 => exact ⟨192, by decide, rfl, h192⟩
    next h192 => exact ⟨384, by decide, rfl, (h.resolve_left h96).resolve_left h192⟩

/-! ### HzToMidi -/

/-- At every precision tried the lower bound of `ln 2` is positive: the enclosure divides by it. -/
theorem ln2Bounds_pos : ∀ p ∈ precisions, 0 < (ln2Bounds p).1 := by decide +kernel

/-- The lower bound of the logarithm of a fraction up to 2 is at most the upper bound of `ln 2`. -/
theorem lnBounds_le_ln2Bounds {p a b : Nat} (hb : 0 < b) (hab : 3 * a ≤ b) : (lnBounds p a b).1 ≤ (ln2Bounds p).2 := by
  have hbr : (0 : ℝ) < b := by exact_mod_cast hb
  have habr : 3 * (a : ℝ) ≤ b := by exact_mod_cast hab
  have hden : (0 : ℝ) < b - a := by linarith [(Nat.cast_nonneg a : (0 : ℝ) ≤ a)]
  have hle : Real.log (((b : ℝ) + a) / (b - a)) ≤ Real.log 2 := by
    refine Real.log_le_log (by positivity) ?_
    rw [div_le_iff₀ hden]
    linarith
  have h : ((lnBounds p a b).1 : ℝ) ≤ (ln2Bounds p).2 :=
    calc ((lnBounds p a b).1 : ℝ) ≤ 2 ^ p * Real.log (((b : ℝ) + a) / (b - a)) := (ln_bounds hb hab).1
      _ ≤ 2 ^ p * Real.log 2 := by gcongr
      _ ≤ (ln2Bounds p).2 := (ln2_bounds p).2
  exact_mod_cast h

/-- A finite positive number lies at most 200 octaves from 440 Hz. -/
theorem octaveOf_bounds {u : Nat} (h0 : 0 < u) (h : u < 2 ^ 277) : -200 ≤ octaveOf u ∧ octaveOf u ≤ 200 := by
  have : Nat.log2 u < 277 :=
    (pow_lt_pow_iff_right₀ one_lt_two).mp (lt_of_le_of_lt (Nat.log2_self_le h0.ne') h)
  unfold octaveOf
  simp only
  split <;> omega

/-- A fixed-point value of at most 2^12 rounds to a finite number. -/
theorem isFinite_roundFixed {p : Nat} {v : Int} (h : |v| ≤ 2 ^ 12 * 2 ^ p) : isFinite (roundFixed p v) = true := by
  have hu : units (mag 0x45800000#32) = 2 ^ 12 * 2 ^ 149 := by decide +kernel
  have hv : v.natAbs ≤ 2 ^ 12 * 2 ^ p := by zify; exact h
  refine (round_in (m := mag 0x45800000#32) (by positivity) (by decide) ?_).finite
  rw [hu]
  calc v.natAbs * 2 ^ 149 ≤ 2 ^ 12 * 2 ^ p * 2 ^ 149 := Nat.mul_le_mul_right _ hv
    _ = 2 ^ 12 * 2 ^ 149 * 2 ^ p := by ring

/-- The lower bound of HzToMidi is finite: at most one octave, twelve semitones, above the base of its octave. -/
theorem isFinite_hzToMidiBounds {u : Nat} (p : Nat) (h0 : 0 < u) (h : u < 2 ^ 277) :
    isFinite (hzToMidiBounds u p).1 = true := by
  obtain ⟨k1, k2⟩ := octaveOf_bounds h0 h
  obtain ⟨o1, o2⟩ := octave_spec h0
  unfold hzToMidiBounds
  simp only
  generalize octaveOf u = k at *
  generalize octaveFraction u k = r at *
  have hl := lnBounds_le_ln2Bounds (p := p) (a := r.1 - r.2) (b := r.1 + r.2) (by omega) (by omega)
  have hq : (lnBounds p (r.1 - r.2) (r.1 + r.2)).1 * 2 ^ p / (ln2Bounds p).2 ≤ 2 ^ p :=
    Nat.div_le_of_le_mul (Nat.mul_le_mul_right _ hl)
  generalize (lnBounds p (r.1 - r.2) (r.1 + r.2)).1 * 2 ^ p / (ln2Bounds p).2 = q at *
  have hq' : (q : Int) ≤ 2 ^ p := by exact_mod_cast hq
  have hP : (0 : Int) < 2 ^ p := by positivity
  refine isFinite_roundFixed (abs_le.mpr ⟨?_, ?_⟩) <;> nlinarith

theorem hzToMidi_of_pos {f : F32} (hf : isFinite f = true) (hs : sign f = false) (h0 : mag f ≠ 0) :
    hzToMidi f = settle (hzToMidiBounds (units (mag f))) := by
  simp [hzToMidi, hf, hs, h0]

theorem roundsTo_hzToMidi {f : F32} (hf : isFinite f = true) (hpos : 0 < value f)
    (hd : Decided (hzToMidiBounds (units (mag f)))) :
    RoundsTo (69 + 12 * Real.logb 2 ((value f : ℝ) / 440)) (hzToMidi f) := by
  have h0 := mag_ne_zero_of_value hpos.ne'
  have hs := sign_of_value_nonneg hpos.le h0
  have hu : 0 < units (mag f) := Nat.pos_of_ne_zero (mt units_eq_zero.mp h0)
  obtain ⟨p, hp, hsettle, he⟩ := settle_at_precision hd
  rw [hzToMidi_of_pos hf hs h0, hsettle, value_of_sign_false hs]
  exact roundsTo_hzToMidiBounds hu (ln2Bounds_pos p hp) he
    (isFinite_hzToMidiBounds p hu (units_lt_of_finite (isFinite_iff.mp hf)))

/-! ### MidiToHz -/

/-- The lower bound of `ln 2` is at most 1. -/
theorem ln2Bounds_le (p : Nat) : (ln2Bounds p).1 ≤ 2 ^ p := by
  have hlog : Real.log 2 ≤ 1 := by linarith [Real.log_two_lt_d9]
  have h : ((ln2Bounds p).1 : ℝ) ≤ 2 ^ p :=
    (ln2_bounds p).1.trans (mul_le_of_le_one_right (by positivity) hlog)
  exact_mod_cast h

/-- At most three times 440 Hz, up to 111 octaves up, is finite. -/
theorem isFinite_roundOctave {p e : Nat} {k : Int} (he : e ≤ 3 * 2 ^ p) (hk : k ≤ 111) :
    isFinite (roundOctave p k e) = true := by
  have hu : units (mag 0x7F000000#32) = 2 ^ 127 * 2 ^ 149 := by decide +kernel
  refine (round_in (m := mag 0x7F000000#32) (by positivity) (by decide) ?_).finite
  rw [hu]
  have h1 : 2 ^ k.toNat ≤ 2 ^ 111 := Nat.pow_le_pow_right (by norm_num) (by omega)
  have h2 : 1 ≤ 2 ^ (-k).toNat := Nat.one_le_two_pow
  calc 440 * e * 2 ^ k.toNat * 2 ^ 149 ≤ 440 * (3 * 2 ^ p) * 2 ^ 111 * 2 ^ 149 := by gcongr
    _ = 440 * 3 * 2 ^ 111 * 2 ^ 149 * (2 ^ p * 1) := by ring
    _ ≤ 2 ^ 127 * 2 ^ 149 * (2 ^ p * 2 ^ (-k).toNat) := Nat.mul_le_mul (by norm_num) (Nat.mul_le_mul_left _ h2)

/-- The lower bound of MidiToHz is finite up to 111 octaves above 440 Hz. -/
theorem isFinite_midiToHzBounds {k : Int} {b : Nat} (p : Nat) (hb : b ≤ 12 * 2 ^ 149) (hk : k ≤ 111) :
    isFinite (midiToHzBounds k b p).1 = true := by
  refine isFinite_roundOctave (expLo_le_three ?_ _) hk
  exact Nat.div_le_of_le_mul (Nat.mul_le_mul hb (ln2Bounds_le p))

theorem terms_pos (p : Nat) : 0 < terms p := by
  unfold terms
  omega

/-- `MidiToHz` of a pitch `k` octaves and `b / (12 * 2^149)` of an octave above 69, in the range that needs no cut. -/
theorem midiToHz_of_octave {m : F32} {k b : Int} (hm : isFinite m = true)
    (ht : toInt m - 69 * 2 ^ 149 = 12 * 2 ^ 149 * k + b) (hb0 : 0 ≤ b) (hb : b < 12 * 2 ^ 149) (hlo : -400 < k)
    (hhi : k < 300) :
    midiToHz m = if b.toNat = 0 then roundOctave 0 k 1 else settle (midiToHzBounds k b.toNat) := by
  have ek : (toInt m - 69 * 2 ^ 149) / (12 * 2 ^ 149) = k := by omega
  have eb : (toInt m - 69 * 2 ^ 149) % (12 * 2 ^ 149) = b := by omega
  unfold midiToHz
  simp only [ek, eb]
  rw [if_pos hm, if_neg (by omega), if_neg (by omega)]

/-- The pitch in octaves above 69, from its integer of units. -/
theorem octaves_of_value {m : F32} {k b : Int} (ht : toInt m - 69 * 2 ^ 149 = 12 * 2 ^ 149 * k + b) :
    ((value m : ℝ) - 69) / 12 = k + b / (12 * 2 ^ 149) := by
  have h : (toInt m : ℝ) - 69 * 2 ^ 149 = 12 * 2 ^ 149 * k + b := by exact_mod_cast ht
  rw [value_cast, show (toInt m : ℝ) = 69 * 2 ^ 149 + (12 * 2 ^ 149 * k + b) by linarith]
  field_simp
  ring

/-- A value of magnitude at most `c` is at most `c * 2^149` units. -/
theorem abs_toInt_le {x : F32} {c : Nat} (h : |value x| ≤ c) : |toInt x| ≤ c * 2 ^ 149 := by
  unfold value at h
  rw [abs_div, abs_of_pos (show (0 : ℚ) < 2 ^ 149 by positivity), div_le_iff₀ (by positivity)] at h
  exact_mod_cast h

theorem roundsTo_midiToHz {m : F32} {k b : Int} (hm : isFinite m = true) (hv : |value m| ≤ 1400)
    (ht : toInt m - 69 * 2 ^ 149 = 12 * 2 ^ 149 * k + b) (hb0 : 0 ≤ b) (hb : b < 12 * 2 ^ 149)
    (hd : b.toNat = 0 ∨ Decided (midiToHzBounds k b.toNat)) :
    RoundsTo (440 * (2 : ℝ) ^ (((value m : ℝ) - 69) / 12)) (midiToHz m) := by
  obtain ⟨v1, v2⟩ := abs_le.mp (abs_toInt_le (c := 1400) (by exact_mod_cast hv))
  have hlo : -400 < k := by push_cast at v1; omega
  have hhi : k ≤ 111 := by push_cast at v2; omega
  obtain ⟨n, rfl⟩ := Int.eq_ofNat_of_zero_le hb0
  rw [midiToHz_of_octave hm ht hb0 hb hlo (by omega), octaves_of_value ht, Int.cast_natCast]
  rw [Int.toNat_natCast] at hd ⊢
  split
  next h0 =>
    have h := roundsTo_roundOctave (isFinite_roundOctave (p := 0) (e := 1) (by norm_num) hhi)
    rw [h0, Nat.cast_zero, zero_div, add_zero, Real.rpow_intCast]
    simpa using h
  next h0 =>
    obtain ⟨p, -, hsettle, he⟩ := settle_at_precision (hd.resolve_left h0)
    rw [hsettle]
    exact roundsTo_midiToHzBounds (by omega) (terms_pos p) he (isFinite_midiToHzBounds p (by omega) hhi)

/-! ### Sin2Pi -/

/-- The angle of `n` units of a turn. -/
noncomputable def angle (n : Nat) : ℝ := 2 * Real.pi * ((n : ℝ) / 2 ^ 149)

/-- Half turns change the sign of the sine. -/
theorem sin_angle_half_turns (j h : Nat) :
    Real.sin (angle (2 ^ 148 * j + h)) = signOf (decide (j % 2 = 1)) * Real.sin (angle h) := by
  have e : angle (2 ^ 148 * j + h) = angle h + j * Real.pi := by
    unfold angle
    push_cast
    ring
  rw [e, Real.sin_add_nat_mul_pi]
  congr 1
  rcases Nat.mod_two_eq_zero_or_one j with hj | hj
  · rw [Even.neg_one_pow (Nat.even_iff.mpr hj)]
    simp [signOf, hj]
  · rw [Odd.neg_one_pow (Nat.odd_iff.mpr hj)]
    simp [signOf, hj]

/-- The sine in the second quarter mirrors the first. -/
theorem sin_angle_mirror {h : Nat} (hh : h ≤ 2 ^ 148) : Real.sin (angle (2 ^ 148 - h)) = Real.sin (angle h) := by
  have e : angle (2 ^ 148 - h) = Real.pi - angle h := by
    unfold angle
    rw [Nat.cast_sub hh]
    push_cast
    ring
  rw [e, Real.sin_pi_sub]

/-- The sine is odd: the sign of a phase is the sign of its sine. -/
theorem sin_value (x : F32) :
    Real.sin (2 * Real.pi * (value x : ℝ)) = signOf (sign x) * Real.sin (angle (units (mag x))) := by
  rw [value_eq, angle]
  cases sign x <;> simp [signOf]

/-- The sine of a phase whose half-turn fraction is `h`, in the sign and the quarter the model reduces it to. -/
theorem sin_value_quarter {x : F32} {w h : Nat} (hw : units (mag x) % 2 ^ 149 = w) (hh : w % 2 ^ 148 = h) (h0 : h ≠ 0) :
    Real.sin (2 * Real.pi * (value x : ℝ)) =
      signOf (sign x != decide (2 ^ 148 < w)) * Real.sin (angle (if h ≤ 2 ^ 147 then h else 2 ^ 148 - h)) := by
  have hu : units (mag x) = 2 ^ 148 * (units (mag x) / 2 ^ 148) + h := by omega
  have hodd : units (mag x) / 2 ^ 148 % 2 = 1 ↔ 2 ^ 148 < w := by omega
  have hq : Real.sin (angle (if h ≤ 2 ^ 147 then h else 2 ^ 148 - h)) = Real.sin (angle h) := by
    split
    next => rfl
    next => exact sin_angle_mirror (by omega)
  rw [sin_value, hu, sin_angle_half_turns, decide_eq_decide.mpr hodd, hq, signOf_bne, mul_assoc]

/-- A multiple of half a turn has the sine 0. -/
theorem sin_value_half_turn {x : F32} (h : units (mag x) % 2 ^ 149 % 2 ^ 148 = 0) :
    Real.sin (2 * Real.pi * (value x : ℝ)) = 0 := by
  have hu : units (mag x) = 2 ^ 148 * (units (mag x) / 2 ^ 148) + 0 := by omega
  rw [sin_value, hu, sin_angle_half_turns]
  simp [angle]

theorem sin2Pi_of_half_turn {x : F32} (hx : isFinite x = true) (h : units (mag x) % 2 ^ 149 % 2 ^ 148 = 0) :
    sin2Pi x = zero := by
  unfold sin2Pi
  rw [if_pos hx]
  exact if_pos h

theorem sin2Pi_of_quarter {x : F32} {w h : Nat} (hx : isFinite x = true) (hw : units (mag x) % 2 ^ 149 = w)
    (hh : w % 2 ^ 148 = h) (h0 : h ≠ 0) :
    sin2Pi x =
      settle (sin2PiBounds (sign x != decide (2 ^ 148 < w)) (if h ≤ 2 ^ 147 then h else 2 ^ 148 - h)) := by
  unfold sin2Pi
  simp only [hw, hh]
  rw [if_pos hx, if_neg h0]

theorem roundsTo_sin2Pi {x : F32} {w h : Nat} (hx : isFinite x = true) (hw : units (mag x) % 2 ^ 149 = w)
    (hh : w % 2 ^ 148 = h) (h0 : h ≠ 0)
    (hd : Decided (sin2PiBounds (sign x != decide (2 ^ 148 < w)) (if h ≤ 2 ^ 147 then h else 2 ^ 148 - h))) :
    RoundsTo (Real.sin (2 * Real.pi * (value x : ℝ))) (sin2Pi x) := by
  have hfin := (sin2Pi_in hx).finite
  obtain ⟨p, -, hsettle, he⟩ := settle_at_precision hd
  have hquarter : (if h ≤ 2 ^ 147 then h else 2 ^ 148 - h) ≤ 2 ^ 147 := by split <;> omega
  rw [sin2Pi_of_quarter hx hw hh h0, hsettle] at hfin ⊢
  rw [sin_value_quarter hw hh h0]
  exact roundsTo_sin2PiBounds hquarter he hfin

end Sys2Proof.Machine.Fp

namespace Sys2Proof.Proofs

open Sys2Proof.Machine

/-- Settles O49: the enclosure decides at a precision where both its ends are finite, and they enclose the real result. -/
theorem hzToMidiIsCorrectlyRounded : Obligations.HzToMidiIsCorrectlyRounded := fun _ hf hpos hd =>
  Fp.roundsTo_hzToMidi hf hpos hd

/-- Settles O50: a whole number of octaves is exact before its one rounding; between, as for HzToMidi. -/
theorem midiToHzIsCorrectlyRounded : Obligations.MidiToHzIsCorrectlyRounded := by
  intro m hm hv t k b hd
  have hb0 : 0 ≤ t % (12 * 2 ^ 149) := Int.emod_nonneg _ (by norm_num)
  have hb : t % (12 * 2 ^ 149) < 12 * 2 ^ 149 := Int.emod_lt_of_pos _ (by norm_num)
  exact Fp.roundsTo_midiToHz hm hv (Int.mul_ediv_add_emod t (12 * 2 ^ 149)).symm hb0 hb hd

/-- Settles O51: half turns change the sign of the sine and quarters mirror it, so the enclosure in the first quarter decides. -/
theorem sin2PiIsCorrectlyRounded : Obligations.Sin2PiIsCorrectlyRounded := by
  intro x hx w h
  exact ⟨fun h0 => ⟨Fp.sin2Pi_of_half_turn hx h0, Fp.sin_value_half_turn h0⟩,
    fun h0 hd => Fp.roundsTo_sin2Pi hx rfl rfl h0 hd⟩

end Sys2Proof.Proofs
end

section
/-!
PROOFS of the statements about the state (spec/10_state.md): the layer they cite. Each command as an equation or an inversion, and
what a read returns after each update.
-/

namespace Sys2Proof.Machine

/-! ### The commands whose outcome is one state -/

theorem exec_nop (s : State) : exec .nop s = .next (s.answer 0#32) := rfl

theorem exec_mix (h : Word) (s : State) :
    exec (.mix h) s = .next (({ s with yOut := mixOf s.xLast s.voice.vcaGain s.ks.mix (sanitizeH h).1 }.raiseIf
      (sanitizeH h).2 .nanIn).answer (mixOf s.xLast s.voice.vcaGain s.ks.mix (sanitizeH h).1)) := rfl

theorem exec_block (s : State) :
    exec .block s = .next ({ s with
      ks := smoothKnobs s.cfg s.ks s.kraw
      drv := derive s.cfg (smoothKnobs s.cfg s.ks s.kraw)
      locked := lockedOf s.cfg s.det s.env }.answer 0#32) := rfl

theorem exec_sreset (s : State) : exec .sreset s = .next (s.softReset.answer 0#32) := rfl

theorem exec_nop_inv {s t : State} (h : exec .nop s = .next t) : t = s.answer 0#32 :=
  Host.Outcome.next.inj (h.symm.trans (exec_nop s))

theorem exec_mix_inv {w : Word} {s t : State} (h : exec (.mix w) s = .next t) :
    t = ({ s with yOut := mixOf s.xLast s.voice.vcaGain s.ks.mix (sanitizeH w).1 }.raiseIf
      (sanitizeH w).2 .nanIn).answer (mixOf s.xLast s.voice.vcaGain s.ks.mix (sanitizeH w).1) :=
  Host.Outcome.next.inj (h.symm.trans (exec_mix w s))

theorem exec_block_inv {s t : State} (h : exec .block s = .next t) :
    t = { s with
      ks := smoothKnobs s.cfg s.ks s.kraw
      drv := derive s.cfg (smoothKnobs s.cfg s.ks s.kraw)
      locked := lockedOf s.cfg s.det s.env }.answer 0#32 :=
  Host.Outcome.next.inj (h.symm.trans (exec_block s))

theorem exec_sreset_inv {s t : State} (h : exec .sreset s = .next t) : t = s.softReset.answer 0#32 :=
  Host.Outcome.next.inj (h.symm.trans (exec_sreset s))

/-! ### SAMPLE, by what stage Q answers -/

/-- The state after SAMPLE of a sanitised `x` where stage Q answers `quant`, before NANIN and the response (R81). -/
def State.sampled (s : State) (x : F32) (quant : Quant) : State :=
  { s with
    xLast := x
    det := stageP s.cfg s.det x
    env := stageE s.cfg s.drv s.env x
    quant := quant
    voice := stageV s.cfg s.drv s.ks.vib (stageP s.cfg s.det x) (stageE s.cfg s.drv s.env x) quant s.voice }

theorem exec_sample_of_stageQ {x : Word} {s : State} {quant : Quant}
    (h : stageQ s.cfg s.drv s.table (stageP s.cfg s.det (sanitizeX x).1) (stageE s.cfg s.drv s.env (sanitizeX x).1)
      s.quant = .ok quant) :
    exec (.sample x) s = .next (((s.sampled (sanitizeX x).1 quant).raiseIf (sanitizeX x).2 .nanIn).answer
      (s.sampled (sanitizeX x).1 quant).voice.oscFreq) := by
  simp only [exec, execSample, h]
  rfl

theorem exec_sample_inv {x : Word} {s t : State} (h : exec (.sample x) s = .next t) :
    ∃ quant, stageQ s.cfg s.drv s.table (stageP s.cfg s.det (sanitizeX x).1)
        (stageE s.cfg s.drv s.env (sanitizeX x).1) s.quant = .ok quant ∧
      t = ((s.sampled (sanitizeX x).1 quant).raiseIf (sanitizeX x).2 .nanIn).answer
        (s.sampled (sanitizeX x).1 quant).voice.oscFreq := execSample_inv h

/-! ### The register commands at a register's own index -/

theorem exec_wrreg_cfg (r : CfgReg) (v : Word) (s : State) :
    exec (.wrreg (Reg.index (.cfg r)) v) s = .next ((s.writeCfg r v).answer 0#32) := by
  simp [exec, execWrreg]

theorem exec_wrreg_kraw (k : Knob) (v : Word) (s : State) :
    exec (.wrreg (Reg.index (.kraw k)) v) s = .next ((s.writeKnob k v).answer 0#32) := by
  simp [exec, execWrreg]

theorem exec_wrreg_status (v : Word) (s : State) :
    exec (.wrreg (Reg.index .status) v) s = .next ((s.clearStatus v).answer 0#32) := by
  simp [exec, execWrreg]

theorem exec_rdreg_index (r : Reg) (s : State) : exec (.rdreg r.index) s = .next (s.answer (s.readReg r)) := by
  simp [exec, execRdreg]

/-! ### The refusals: an index out of reach takes ILL (R56, R69) -/

theorem exec_wrreg_of_not_writable {idx : Byte} (v : Word) (s : State) (h : writableIndex idx = false) :
    exec (.wrreg idx v) s = .next s.takeIll := by
  cases hr : Reg.ofIndex idx with
  | none => simp [exec, execWrreg, hr]
  | some r =>
    have hw : r.access.writable = false := by simpa [writableIndex, hr] using h
    cases r with
    | cfg _ | kraw _ | status => cases hw
    | ks _ | ro _ | id | version => simp [exec, execWrreg, hr]

theorem exec_rdreg_of_not_readable {idx : Byte} (s : State) (h : readableIndex idx = false) :
    exec (.rdreg idx) s = .next s.takeIll := by
  have hr : Reg.ofIndex idx = none := by simpa [readableIndex] using h
  simp [exec, execRdreg, hr]

theorem exec_wrtab_of_le {idx : Byte} (n : Word) (s : State) (h : idx.toNat ≤ 89) :
    exec (.wrtab idx n) s = .next (({ s with
      table := Memory.write s.table idx.toNat (noteOperand n).1 }.raiseIf (noteOperand n).2 .cfgErr).answer 0#32) :=
  if_neg (by omega)

theorem exec_wrtab_of_gt {idx : Byte} (n : Word) (s : State) (h : 89 < idx.toNat) :
    exec (.wrtab idx n) s = .next s.takeIll := if_pos h

theorem exec_rdtab_of_read {idx : Byte} {s : State} {b : Byte} (h : Memory.read s.table idx.toNat = some b) :
    exec (.rdtab idx) s = .next (s.answer (b.setWidth 32)) := by
  simp [exec, execRdtab, h]

theorem exec_rdtab_of_gt {idx : Byte} (s : State) (h : 89 < idx.toNat) : exec (.rdtab idx) s = .next s.takeIll := by
  have hr : Memory.read s.table idx.toNat = none := by
    rw [← Option.not_isSome_iff_eq_none, Memory.read_isSome_iff]
    omega
  simp [exec, execRdtab, hr]

/-! ### What a read returns after an update -/

@[simp] theorem State.readReg_answer (s : State) (w : Word) (r : Reg) : (s.answer w).readReg r = s.readReg r := by
  cases r <;> rfl

/-- STATUS stands behind its own index and no other (R34). -/
theorem State.readReg_setStatus (s : State) (w : Word) {r : Reg} (h : r ≠ .status) :
    { s with status := w }.readReg r = s.readReg r := by
  cases r with
  | status => exact absurd rfl h
  | _ => rfl

theorem State.readReg_raiseIf (s : State) (c : Bool) (b : StatusBit) {r : Reg} (h : r ≠ .status) :
    (s.raiseIf c b).readReg r = s.readReg r := by
  cases c with
  | false => rfl
  | true => exact s.readReg_setStatus _ h

theorem State.readReg_clearStatus (s : State) (w : Word) {r : Reg} (h : r ≠ .status) :
    (s.clearStatus w).readReg r = s.readReg r := s.readReg_setStatus _ h

@[simp] theorem State.readReg_writeCfg_same (s : State) (r : CfgReg) (w : Word) :
    (s.writeCfg r w).readReg (.cfg r) = (warlCfg r (s.cfg.get r) w).1 := by
  simp [State.readReg]

theorem State.readReg_writeCfg_other (s : State) (r : CfgReg) (w : Word) {q : Reg} (hq : q ≠ .cfg r)
    (hs : q ≠ .status) : (s.writeCfg r w).readReg q = s.readReg q := by
  refine (State.readReg_raiseIf _ _ _ hs).trans ?_
  cases q with
  | cfg q => exact Cfg.get_set_other _ _ _ _ fun h => hq (congrArg Reg.cfg h)
  | _ => rfl

@[simp] theorem State.readReg_writeKnob_same (s : State) (k : Knob) (w : Word) :
    (s.writeKnob k w).readReg (.kraw k) = (warlKnob w).1 := by
  simp [State.readReg]

theorem State.readReg_writeKnob_other (s : State) (k : Knob) (w : Word) {q : Reg} (hq : q ≠ .kraw k)
    (hs : q ≠ .status) : (s.writeKnob k w).readReg q = s.readReg q := by
  refine (State.readReg_raiseIf _ _ _ hs).trans ?_
  cases q with
  | kraw j => exact Knobs.get_set_other _ _ _ _ fun h => hq (congrArg Reg.kraw h)
  | _ => rfl

/-! ### The frame of each register write -/

theorem writeCfg_frame (s : State) (r : CfgReg) (v w : Word) :
    UnchangedBut s ((s.writeCfg r v).answer w) [.cfg r, .status] [] where
  registers q hq := by
    obtain ⟨hr, hs⟩ : q ≠ .cfg r ∧ q ≠ .status := by simpa using hq
    rw [State.readReg_answer, State.readReg_writeCfg_other _ _ _ hr hs]
  table _ _ := by simp
  inbox := by simp
  pos := by simp

theorem writeKnob_frame (s : State) (k : Knob) (v w : Word) :
    UnchangedBut s ((s.writeKnob k v).answer w) [.kraw k, .status] [] where
  registers q hq := by
    obtain ⟨hk, hs⟩ : q ≠ .kraw k ∧ q ≠ .status := by simpa using hq
    rw [State.readReg_answer, State.readReg_writeKnob_other _ _ _ hk hs]
  table _ _ := by simp
  inbox := by simp
  pos := by simp

theorem clearStatus_frame (s : State) (v w : Word) : UnchangedBut s ((s.clearStatus v).answer w) [.status] [] where
  registers q hq := by
    rw [State.readReg_answer, State.readReg_clearStatus _ _ (by simpa using hq)]
  table _ _ := by simp
  inbox := by simp
  pos := by simp

end Sys2Proof.Machine
end

section
/-!
PROOFS of the statements about WRREG and RDREG of each register (spec/10_state.md R21 to R35; spec/40_register_commands.md R64,
R65): what the write rules store and flag, case by case.
-/

namespace Sys2Proof.Machine

open Fp

/-! ### The comparisons behind the cases of R23 and R26 -/

/-- A comparison that holds is between numbers (R9). -/
theorem Fp.not_nan_of_lt {x y : F32} (h : lt x y = true) : isNaN x = false ∧ isNaN y = false := by
  simp only [lt, Bool.and_eq_true, Bool.not_eq_true'] at h
  exact h.1

theorem Fp.not_nan_of_le {x y : F32} (h : le x y = true) : isNaN x = false ∧ isNaN y = false := by
  simp only [le, Bool.and_eq_true, Bool.not_eq_true'] at h
  exact h.1

/-- At least the bound is not below it. -/
theorem Fp.lt_false_of_le {x y : F32} (h : le x y = true) : lt y x = false := by
  obtain ⟨hx, hy⟩ := not_nan_of_le h
  simpa [lt, le, hx, hy] using h

/-- Above the upper bound of a range is not below its lower bound. -/
theorem Fp.lt_false_of_above {lo hi v : F32} (hle : le lo hi = true) (h : lt hi v = true) : lt v lo = false := by
  obtain ⟨hlo, -⟩ := not_nan_of_le hle
  obtain ⟨hhi, hv⟩ := not_nan_of_lt h
  simp only [lt, le, hlo, hhi, hv, Bool.not_false, Bool.true_and, decide_eq_true_eq, decide_eq_false_iff_not] at *
  omega

/-! ### What an f32 write stores and flags (R23, R26) -/

theorem warlF32_nan (lo hi old : F32) {v : Word} (h : isNaN v = true) : warlF32 lo hi old v = (old, true) := by
  simp [warlF32, asF32, h]

theorem warlF32_below {lo v : F32} (hi old : F32) (h : lt v lo = true) : warlF32 lo hi old v = (lo, true) := by
  simp [warlF32, asF32, (not_nan_of_lt h).1, h]

theorem warlF32_above {lo hi v : F32} (old : F32) (hle : le lo hi = true) (h : lt hi v = true) :
    warlF32 lo hi old v = (hi, true) := by
  simp [warlF32, asF32, (not_nan_of_lt h).2, lt_false_of_above hle h, h]

theorem warlF32_within {lo hi v : F32} (old : F32) (h1 : le lo v = true) (h2 : le v hi = true) :
    warlF32 lo hi old v = (if eq v zero then zero else v, false) := by
  cases h : eq v zero <;> simp [warlF32, asF32, (not_nan_of_le h2).1, lt_false_of_le h1, lt_false_of_le h2, h]

/-- The rule of a knob is that of an f32 register with legal range [0, 1] whose NaN stores +0.0 (R26). -/
theorem warlKnob_eq (v : Word) : warlKnob v = warlF32 zero one zero v := rfl

theorem warlCfg_float {r : CfgReg} {lo hi : F32} (hr : r.range = .f32 lo hi) (old v : Word) :
    warlCfg r old v = warlF32 lo hi old v := by
  simp only [warlCfg, hr]

theorem CfgReg.range_le {r : CfgReg} {lo hi : F32} (hr : r.range = .f32 lo hi) : le lo hi = true := by
  obtain ⟨hlo, hhi, hle, -⟩ := CfgReg.range_ordered r hr
  exact (le_iff hlo hhi).mpr hle

/-! ### What an integer write stores and flags (R24) -/

theorem warlInt_eq (lo hi n : Int) :
    warlInt lo hi n = (BitVec.ofInt 32 (if n < lo then lo else if hi < n then hi else n), decide (n < lo ∨ hi < n)) := by
  unfold warlInt
  split
  next h => simp [h]
  next h => split <;> simp_all

/-! ### The two clearing and reading words -/

/-- OPND[3:0] are the low four bits of the operand (R64). -/
theorem getLsbD_clearedStatus (status v : Word) {b : Nat} (hb : b < 32) :
    (clearedStatus status v).getLsbD b = (status.getLsbD b && !(decide (b < 4) && v.getLsbD b)) := by
  have low : ∀ b < 32, (0x0000000F#32).getLsbD b = decide (b < 4) := by decide
  rw [clearedStatus, BitVec.getLsbD_and, BitVec.getLsbD_not, BitVec.getLsbD_and, low b hb, decide_eq_true hb,
    Bool.true_and, Bool.and_comm (v.getLsbD b)]

theorem flagWord_eq (b : Bool) : flagWord b = BitVec.ofNat 32 b.toNat := by cases b <;> rfl

theorem zcStateWord_eq (fall armed : Bool) :
    zcStateWord fall armed = BitVec.ofNat 32 (fall.toNat + 2 * armed.toNat) := by
  cases fall <;> cases armed <;> rfl

/-! ### WRREG, register by register -/

/-- A configuration write leaves the value and the flag its write rule answers (R23, R24). -/
theorem writeCfg_result {s : State} {r : CfgReg} {v x : Word} {corrected : Bool}
    (h : warlCfg r (s.cfg.get r) v = (x, corrected)) (w : Word) :
    ((s.writeCfg r v).answer w).readReg (.cfg r) = x ∧
      ((s.writeCfg r v).answer w).status = if corrected then s.status ||| 0x00000002#32 else s.status := by
  simp [h, StatusBit.mask]

/-- A knob write leaves the value and the flag its write rule answers (R26). -/
theorem writeKnob_result {v : Word} {x : F32} {corrected : Bool} (h : warlKnob v = (x, corrected)) (s : State)
    (k : Knob) (w : Word) :
    ((s.writeKnob k v).answer w).readReg (.kraw k) = x ∧
      ((s.writeKnob k v).answer w).status = if corrected then s.status ||| 0x00000008#32 else s.status := by
  simp [h, StatusBit.mask]

theorem wrreg_float (v : Word) (s : State) {r : CfgReg} {lo hi : F32} (hr : r.range = .f32 lo hi) :
    ∃ t, exec (.wrreg (Reg.index (.cfg r)) v) s = .next t ∧ t.response = some ⟨0#32, false⟩ ∧
      UnchangedBut s t [.cfg r, .status] [] ∧
      (isNaN v = true → t.readReg (.cfg r) = s.readReg (.cfg r) ∧ t.status = s.status ||| 0x00000002#32) ∧
      (lt v lo = true → t.readReg (.cfg r) = lo ∧ t.status = s.status ||| 0x00000002#32) ∧
      (lt hi v = true → t.readReg (.cfg r) = hi ∧ t.status = s.status ||| 0x00000002#32) ∧
      (le lo v = true → le v hi = true →
        t.readReg (.cfg r) = (if eq v zero then zero else v) ∧ t.status = s.status) := by
  have rule := warlCfg_float hr (s.cfg.get r) v
  refine ⟨_, exec_wrreg_cfg r v s, rfl, writeCfg_frame s r v _, fun h => ?_, fun h => ?_, fun h => ?_, fun h1 h2 => ?_⟩
  · exact writeCfg_result (rule.trans (warlF32_nan _ _ _ h)) _
  · exact writeCfg_result (rule.trans (warlF32_below _ _ h)) _
  · exact writeCfg_result (rule.trans (warlF32_above _ (CfgReg.range_le hr) h)) _
  · exact writeCfg_result (rule.trans (warlF32_within _ h1 h2)) _

theorem wrreg_integer (v : Word) (s : State) {r : CfgReg} {lo hi n : Int}
    (hr : ∀ old, warlCfg r old v = warlInt lo hi n) :
    ∃ t, exec (.wrreg (Reg.index (.cfg r)) v) s = .next t ∧ t.response = some ⟨0#32, false⟩ ∧
      UnchangedBut s t [.cfg r, .status] [] ∧
      t.readReg (.cfg r) = BitVec.ofInt 32 (if n < lo then lo else if hi < n then hi else n) ∧
      t.status = (if n < lo ∨ hi < n then s.status ||| 0x00000002#32 else s.status) := by
  have result := writeCfg_result ((hr (s.cfg.get r)).trans (warlInt_eq lo hi n)) 0#32
  simp only [decide_eq_true_eq] at result
  exact ⟨_, exec_wrreg_cfg r v s, rfl, writeCfg_frame s r v _, result⟩

end Sys2Proof.Machine

namespace Sys2Proof.Proofs

open Sys2Proof.Machine

/-- Settles O16: each row of R22's f32 registers pairs an index with its register's legal range, and the write rule has one case
per clause. -/
theorem wrregClampsFloatConfiguration : Obligations.WrregClampsFloatConfiguration := by
  intro v s p hp
  have row : p.1 = Reg.index (.cfg p.2.1) ∧ p.2.1.range = .f32 p.2.2.1 p.2.2.2 := by
    revert p
    decide
  obtain ⟨hidx, hrange⟩ := row
  rw [hidx]
  exact wrreg_float v s hrange

/-- Settles O17: HOLDOFF and SPARSE_MIN read the operand as unsigned, OCT_MIN and OCT_MAX as two's complement. -/
theorem wrregClampsIntegerConfiguration : Obligations.WrregClampsIntegerConfiguration := by
  intro v s p hp
  have row : ∀ old, warlCfg p.1 old v = warlInt p.2.1 p.2.2.1 p.2.2.2 := by
    simp only [List.mem_cons, List.not_mem_nil, or_false] at hp
    rcases hp with rfl | rfl | rfl | rfl <;> exact fun _ => rfl
  exact wrreg_integer v s row

/-- Settles O18: the knob rule is the f32 rule over [0, 1], with +0.0 for a NaN. -/
theorem wrregClampsKnobs : Obligations.WrregClampsKnobs := by
  intro k v s
  have rule := warlKnob_eq v
  refine ⟨_, exec_wrreg_kraw k v s, rfl, writeKnob_frame s k v _, fun h => ?_, fun h => ?_, fun h => ?_⟩
  · rcases h with hnan | hbelow
    · exact writeKnob_result (rule.trans (warlF32_nan _ _ _ hnan)) s k _
    · exact writeKnob_result (rule.trans (warlF32_below _ _ hbelow)) s k _
  · exact writeKnob_result (rule.trans (warlF32_above _ (by decide) h)) s k _
  · obtain ⟨h1, h2⟩ := Bool.and_eq_true_iff.mp h
    exact writeKnob_result (rule.trans (warlF32_within _ h1 h2)) s k _

/-- Settles O19: STATUS takes its old bits but those the operand's low four select. -/
theorem wrregClearsStatusBits : Obligations.WrregClearsStatusBits := fun v s =>
  ⟨_, exec_wrreg_status v s, rfl, clearStatus_frame s v _, fun _ hb => getLsbD_clearedStatus s.status v hb⟩

/-- Settles O15: the written-out rows are the register map read through `Reg.index` and `State.readReg`. -/
theorem registerAddresses : Obligations.RegisterAddresses := by
  intro s p hp
  rw [← zcStateWord_eq, ← flagWord_eq, ← flagWord_eq] at hp
  change p ∈ Reg.all.map fun r => (r.index, s.readReg r) at hp
  obtain ⟨r, -, rfl⟩ := List.mem_map.mp hp
  exact exec_rdreg_index r s

end Sys2Proof.Proofs
end

section
/-!
PROOFS of the statements about the derived registers after SRESET (spec/10_state.md R28) and about the state as a whole: which
commands write each part, that STATUS decides nothing, and the invariant of every step.
-/

namespace Sys2Proof.Machine.Fp

/-! ### The exact arithmetic of 0 and 1 -/

/-- A pattern is its own sign and magnitude. -/
theorem ofMag_sign_mag (x : F32) : ofMag (sign x) (mag x) = x :=
  eq_of_sign_mag (sign_ofMag _ (mag_lt x)) (mag_ofMag _ (mag_lt x))

/-- A finite number times 1.0 is itself, bit by bit. -/
theorem mul_one_of_finite {x : F32} (hx : isFinite x = true) : mul x one = x := by
  have units_one : units (mag one) = 2 ^ 149 := by decide +kernel
  have sign_one : sign one = false := by decide
  have exact_mag : nearestMag (units (mag x) * 2 ^ 149) (2 ^ 149) = mag x := nearestMag_units _ (by positivity)
  rw [mul_of_finite hx isFinite_one, units_one, sign_one, Bool.bne_false, round,
    roundMag_of_lt (by rw [exact_mag]; exact isFinite_iff.mp hx), exact_mag, ofMag_sign_mag]

theorem toInt_zero_mul {x : F32} (hx : isFinite x = true) : toInt (mul zero x) = 0 := by
  rw [toInt_mul isFinite_zero hx, toInt_zero, zero_mul]
  simp [roundInt]

end Sys2Proof.Machine.Fp

namespace Sys2Proof.Machine

/-! ### Derive() with every smoothed knob at +0.0 (R68, R79) -/

/-- GATE_ON_MIN is above the square of a knob at 0.0. -/
theorem gateOnOf_reset {c : Cfg} (hc : c.Legal) : gateOnOf c Knobs.reset = c.gateOnMin := by
  have square : Fp.mul Knobs.reset.gate Knobs.reset.gate = Fp.zero := by decide +kernel
  have hmin := hc.float .gateOnMin rfl (by decide) (by decide)
  have positive : 0 < Fp.toInt 0x1E3CE508#32 := by decide +kernel
  have above : Fp.lt Fp.zero c.gateOnMin = true :=
    (Fp.lt_iff Fp.isFinite_zero hmin.finite).mpr (by rw [Fp.toInt_zero]; exact positive.trans_le hmin.lower)
  rw [gateOnOf, square, Fp.max, if_pos above]

/-- A glide knob at 0.0 takes the whole of the coefficient's range. -/
theorem glideCOf_reset {c : Cfg} (hc : c.Legal) :
    glideCOf c Knobs.reset = Fp.add c.glideCMin (Fp.sub c.glideCMax c.glideCMin) := by
  have weight : Fp.mul (Fp.sub Fp.one Knobs.reset.glide) (Fp.sub Fp.one Knobs.reset.glide) = Fp.one := by decide +kernel
  have range := (sub_unit (hc.unit .glideCMax rfl) (hc.unit .glideCMin rfl)).finite
  rw [glideCOf, weight]
  exact congrArg _ (Fp.mul_one_of_finite range)

theorem scaleIdxOf_reset {c : Cfg} (hc : c.Legal) : scaleIdxOf c Knobs.reset = 0#32 := by
  have product : Fp.toInt (Fp.mul Knobs.reset.scale c.scaleMul) = 0 :=
    Fp.toInt_zero_mul (hc.float .scaleMul rfl (by decide) (by decide)).finite
  have spec := (scaleIdxOf_spec hc Knobs.unit_reset).1
  rw [product] at spec
  exact BitVec.eq_of_toNat_eq (by simpa using spec)

/-! ### STATUS only records (R34): from another STATUS, the same state with another STATUS -/

/-- The state with another STATUS. -/
def State.withStatus (s : State) (w : Word) : State := { s with status := w }

theorem sameButStatus_withStatus (t : State) (w : Word) : SameButStatus t (t.withStatus w) where
  registers _ h := t.readReg_setStatus w h
  table := rfl
  inbox := rfl
  pos := rfl

/-- Raising a condition and answering change nothing else, whatever STATUS was. -/
theorem State.withStatus_raiseIf_answer (s : State) (w : Word) (c : Bool) (b : StatusBit) (a : Word) :
    ((s.withStatus w).raiseIf c b).answer a =
      ((s.raiseIf c b).answer a).withStatus (if c then w ||| b.mask else w) := by
  cases c <;> rfl

/-- From another STATUS, a command other than the read of STATUS gives the same state and response with another STATUS. -/
theorem exec_withStatus {i : Instr} {s t : State} (w : Word) (hi : i ≠ .rdreg 0x5F#8) (h : exec i s = .next t) :
    ∃ w', exec i (s.withStatus w) = .next (t.withStatus w') := by
  cases i with
  | nop =>
    obtain rfl := exec_nop_inv h
    exact ⟨w, rfl⟩
  | sample x =>
    obtain ⟨quant, hq, rfl⟩ := exec_sample_inv h
    exact ⟨_, (exec_sample_of_stageQ (s := s.withStatus w) hq).trans
      (congrArg _ (State.withStatus_raiseIf_answer (s.sampled _ quant) w _ _ _))⟩
  | mix x =>
    obtain rfl := exec_mix_inv h
    exact ⟨_, (exec_mix x _).trans (congrArg _ (State.withStatus_raiseIf_answer { s with yOut := _ } w _ _ _))⟩
  | block =>
    obtain rfl := exec_block_inv h
    exact ⟨w, rfl⟩
  | wrreg idx v =>
    rcases execWrreg_cases h with ⟨r, rfl, rfl⟩ | ⟨k, rfl, rfl⟩ | ⟨rfl, rfl⟩ | ⟨hw, rfl⟩
    · exact ⟨_, (exec_wrreg_cfg r v _).trans
        (congrArg _ (State.withStatus_raiseIf_answer { s with cfg := s.cfg.set r _ } w _ _ _))⟩
    · exact ⟨_, (exec_wrreg_kraw k v _).trans
        (congrArg _ (State.withStatus_raiseIf_answer { s with kraw := s.kraw.set k _ } w _ _ _))⟩
    · exact ⟨clearedStatus w v, exec_wrreg_status v _⟩
    · exact ⟨w ||| StatusBit.ill.mask, exec_wrreg_of_not_writable v _ hw⟩
  | rdreg idx =>
    rcases execRdreg_cases h with ⟨r, rfl, rfl⟩ | ⟨hr, rfl⟩
    · have hne : r ≠ .status := fun e => hi (by rw [e]; rfl)
      have same : (s.withStatus w).readReg r = s.readReg r := s.readReg_setStatus w hne
      exact ⟨w, by rw [exec_rdreg_index, same]; rfl⟩
    · exact ⟨w ||| StatusBit.ill.mask, exec_rdreg_of_not_readable _ hr⟩
  | wrtab idx n =>
    rcases execWrtab_cases h with ⟨hle, rfl⟩ | ⟨hgt, rfl⟩
    · exact ⟨_, (exec_wrtab_of_le n _ hle).trans
        (congrArg _ (State.withStatus_raiseIf_answer { s with table := Memory.write s.table _ _ } w _ _ _))⟩
    · exact ⟨w ||| StatusBit.ill.mask, exec_wrtab_of_gt n _ hgt⟩
  | rdtab idx =>
    rcases execRdtab_cases h with ⟨-, b, hb, rfl⟩ | ⟨hgt, rfl⟩
    · exact ⟨w, exec_rdtab_of_read hb⟩
    · exact ⟨w ||| StatusBit.ill.mask, exec_rdtab_of_gt _ hgt⟩
  | sreset =>
    obtain rfl := exec_sreset_inv h
    exact ⟨w, rfl⟩

/-! ### The invariant: a state is as good as its registers -/

theorem State.Inv.of_same {s t : State} (hs : s.Inv) (h : SameRegisters s t) : t.Inv where
  cfg := by rw [h.cfg]; exact hs.cfg
  kraw := by rw [h.kraw]; exact hs.kraw
  ks := by rw [h.ks]; exact hs.ks
  drv := by rw [h.drv]; exact hs.drv
  det := by rw [h.det]; exact hs.det
  env := by rw [h.env]; exact hs.env
  quant := by rw [h.quant]; exact hs.quant
  voice := by rw [h.voice]; exact hs.voice
  xLast := by rw [h.xLast]; exact hs.xLast
  yOut := by rw [h.yOut]; exact hs.yOut
  status := by rw [h.status]; exact hs.status
  table := by rw [h.table]; exact hs.table

theorem State.reset_inv : State.reset.Inv where
  cfg := by decide +kernel
  kraw := Knobs.unit_reset
  ks := Knobs.unit_reset
  drv := by decide +kernel
  det := by decide +kernel
  env := by decide +kernel
  quant := ⟨noteValue_zero, noteValue_zero⟩
  voice := by decide +kernel
  xLast := by decide +kernel
  yOut := by decide
  status := by decide
  table := by decide

/-! ### The invariant under each update -/

theorem State.Inv.accept {s : State} (h : s.Inv) (rest : List HostEvent) : (s.accept rest).Inv :=
  h.of_same ⟨rfl, rfl, rfl, rfl, rfl, rfl, rfl, rfl, rfl, rfl, rfl, rfl, rfl⟩

theorem State.hardReset_inv (s : State) : s.hardReset.Inv :=
  State.reset_inv.of_same ⟨rfl, rfl, rfl, rfl, rfl, rfl, rfl, rfl, rfl, rfl, rfl, rfl, rfl⟩

theorem State.Inv.answer {s : State} (h : s.Inv) (w : Word) : (s.answer w).Inv :=
  h.of_same ⟨rfl, rfl, rfl, rfl, rfl, rfl, rfl, rfl, rfl, rfl, rfl, rfl, rfl⟩

theorem State.Inv.raise {s : State} (h : s.Inv) (b : StatusBit) : (s.raise b).Inv :=
  { h with status := status_raise_lt h.status b }

theorem State.Inv.raiseIf {s : State} (h : s.Inv) (c : Bool) (b : StatusBit) : (s.raiseIf c b).Inv := by
  cases c
  · exact h
  · exact h.raise b

theorem State.Inv.takeIll {s : State} (h : s.Inv) : s.takeIll.Inv := { h with status := status_raise_lt h.status .ill }

theorem State.Inv.clearStatus {s : State} (h : s.Inv) (w : Word) : (s.clearStatus w).Inv :=
  { h with status := clearedStatus_lt h.status }

theorem State.Inv.writeCfg {s : State} (h : s.Inv) (r : CfgReg) (w : Word) : (s.writeCfg r w).Inv := by
  have stored : State.Inv { s with cfg := s.cfg.set r (warlCfg r (s.cfg.get r) w).1 } :=
    { h with cfg := Cfg.legal_set h.cfg r w }
  exact stored.raiseIf _ _

theorem State.Inv.writeKnob {s : State} (h : s.Inv) (k : Knob) (w : Word) : (s.writeKnob k w).Inv := by
  have stored : State.Inv { s with kraw := s.kraw.set k (warlKnob w).1 } :=
    { h with kraw := Knobs.unit_set h.kraw k (warlKnob_unit w) }
  exact stored.raiseIf _ _

theorem State.Inv.writeTable {s : State} (h : s.Inv) (a : Nat) (n : Word) :
    State.Inv { s with table := Memory.write s.table a (noteOperand n).1 } := by
  have note : (noteOperand n).1.toNat ≤ 127 := by
    rw [(noteOperand_spec n).1]
    exact Nat.min_le_right _ _
  obtain ⟨canonical, notes⟩ := h.table
  exact { h with table := ⟨Memory.wf_write a _ canonical, Memory.notes_write a note notes⟩ }

theorem State.Inv.softReset {s : State} (h : s.Inv) : s.softReset.Inv :=
  { h with
    ks := Knobs.unit_reset
    drv := derive_ok h.cfg Knobs.unit_reset
    det := State.reset_inv.det
    env := State.reset_inv.env
    quant := State.reset_inv.quant
    voice := State.reset_inv.voice
    xLast := State.reset_inv.xLast
    yOut := State.reset_inv.yOut }

theorem State.Inv.block {s : State} (h : s.Inv) (locked : Bool) :
    State.Inv { s with
      ks := smoothKnobs s.cfg s.ks s.kraw
      drv := derive s.cfg (smoothKnobs s.cfg s.ks s.kraw)
      locked := locked } := by
  have smoothed := smoothKnobs_unit h.cfg h.ks h.kraw
  exact { h with ks := smoothed, drv := derive_ok h.cfg smoothed }

theorem State.Inv.mixed {s : State} (h : s.Inv) (w : Word) :
    State.Inv { s with yOut := mixOf s.xLast s.voice.vcaGain s.ks.mix (sanitizeH w).1 } := by
  obtain ⟨-, -, -, -, gain, -⟩ := h.voice
  exact { h with yOut := mixOf_finite h.xLast gain (h.ks .mix (Knob.mem_all _)) (sanitizeH_finite w) }

/-- The four stages of SAMPLE keep their registers' bounds (R81, R83, R86). -/
theorem State.Inv.sampled {s : State} (h : s.Inv) {x : F32} (hx : Fp.within Fp.negOne Fp.one x = true) {quant : Quant}
    (hq : stageQ s.cfg s.drv s.table (stageP s.cfg s.det x) (stageE s.cfg s.drv s.env x) s.quant = .ok quant) :
    (s.sampled x quant).Inv := by
  obtain ⟨-, -, -, -, scaleIdx⟩ := h.drv
  have env := stageE_ok h.cfg s.drv h.env hx
  have quantOk := stageQ_ok h.cfg h.table scaleIdx h.quant hq
  exact { h with
    xLast := hx
    det := stageP_ok h.cfg h.det hx
    env := env
    quant := quantOk
    voice := stageV_ok h.cfg h.drv (h.ks .vib (Knob.mem_all _)) _ env quantOk h.voice }

/-! ### The invariant under each command and each step -/

theorem exec_keeps_inv {i : Instr} {s t : State} (hs : s.Inv) (h : exec i s = .next t) : t.Inv := by
  cases i with
  | nop =>
    obtain rfl := exec_nop_inv h
    exact hs.answer _
  | sample x =>
    obtain ⟨quant, hq, rfl⟩ := exec_sample_inv h
    exact ((hs.sampled (sanitizeX_within x) hq).raiseIf _ _).answer _
  | mix w =>
    obtain rfl := exec_mix_inv h
    exact ((hs.mixed w).raiseIf _ _).answer _
  | block =>
    obtain rfl := exec_block_inv h
    exact (hs.block _).answer _
  | wrreg idx v =>
    rcases execWrreg_cases h with ⟨r, -, rfl⟩ | ⟨k, -, rfl⟩ | ⟨-, rfl⟩ | ⟨-, rfl⟩
    · exact (hs.writeCfg r v).answer _
    · exact (hs.writeKnob k v).answer _
    · exact (hs.clearStatus v).answer _
    · exact hs.takeIll
  | rdreg idx =>
    rcases execRdreg_cases h with ⟨r, -, rfl⟩ | ⟨-, rfl⟩
    · exact hs.answer _
    · exact hs.takeIll
  | wrtab idx n =>
    rcases execWrtab_cases h with ⟨-, rfl⟩ | ⟨-, rfl⟩
    · exact ((hs.writeTable _ n).raiseIf _ _).answer _
    · exact hs.takeIll
  | rdtab idx =>
    rcases execRdtab_cases h with ⟨-, b, -, rfl⟩ | ⟨-, rfl⟩
    · exact hs.answer _
    · exact hs.takeIll
  | sreset =>
    obtain rfl := exec_sreset_inv h
    exact hs.softReset.answer _

theorem runTransaction_keeps_inv {tr : Transaction} {s t : State} (hs : s.Inv) (h : runTransaction tr s = .next t) :
    t.Inv := by
  unfold runTransaction at h
  cases hd : decode tr with
  | ok i =>
    rw [hd] at h
    exact exec_keeps_inv hs h
  | error e =>
    rw [hd] at h
    obtain rfl : t = s.takeIll := (Host.Outcome.next.inj h).symm
    exact hs.takeIll

/-- A step is idle, a hardware reset, or a transaction run in a state with the same registers. -/
theorem step_keeps_inv {s t : State} (hs : s.Inv) (h : step s = .next t) : t.Inv := by
  unfold step stepEvent at h
  split at h
  next =>
    obtain rfl := Host.Outcome.next.inj h
    exact hs
  next rest _ =>
    obtain rfl := Host.Outcome.next.inj h
    exact State.hardReset_inv _
  next tr rest _ => exact runTransaction_keeps_inv (hs.accept rest) h

end Sys2Proof.Machine

namespace Sys2Proof.Proofs

open Sys2Proof.Machine

/-- Settles O58: every update a command or a reset makes keeps the invariant. -/
theorem everyStepKeepsTheInvariant : Obligations.EveryStepKeepsTheInvariant := fun _ _ => step_keeps_inv

/-- Settles O12: with every knob at +0.0 the square of KS_GATE is below GATE_ON_MIN and the weight of the glide is 1.0. -/
theorem sresetDerivesFromClearKnobs : Obligations.SresetDerivesFromClearKnobs := by
  intro s hc
  have on := gateOnOf_reset hc
  exact ⟨_, exec_sreset s, on, congrArg (Fp.mul · _) on, glideCOf_reset hc, scaleIdxOf_reset hc⟩

/-- Settles O54: each command's outcome, and what the updates it is made of leave alone. -/
theorem eachPartHasItsWriters : Obligations.EachPartHasItsWriters := by
  intro i s t h
  cases i with
  | nop =>
    obtain rfl := exec_nop_inv h
    simp
  | sample x =>
    obtain ⟨quant, -, rfl⟩ := exec_sample_inv h
    simp [State.sampled]
  | mix w =>
    obtain rfl := exec_mix_inv h
    simp
  | block =>
    obtain rfl := exec_block_inv h
    simp
  | wrreg idx v => rcases execWrreg_cases h with ⟨r, -, rfl⟩ | ⟨k, -, rfl⟩ | ⟨-, rfl⟩ | ⟨-, rfl⟩ <;> simp
  | rdreg idx => rcases execRdreg_cases h with ⟨r, -, rfl⟩ | ⟨-, rfl⟩ <;> simp
  | wrtab idx n => rcases execWrtab_cases h with ⟨-, rfl⟩ | ⟨-, rfl⟩ <;> simp
  | rdtab idx => rcases execRdtab_cases h with ⟨-, b, -, rfl⟩ | ⟨-, rfl⟩ <;> simp
  | sreset =>
    obtain rfl := exec_sreset_inv h
    simp

/-- Settles O55: a read of STATUS changes the response only; every other command gives the same state with another STATUS. -/
theorem statusDecidesNoResult : Obligations.StatusDecidesNoResult := by
  intro i s t w h
  by_cases hi : i = .rdreg 0x5F#8
  · subst hi
    have read (u : State) : exec (.rdreg 0x5F#8) u = .next (u.answer u.status) := exec_rdreg_index .status u
    obtain rfl := Host.Outcome.next.inj ((read s).symm.trans h)
    have same := sameButStatus_withStatus (s.answer s.status) w
    exact ⟨_, read _, ⟨same.registers, same.table, same.inbox, same.pos⟩, fun hne => absurd rfl hne⟩
  · obtain ⟨w', hw⟩ := exec_withStatus w hi h
    exact ⟨_, hw, sameButStatus_withStatus t w', fun _ => rfl⟩

end Sys2Proof.Proofs
end

section
/-!
PROOFS of the statements about encoding (spec/30_encoding.md R51 to R55, R59; spec/20_memory.md R42): the layer they cite. The three
fields of a command word, the command a word stands for, and the bytes of a transaction.
-/

namespace Sys2Proof

open Laws

/-! ### The fields of a command word (R52) -/

theorem toNat_opcField (w : Word) : (opcField w).toNat = w.toNat / 2 ^ 24 := by
  rw [opcField, BitVec.extractLsb'_toNat, Nat.shiftRight_eq_div_pow]
  omega

theorem toNat_rsvField (w : Word) : (rsvField w).toNat = w.toNat / 2 ^ 8 % 2 ^ 16 := by
  rw [rsvField, BitVec.extractLsb'_toNat, Nat.shiftRight_eq_div_pow]

theorem toNat_idxField (w : Word) : (idxField w).toNat = w.toNat % 2 ^ 8 := by
  rw [idxField, BitVec.extractLsb'_toNat, Nat.shiftRight_zero]

theorem toNat_commandWord (opc idx : Byte) : (commandWord opc idx).toNat = opc.toNat * 2 ^ 24 + idx.toNat := by
  rw [commandWord, BitVec.toNat_append, BitVec.toNat_append, ← Nat.shiftLeft_add_eq_or_of_lt idx.isLt,
    ← Nat.shiftLeft_add_eq_or_of_lt (0#16).isLt, Nat.shiftLeft_eq, Nat.shiftLeft_eq, BitVec.toNat_ofNat]
  omega

/-- A word whose reserved field is zero is its opcode and its index (R52). -/
theorem commandWord_fields {w : Word} (h : rsvField w = 0#16) : commandWord (opcField w) (idxField w) = w := by
  have hr : w.toNat / 2 ^ 8 % 2 ^ 16 = 0 := by rw [← toNat_rsvField, h]; rfl
  have := w.isLt
  refine BitVec.eq_of_toNat_eq ?_
  rw [toNat_commandWord, toNat_opcField, toNat_idxField]
  omega

/-- The index stands in the low byte, which the opcode leaves clear (R52). -/
theorem commandWord_eq_or (opc idx : Byte) : commandWord opc idx = commandWord opc 0#8 ||| idx.setWidth 32 := by
  refine BitVec.eq_of_toNat_eq ?_
  have low : idx.toNat < 2 ^ 24 := by have := idx.isLt; omega
  rw [BitVec.toNat_or, toNat_commandWord, toNat_commandWord, BitVec.toNat_setWidth_of_le (by norm_num), BitVec.toNat_ofNat,
    Nat.zero_mod, Nat.add_zero, ← Nat.shiftLeft_eq, Nat.shiftLeft_add_eq_or_of_lt low]

/-! ### The command a word stands for (R54, R55) -/

/-- The command with another operand word, where it uses one (R51). -/
def Instr.withOperand (o : Word) : Instr → Instr
  | .sample _    => .sample o
  | .mix _       => .mix o
  | .wrreg idx _ => .wrreg idx o
  | .wrtab idx _ => .wrtab idx o
  | .nop         => .nop
  | .block       => .block
  | .rdreg idx   => .rdreg idx
  | .rdtab idx   => .rdtab idx
  | .sreset      => .sreset

theorem Instr.withOperand_encode (i : Instr) : i.withOperand (encode i).opnd = i := by
  cases i <;> rfl

/-- The command word of a command decodes to it under any operand word (R54, R58). -/
theorem decode_encode_cmd (i : Instr) (o : Word) : decode ⟨(encode i).cmd, o⟩ = .ok (i.withOperand o) := by
  cases i <;> simp [decode, encode, noIndex, Instr.withOperand, commandWord_rsv, commandWord_opc, commandWord_idx]

theorem decode_encode (i : Instr) : decode (encode i) = .ok i := by
  rw [decode_encode_cmd i (encode i).opnd, Instr.withOperand_encode]

theorem noIndex_eq_ok {w : Word} {i j : Instr} (h : noIndex w i = .ok j) : idxField w = 0#8 ∧ i = j := by
  unfold noIndex at h
  split at h
  next h0 => exact ⟨h0, Except.ok.inj h⟩
  next => cases h

/-- Only the command word of its own encoding decodes to a command (R54). -/
theorem encode_cmd_of_decode {t : Transaction} {i : Instr} (h : decode t = .ok i) : (encode i).cmd = t.cmd := by
  unfold decode at h
  split at h
  next => cases h
  next hr =>
    rw [← commandWord_fields (not_not.mp hr)]
    have opcode {n : Nat} (hop : (opcField t.cmd).toNat = n) : BitVec.ofNat 8 n = opcField t.cmd := by
      rw [← hop, BitVec.ofNat_toNat, BitVec.setWidth_eq]
    -- Alternatives 1 to 9 are the opcodes 0 to 8.
    split at h
    case h_10 => cases h
    case h_5 hop | h_6 hop | h_7 hop | h_8 hop =>
      obtain rfl := Except.ok.inj h
      exact congrArg (commandWord · _) (opcode hop)
    case h_1 hop | h_2 hop | h_3 hop | h_4 hop | h_9 hop =>
      obtain ⟨hidx, rfl⟩ := noIndex_eq_ok h
      exact congrArg₂ commandWord (opcode hop) hidx.symm

theorem decode_eq_ok_iff {t : Transaction} {i : Instr} :
    decode t = .ok i ↔ (encode i).cmd = t.cmd ∧ i.withOperand t.opnd = i := by
  constructor
  · intro h
    have hcmd := encode_cmd_of_decode h
    have := decode_encode_cmd i t.opnd
    rw [hcmd, h] at this
    exact ⟨hcmd, (Except.ok.inj this).symm⟩
  · rintro ⟨hcmd, hopnd⟩
    rw [← hopnd, ← decode_encode_cmd, hcmd]

/-- A word stands for a command exactly where it is some command's own (R54). -/
theorem decode_isOk_iff {t : Transaction} : (∃ i, decode t = .ok i) ↔ ∃ i, (encode i).cmd = t.cmd := by
  constructor
  · rintro ⟨i, h⟩
    exact ⟨i, encode_cmd_of_decode h⟩
  · rintro ⟨i, h⟩
    exact ⟨i.withOperand t.opnd, by rw [← decode_encode_cmd, h]⟩

/-- R55: the words that stand for no command, by their fields. -/
theorem decode_isError_iff {t : Transaction} :
    (∃ e, decode t = .error e) ↔ 9 ≤ (opcField t.cmd).toNat ∨ (rsvField t.cmd).toNat ≠ 0 ∨
      ((idxField t.cmd).toNat ≠ 0 ∧ (opcField t.cmd).toNat ∈ [0, 1, 2, 3, 8]) := by
  have zero {n : Nat} (v : BitVec n) : v.toNat = 0 ↔ v = 0#n := by
    rw [← BitVec.toNat_inj, BitVec.toNat_ofNat, Nat.zero_mod]
  have index (i : Instr) : (∃ e, noIndex t.cmd i = .error e) ↔ idxField t.cmd ≠ 0#8 := by
    by_cases h : idxField t.cmd = 0#8 <;> simp [noIndex, h]
  rw [ne_eq, ne_eq, zero, zero]
  unfold decode
  split
  next hr => simp [hr]
  next hr =>
    have hr : rsvField t.cmd = 0#16 := not_not.mp hr
    -- Alternatives 1 to 9 are the opcodes 0 to 8.
    split
    case h_5 hop | h_6 hop | h_7 hop | h_8 hop => simp [hr, hop]
    case h_1 hop | h_2 hop | h_3 hop | h_4 hop | h_9 hop => simp [hr, hop, index]
    case h_10 =>
      simp only [imp_false] at *
      have : 9 ≤ (opcField t.cmd).toNat := by omega
      simp [this]

/-- Every word is a legal command or illegal, and not both (R55). -/
theorem decode_isError_iff_not_isOk {t : Transaction} :
    (∃ e, decode t = .error e) ↔ ¬ ∃ i, decode t = .ok i := by
  cases decode t <;> simp

/-! ### The opcode map (R54) -/

/-- The command word of a command matches the command's row (R54). -/
theorem encode_matches_row (i : Instr) : RowMatch.Statement i := by
  cases i with
  | nop => exact RowMatch.nop
  | sample x => exact RowMatch.sample x
  | mix h => exact RowMatch.mix h
  | block => exact RowMatch.block
  | wrreg idx v => exact RowMatch.wrreg idx v
  | rdreg idx => exact RowMatch.rdreg idx
  | wrtab idx n => exact RowMatch.wrtab idx n
  | rdtab idx => exact RowMatch.rdtab idx
  | sreset => exact RowMatch.sreset

/-- Every mask holds the opcode field, so the pattern of a row a word matches is the word's opcode. -/
theorem opcode_of_covers {w : Word} {r : CommandRow} (hr : r ∈ commandRows) (h : r.covers w = true) :
    w &&& 0xFF000000#32 = r.pattern := by
  have rows : ∀ r ∈ commandRows, r.mask &&& 0xFF000000#32 = 0xFF000000#32 ∧ r.pattern &&& 0xFF000000#32 = r.pattern := by
    decide
  obtain ⟨hmask, hpattern⟩ := rows r hr
  have hw : w &&& r.mask = r.pattern := by simpa [CommandRow.covers] using h
  rw [← hmask, ← BitVec.and_assoc, hw, hpattern]

/-- A word that agrees with a command word outside the index field is that command word with its own index. -/
theorem commandWord_of_masked {w : Word} {opc : Byte} (h : w &&& 0xFFFFFF00#32 = commandWord opc 0#8) :
    commandWord opc (idxField w) = w := by
  have split_low : w = (w &&& 0xFFFFFF00#32) ||| (idxField w).setWidth 32 := by
    have mask : ∀ k < 32, (0xFFFFFF00#32).getLsbD k = decide (8 ≤ k) := by decide
    refine BitVec.eq_of_getLsbD_eq fun k hk => ?_
    rw [BitVec.getLsbD_or, BitVec.getLsbD_and, mask k hk, BitVec.getLsbD_setWidth, idxField, BitVec.getLsbD_extractLsb']
    rcases lt_or_ge k 8 with h8 | h8
    · simp [hk, h8, not_le.mpr h8]
    · simp [h8, not_lt.mpr h8]
  rw [commandWord_eq_or, ← h, ← split_low]

/-- A word that matches a row is the command word of some command (R54). -/
theorem exists_encode_of_covers {w : Word} {r : CommandRow} (hr : r ∈ commandRows) (h : r.covers w = true) :
    ∃ i, (encode i).cmd = w := by
  have hw : w &&& r.mask = r.pattern := by simpa [CommandRow.covers] using h
  have exact_row {p : Word} (hp : w &&& 0xFFFFFFFF#32 = p) : p = w := by
    rw [← hp]
    exact BitVec.and_allOnes
  simp only [commandRows, List.mem_cons, List.not_mem_nil, or_false] at hr
  rcases hr with rfl | rfl | rfl | rfl | rfl | rfl | rfl | rfl | rfl
  · exact ⟨.nop, exact_row hw⟩
  · exact ⟨.sample 0#32, exact_row hw⟩
  · exact ⟨.mix 0#32, exact_row hw⟩
  · exact ⟨.block, exact_row hw⟩
  · exact ⟨.wrreg (idxField w) 0#32, commandWord_of_masked hw⟩
  · exact ⟨.rdreg (idxField w), commandWord_of_masked hw⟩
  · exact ⟨.wrtab (idxField w) 0#32, commandWord_of_masked hw⟩
  · exact ⟨.rdtab (idxField w), commandWord_of_masked hw⟩
  · exact ⟨.sreset, exact_row hw⟩

/-! ### Bytes (R42, R51) -/

/-- The four bytes of a word, low byte first, carry the word (R42). -/
theorem wordOfBytes_extract (w : Word) :
    wordOfBytes (w.extractLsb' 0 8) (w.extractLsb' 8 8) (w.extractLsb' 16 8) (w.extractLsb' 24 8) = w := by
  have join (start len : Nat) : w.extractLsb' (start + 8) len ++ w.extractLsb' start 8 = w.extractLsb' start (len + 8) :=
    BitVec.extractLsb'_append_extractLsb'_eq_extractLsb' rfl
  rw [wordOfBytes, join 16 8, join 8 16, join 0 24, BitVec.extractLsb'_eq_self]

theorem takeTransaction_transactionBytes (t : Transaction) (rest : List Byte) :
    takeTransaction (transactionBytes t ++ rest) = some (t, rest) := by
  simp [transactionBytes, wordBytes, takeTransaction, wordOfBytes_extract]

theorem decodeBytes_of_decode {t : Transaction} {i : Instr} (h : decode t = .ok i) (rest : List Byte) :
    decodeBytes (transactionBytes t ++ rest) = .ok (i, rest) := by
  simp [decodeBytes, takeTransaction_transactionBytes, h]

end Sys2Proof

namespace Sys2Proof.Proofs

/-- Settles O1: the eight bytes give the transaction back, and a command's own transaction decodes to it. -/
theorem encodedBytesDecodeToTheCommand : Obligations.EncodedBytesDecodeToTheCommand := fun i rest =>
  decodeBytes_of_decode (decode_encode i) rest

/-- Settles O2: only a command's own word decodes to it, and a command that holds no operand decodes under every operand. -/
theorem decodedTransactionReencodes : Obligations.DecodedTransactionReencodes := by
  intro t i h
  obtain ⟨hcmd, hopnd⟩ := decode_eq_ok_iff.mp h
  refine ⟨hcmd, ?_⟩
  cases i with
  | sample | mix | wrreg | wrtab => exact .inl (congrArg (fun j => (encode j).opnd) hopnd).symm
  | nop | block | rdreg | rdtab | sreset => exact .inr ⟨rfl, fun _ => decode_eq_ok_iff.mpr ⟨hcmd, rfl⟩⟩

/-- Settles O3: a row's pattern is the opcode, which tells the rows apart, and the words of the rows are those of the commands. -/
theorem decodeAppliesTheOpcodeMap : Obligations.DecodeAppliesTheOpcodeMap := by
  have by_pattern : ∀ r ∈ commandRows, ∀ r' ∈ commandRows, r.pattern = r'.pattern → r = r' := by decide
  refine ⟨fun w r hr r' hr' h h' => ?_, fun t => ⟨fun i h => ?_, ?_⟩⟩
  · exact by_pattern r hr r' hr' ((opcode_of_covers hr h).symm.trans (opcode_of_covers hr' h'))
  · obtain ⟨hmem, hcovers, -⟩ := encode_matches_row i
    exact ⟨hmem, encode_cmd_of_decode h ▸ hcovers⟩
  · rw [decode_isError_iff_not_isOk, decode_isOk_iff]
    refine ⟨fun hno r hr => ?_, fun hno ⟨i, hi⟩ => ?_⟩
    · exact Bool.eq_false_iff.mpr fun hc => hno (exists_encode_of_covers hr hc)
    · obtain ⟨hmem, hcovers, -⟩ := encode_matches_row i
      exact Bool.eq_false_iff.mp (hno i.row hmem) (hi ▸ hcovers)

/-- Settles O5: ten fixed words, evaluated. -/
theorem writtenWordsDecode : Obligations.WrittenWordsDecode := by
  unfold Obligations.WrittenWordsDecode
  decide

end Sys2Proof.Proofs
end

section
/-!
PROOFS of the statements about running a transaction (spec/30_encoding.md R55 to R57; spec/40_register_commands.md R69): the step
that takes it, the indices WRREG reaches, and what a command leaves at the response port.
-/

namespace Sys2Proof.Machine

theorem runTransaction_of_decode {t : Transaction} {i : Instr} (h : decode t = .ok i) (s : State) :
    runTransaction t s = exec i s := by
  rw [runTransaction, h]

theorem runTransaction_of_reject {t : Transaction} {e : Reject} (h : decode t = .error e) (s : State) :
    runTransaction t s = .next s.takeIll := by
  rw [runTransaction, h, execIllegal]

theorem step_command {s : State} {t : Transaction} {rest : List HostEvent} (h : s.inbox = .command t :: rest) :
    step s = runTransaction t (s.accept rest) := by
  rw [step, stepEvent, h]

/-! ### The indices WRREG reaches (R56) -/

theorem writableIndex_index (r : Reg) : writableIndex r.index = r.access.writable := by
  simp [writableIndex]

/-- The written indices are those of the registers of access CFG, KNOB and W1C (R21, R56). -/
theorem writtenIndex_index (r : Reg) : writtenIndex r.index.toNat = r.access.writable := by
  have rows : ∀ r ∈ Reg.all, writtenIndex r.index.toNat = r.access.writable := by decide
  exact rows r (Reg.mem_all r)

theorem writableIndex_of_not_written {idx : Byte} (h : writtenIndex idx.toNat = false) : writableIndex idx = false := by
  unfold writableIndex
  split
  next r hr => rw [← writtenIndex_index, Reg.index_of_ofIndex hr, h]
  next => rfl

/-! ### What a command answers (R57) -/

/-- A flag other than ILL leaves ILL alone (R34). -/
theorem State.ill_raiseIf (s : State) (c : Bool) {b : StatusBit} (hb : b ≠ .ill) :
    (s.raiseIf c b).status.getLsbD 0 = s.status.getLsbD 0 := by
  have mask : b.mask.getLsbD 0 = false := by
    cases b with
    | ill => exact absurd rfl hb
    | cfgErr | nanIn | kClamp => rfl
  cases c with
  | false => rfl
  | true => rw [raiseIf_status, if_pos rfl, BitVec.getLsbD_or, mask, Bool.or_false]

/-- What a completed command leaves at the response port, and that it raises no ILL (R57). -/
structure Completed (s t : State) : Prop where
  response : ∃ w, t.response = some ⟨w, false⟩
  ill : t.status.getLsbD 0 = true → s.status.getLsbD 0 = true

theorem Completed.of_status {s u : State} {w : Word} (h : u.status = s.status) : Completed s (u.answer w) where
  response := ⟨w, rfl⟩
  ill := by rw [State.answer_status, h]; exact id

theorem Completed.of_raiseIf {s u : State} {c : Bool} {b : StatusBit} {w : Word} (h : u.status = s.status)
    (hb : b ≠ .ill) : Completed s ((u.raiseIf c b).answer w) where
  response := ⟨w, rfl⟩
  ill := by rw [State.answer_status, State.ill_raiseIf u c hb, h]; exact id

/-- A write to STATUS raises nothing: it clears bits (R64). -/
theorem Completed.of_clearStatus (s : State) (v w : Word) : Completed s ((s.clearStatus v).answer w) where
  response := ⟨w, rfl⟩
  ill h := by
    rw [State.answer_status, State.clearStatus_status, getLsbD_clearedStatus s.status v (by norm_num)] at h
    exact (Bool.and_eq_true_iff.mp h).1

/-- A command whose index is in reach completes; any other takes ILL and does nothing else (R56, R57). -/
theorem exec_completed_or_ill {i : Instr} {s t : State} (h : exec i s = .next t) :
    (i.WellFormed = true ∧ Completed s t) ∨ (i.WellFormed = false ∧ t = s.takeIll) := by
  cases i with
  | nop =>
    obtain rfl := exec_nop_inv h
    exact .inl ⟨rfl, .of_status rfl⟩
  | sample x =>
    obtain ⟨quant, -, rfl⟩ := exec_sample_inv h
    exact .inl ⟨rfl, .of_raiseIf rfl (by decide)⟩
  | mix w =>
    obtain rfl := exec_mix_inv h
    exact .inl ⟨rfl, .of_raiseIf rfl (by decide)⟩
  | block =>
    obtain rfl := exec_block_inv h
    exact .inl ⟨rfl, .of_status rfl⟩
  | wrreg idx v =>
    rcases execWrreg_cases h with ⟨r, rfl, rfl⟩ | ⟨k, rfl, rfl⟩ | ⟨rfl, rfl⟩ | ⟨hw, rfl⟩
    · exact .inl ⟨writableIndex_index _, .of_raiseIf rfl (by decide)⟩
    · exact .inl ⟨writableIndex_index _, .of_raiseIf rfl (by decide)⟩
    · exact .inl ⟨writableIndex_index .status, .of_clearStatus s v _⟩
    · exact .inr ⟨hw, rfl⟩
  | rdreg idx =>
    rcases execRdreg_cases h with ⟨r, rfl, rfl⟩ | ⟨hr, rfl⟩
    · exact .inl ⟨by simp [Instr.WellFormed, readableIndex], .of_status rfl⟩
    · exact .inr ⟨hr, rfl⟩
  | wrtab idx n =>
    rcases execWrtab_cases h with ⟨hle, rfl⟩ | ⟨hgt, rfl⟩
    · exact .inl ⟨decide_eq_true hle, .of_raiseIf rfl (by decide)⟩
    · exact .inr ⟨decide_eq_false (by omega), rfl⟩
  | rdtab idx =>
    rcases execRdtab_cases h with ⟨hle, b, -, rfl⟩ | ⟨hgt, rfl⟩
    · exact .inl ⟨decide_eq_true hle, .of_status rfl⟩
    · exact .inr ⟨decide_eq_false (by omega), rfl⟩
  | sreset =>
    obtain rfl := exec_sreset_inv h
    exact .inl ⟨rfl, .of_status rfl⟩

end Sys2Proof.Machine

namespace Sys2Proof.Proofs

open Sys2Proof.Machine

/-- Settles O8: a step with a transaction runs it in the accepted state. -/
theorem stepRunsTheDecodedCommand : Obligations.StepRunsTheDecodedCommand := by
  intro s t rest i hin hd
  rw [step_command hin, runTransaction_of_decode hd]
  rfl

/-- Settles O4: R55's clauses are those of the three fields, and a rejected transaction takes ILL in the accepted state. -/
theorem illegalWordOnlySetsIll : Obligations.IllegalWordOnlySetsIll := by
  refine fun t => ⟨?_, fun s rest e hin he => ?_⟩
  · rw [decode_isError_iff, toNat_opcField, toNat_rsvField, toNat_idxField]
  · rw [step_command hin, runTransaction_of_reject he]
    rfl

/-- Settles O20: an index outside the listed ones names no register WRREG may reach. -/
theorem wrregRefusesOtherIndices : Obligations.WrregRefusesOtherIndices := fun _ v s h =>
  exec_wrreg_of_not_writable v s (writableIndex_of_not_written h)

/-- Settles O52: a command completes with RERR = 0 and raises no ILL, or takes ILL; an illegal word takes ILL. -/
theorem rerrExactlyAtIll : Obligations.RerrExactlyAtIll := by
  intro t s s' h
  cases hd : decode t with
  | error e =>
    rw [runTransaction_of_reject hd] at h
    obtain rfl := Host.Outcome.next.inj h
    exact ⟨_, _, rfl, by simp, fun _ => ⟨rfl, rfl⟩, nofun⟩
  | ok i =>
    rw [runTransaction_of_decode hd] at h
    rcases exec_completed_or_ill h with ⟨hwf, ⟨w, hw⟩, hill⟩ | ⟨hwf, rfl⟩
    · exact ⟨w, false, hw, by simp [hwf], nofun, fun _ => hill⟩
    · exact ⟨_, _, rfl, by simp [hwf], fun _ => ⟨rfl, rfl⟩, nofun⟩

end Sys2Proof.Proofs
end

section
/-!
PROOFS of the statements about the assembler (spec/30_encoding.md R60, R61): the words of each line, which lines are accepted, and
the value of a literal.
-/

namespace Sys2Proof.Machine

/-! ### The words of a line (R60) -/

theorem encode_wrreg (idx : Byte) (v : Word) : encode (.wrreg idx v) = ⟨0x04000000#32 ||| idx.setWidth 32, v⟩ :=
  congrArg (Transaction.mk · v) (commandWord_eq_or 4#8 idx)

theorem encode_rdreg (idx : Byte) : encode (.rdreg idx) = ⟨0x05000000#32 ||| idx.setWidth 32, 0#32⟩ :=
  congrArg (Transaction.mk · 0#32) (commandWord_eq_or 5#8 idx)

theorem encode_wrtab (idx : Byte) (n : Word) : encode (.wrtab idx n) = ⟨0x06000000#32 ||| idx.setWidth 32, n⟩ :=
  congrArg (Transaction.mk · n) (commandWord_eq_or 6#8 idx)

theorem encode_rdtab (idx : Byte) : encode (.rdtab idx) = ⟨0x07000000#32 ||| idx.setWidth 32, 0#32⟩ :=
  congrArg (Transaction.mk · 0#32) (commandWord_eq_or 7#8 idx)

/-- The table index of a scale degree fits its field (R60). -/
theorem setWidth_tableIndexOf {s j : Nat} (hs : s ≤ 5) (hj : j ≤ 14) :
    (tableIndexOf s j).setWidth 32 = BitVec.ofNat 32 (15 * s + j) := by
  rw [tableIndexOf, BitVec.setWidth_ofNat_of_le_of_lt (by norm_num) (by omega)]

/-- Every line but a raw `.cmd` stands for commands only. -/
theorem exists_encode_of_mem_expand {l : AsmLine} {t : Transaction} (hl : ∀ w o : Word, l ≠ .cmd w o)
    (ht : t ∈ expand l) : ∃ i, encode i = t := by
  cases l with
  | cmd w o => exact absurd rfl (hl w o)
  | loadscale s notes =>
    obtain ⟨p, -, rfl⟩ := List.mem_map.mp ht
    exact ⟨_, rfl⟩
  | knobs g c m t v r s =>
    simp only [expand, List.mem_cons, List.not_mem_nil, or_false] at ht
    rcases ht with rfl | rfl | rfl | rfl | rfl | rfl | rfl | rfl <;> exact ⟨_, rfl⟩
  | _ => exact ⟨_, (List.mem_singleton.mp ht).symm⟩

/-! ### Which lines are accepted (R60, R61) -/

theorem assemble_eq_some {l : AsmLine} {ts : List Transaction} (h : assemble l = some ts) : ts = expand l := by
  unfold assemble at h
  split at h
  next => exact (Option.some.inj h).symm
  next => cases h

/-- An accepted line is its expansion, its acceptance told as a proposition. -/
theorem assemble_of_iff {l : AsmLine} {p : Prop} [Decidable p] (h : l.WellFormed = true ↔ p) :
    assemble l = if p then some (expand l) else none := by
  simp only [assemble, h]

theorem assemble_wrtab (s j n : Nat) : assemble (.wrtab s j n) =
    if s ≤ 5 ∧ j ≤ 14 ∧ n ≤ 127 then some [⟨0x06000000#32 ||| BitVec.ofNat 32 (15 * s + j), BitVec.ofNat 32 n⟩]
    else none := by
  have accepted : (AsmLine.wrtab s j n).WellFormed = true ↔ s ≤ 5 ∧ j ≤ 14 ∧ n ≤ 127 := decide_eq_true_iff
  rw [assemble_of_iff accepted]
  split
  next h =>
    obtain ⟨hs, hj, -⟩ := h
    rw [expand, encode_wrtab, setWidth_tableIndexOf hs hj]
  next => rfl

theorem assemble_rdtab (s j : Nat) : assemble (.rdtab s j) =
    if s ≤ 5 ∧ j ≤ 14 then some [⟨0x07000000#32 ||| BitVec.ofNat 32 (15 * s + j), 0#32⟩] else none := by
  have accepted : (AsmLine.rdtab s j).WellFormed = true ↔ s ≤ 5 ∧ j ≤ 14 := decide_eq_true_iff
  rw [assemble_of_iff accepted]
  split
  next h =>
    obtain ⟨hs, hj⟩ := h
    rw [expand, encode_rdtab, setWidth_tableIndexOf hs hj]
  next => rfl

theorem assemble_wrreg (r : Reg) (v : Literal) : assemble (.wrreg r v) =
    if v.Fits r.type then some [⟨0x04000000#32 ||| r.index.setWidth 32, literalWord r.type v⟩] else none := by
  rw [← encode_wrreg]
  rfl

theorem assemble_wrregAt (idx : Byte) (v : Literal) : assemble (.wrregAt idx v) =
    if v.Fits (typeAt idx) then some [⟨0x04000000#32 ||| idx.setWidth 32, literalWord (typeAt idx) v⟩] else none := by
  rw [← encode_wrreg]
  rfl

theorem assemble_rdreg (r : Reg) : assemble (.rdreg r) = some [⟨0x05000000#32 ||| r.index.setWidth 32, 0#32⟩] := by
  rw [← encode_rdreg]
  rfl

theorem assemble_rdregAt (idx : Byte) : assemble (.rdregAt idx) = some [⟨0x05000000#32 ||| idx.setWidth 32, 0#32⟩] := by
  rw [← encode_rdreg]
  rfl

theorem loadscale_wellFormed_iff (s : Nat) (notes : List Nat) :
    (AsmLine.loadscale s notes).WellFormed = true ↔ s ≤ 5 ∧ notes.length = 15 ∧ ∀ n ∈ notes, n ≤ 127 := by
  simp [AsmLine.WellFormed, and_assoc]

/-! ### Literals (R60) -/

theorem decimal_fits_iff (ty : RegType) (neg : Bool) (num scale : Nat) :
    (Literal.decimal neg num scale).Fits ty = true ↔ ty = .f32 := by
  cases ty <;> simp [Literal.Fits]

theorem raw_fits (ty : RegType) (w : Word) : (Literal.raw w).Fits ty = true ∧ literalWord ty (.raw w) = w := by
  cases ty <;> exact ⟨rfl, rfl⟩

theorem toNat_integer_u32 {n : Int} (h : 0 ≤ n ∧ n < 2 ^ 32) : ((literalWord .u32 (.integer n)).toNat : Int) = n := by
  change ((BitVec.ofInt 32 n).toNat : Int) = n
  rw [BitVec.toNat_ofInt]
  omega

theorem toInt_integer_s32 {n : Int} (h : -2 ^ 31 ≤ n ∧ n < 2 ^ 31) : (literalWord .s32 (.integer n)).toInt = n :=
  BitVec.toInt_ofInt_eq_self (by norm_num) h.1 h.2

/-- A decimal literal is its exact value, rounded once (R16, R60). -/
theorem roundsTo_decimal (neg : Bool) (num scale : Nat) (h : (num : ℚ) / 10 ^ scale < 2 ^ 128 - 2 ^ 103) :
    Fp.RoundsTo (Fp.signOf neg * ((num : ℝ) / 10 ^ scale)) (literalWord .f32 (.decimal neg num scale)) := by
  have h : (num : ℝ) / 10 ^ scale < 2 ^ 128 - 2 ^ 103 := by
    have := (Rat.cast_lt (K := ℝ)).mpr h
    push_cast at this
    exact this
  refine Fp.roundsTo_round_of_abs_lt (by positivity) ?_ ?_
  · rw [Nat.cast_mul, Nat.cast_pow, Nat.cast_pow, Nat.cast_ofNat, Nat.cast_ofNat]
    field_simp
  · rwa [abs_mul, Fp.abs_signOf, one_mul, abs_of_nonneg (by positivity)]

/-! ### Pseudo-instructions (R61) -/

/-- A scale line writes note `j` to degree `j` of its scale (R61). -/
theorem expand_loadscale (s : Nat) (notes : List Nat) : expand (.loadscale s notes) =
    (List.range notes.length).flatMap fun j => expand (.wrtab s j (notes.getD j 0)) := by
  simp only [expand, ← List.map_eq_flatMap]
  refine List.ext_getElem (by simp) fun j hj _ => ?_
  have hj : j < notes.length := by simpa using hj
  simp [hj]

end Sys2Proof.Machine

namespace Sys2Proof.Proofs

open Sys2Proof.Machine

/-- Settles O6: each line's words, and a line but `.cmd` stands for encodings of commands, which decode. -/
theorem assembledLinesAreLegal : Obligations.AssembledLinesAreLegal := by
  refine ⟨fun l ts h hl t ht => ?_, rfl, rfl, rfl, fun _ _ => rfl, fun _ => ⟨rfl, rfl⟩,
    fun r v => ⟨assemble_rdreg r, assemble_wrreg r v⟩, fun idx v => ⟨assemble_rdregAt idx, assemble_wrregAt idx v⟩,
    assemble_wrtab, assemble_rdtab, fun _ _ => rfl, fun _ _ _ _ _ _ _ => assemble_of_iff List.all_eq_true,
    fun s notes => assemble_of_iff (loadscale_wellFormed_iff s notes), rfl, rfl, raw_fits, decimal_fits_iff, fun n => ?_⟩
  · rw [assemble_eq_some h] at ht
    obtain ⟨i, rfl⟩ := exists_encode_of_mem_expand hl ht
    exact ⟨i, decode_encode i⟩
  · have fits_u32 : (Literal.integer n).Fits .u32 = true ↔ 0 ≤ n ∧ n < 2 ^ 32 := decide_eq_true_iff
    have fits_s32 : (Literal.integer n).Fits .s32 = true ↔ -2 ^ 31 ≤ n ∧ n < 2 ^ 31 := decide_eq_true_iff
    exact ⟨⟨rfl, rfl⟩, fits_u32, fits_s32, fun h => toNat_integer_u32 (fits_u32.mp h),
      fun h => toInt_integer_s32 (fits_s32.mp h)⟩

/-- Settles O47: the literal's word is one rounding of its exact value. -/
theorem decimalLiteralsRoundOnce : Obligations.DecimalLiteralsRoundOnce := roundsTo_decimal

/-- Settles O7: each pseudo-instruction is its expansion by definition, a scale line by its notes' positions. -/
theorem pseudoInstructionsExpand : Obligations.PseudoInstructionsExpand := by
  refine ⟨fun _ _ => rfl, ⟨rfl, rfl⟩, rfl, rfl, fun s notes h => ?_, fun _ _ _ _ _ _ _ => rfl⟩
  rw [expand_loadscale, h]

end Sys2Proof.Proofs
end

section
/-!
PROOFS of the statements about the register and table commands (spec/40_register_commands.md R63, R65 to R68): what each answers
and writes, with its frame.
-/

namespace Sys2Proof.Machine

/-! ### The indices RDREG reaches (R20, R65) -/

/-- The indices that name a register are those R20 lists. -/
theorem readableIndex_eq_mappedIndex (idx : Byte) : readableIndex idx = mappedIndex idx.toNat := by
  have listed := Reg.mapped_iff_all idx.toNat idx.isLt
  rw [BitVec.ofNat_toNat, BitVec.setWidth_eq] at listed
  rw [readableIndex, listed]
  simp only [mappedIndex, Bool.decide_or, Bool.decide_and, beq_eq_decide, Bool.or_assoc]

theorem exists_index_of_mapped {idx : Byte} (h : mappedIndex idx.toNat = true) : ∃ r : Reg, r.index = idx := by
  rw [← readableIndex_eq_mappedIndex] at h
  obtain ⟨r, hr⟩ := Option.isSome_iff_exists.mp h
  exact ⟨r, Reg.index_of_ofIndex hr⟩

/-! ### NOP's opcode (R55, R63) -/

/-- Opcode 0 with a nonzero index or reserved field stands for no command. -/
theorem decode_isError_of_opcode_zero {w : Word} (o : Word) (hopc : w.toNat < 2 ^ 24) (hw : w ≠ 0#32) :
    ∃ e, decode ⟨w, o⟩ = .error e := by
  rw [decode_isError_iff]
  have hopc : (opcField w).toNat = 0 := by rw [toNat_opcField, Nat.div_eq_of_lt hopc]
  by_cases hrsv : (rsvField w).toNat = 0
  · have hidx : (idxField w).toNat ≠ 0 := by
      intro h
      rw [toNat_opcField] at hopc
      rw [toNat_rsvField] at hrsv
      rw [toNat_idxField] at h
      exact hw (BitVec.eq_of_toNat_eq (by rw [BitVec.toNat_ofNat]; omega))
    exact .inr (.inr ⟨hidx, by simp [hopc]⟩)
  · exact .inr (.inl hrsv)

/-! ### The table commands (R66, R67) -/

@[simp] theorem State.readReg_setTable (s : State) (m : Memory) (r : Reg) : { s with table := m }.readReg r = s.readReg r := by
  cases r <;> rfl

/-- A table write touches its entry and, where it corrects the operand, STATUS (R66). -/
theorem writeTable_frame (s : State) (a : Nat) (b : Byte) (c : Bool) (f : StatusBit) (w : Word) :
    UnchangedBut s (({ s with table := Memory.write s.table a b }.raiseIf c f).answer w) [.status] [a] where
  registers q hq := by
    rw [State.readReg_answer, State.readReg_raiseIf _ _ _ (by simpa using hq), State.readReg_setTable]
  table a' ha := by
    rw [State.answer_table, State.raiseIf_table]
    exact Memory.read_write_other s.table b (by simpa using ha)
  inbox := by simp
  pos := by simp

theorem exists_read_of_le (m : Memory) {a : Nat} (h : a ≤ 89) : ∃ b, Memory.read m a = some b :=
  Option.isSome_iff_exists.mp ((Memory.read_isSome_iff m a).mpr (by omega))

/-! ### SRESET (R68) -/

theorem readRo_softReset (s : State) {r : RoReg} (h : r ∈ dynamicRegs) : s.softReset.readRo r = 0#32 := by
  cases r with
  | gateOn | gateOff | glideC | scaleIdx => exact absurd h (by decide)
  | zcState => exact zcStateWord_eq false false
  | _ => rfl

/-- Every read-only register beside the smoothed knobs is derived or dynamic (R28 to R33). -/
theorem mem_derived_or_dynamic (r : RoReg) : r ∈ derivedRegs ++ dynamicRegs := r.mem_all

theorem softReset_frame (s : State) (w : Word) :
    UnchangedBut s (s.softReset.answer w) (Knob.all.map .ks ++ (derivedRegs ++ dynamicRegs).map .ro) [] where
  registers q hq := by
    cases q with
    | ks k => exact absurd (List.mem_append_left _ (List.mem_map_of_mem k.mem_all)) hq
    | ro r => exact absurd (List.mem_append_right _ (List.mem_map_of_mem (mem_derived_or_dynamic r))) hq
    | cfg _ | kraw _ | status | id | version => rfl
  table _ _ := rfl
  inbox := rfl
  pos := rfl

end Sys2Proof.Machine

namespace Sys2Proof.Proofs

open Sys2Proof.Machine

/-- Settles O11: the soft reset read register by register, and its frame. -/
theorem sresetClearsDynamicState : Obligations.SresetClearsDynamicState := fun s =>
  ⟨_, exec_sreset s, Knobs.reset_get, fun _ => readRo_softReset s, rfl, rfl, softReset_frame s _⟩

/-- Settles O14: the mapped indices are those of the registers, and RDREG takes ILL at every other. -/
theorem rdregReadsAnyMappedRegister : Obligations.RdregReadsAnyMappedRegister :=
  ⟨exec_rdreg_index, fun _ => exists_index_of_mapped,
    fun idx s h => exec_rdreg_of_not_readable s ((readableIndex_eq_mappedIndex idx).trans h)⟩

/-- Settles O21: the entry written reads as the note stored, and CFGERR is the flag of that note's correction. -/
theorem wrtabWritesOneEntry : Obligations.WrtabWritesOneEntry := by
  refine ⟨fun idx n s h => ?_, fun _ n s => exec_wrtab_of_gt n s⟩
  obtain ⟨note, corrected⟩ := noteOperand_spec n
  refine ⟨_, exec_wrtab_of_le n s h, rfl, writeTable_frame s idx.toNat _ _ _ _, ?_, ?_⟩
  · rw [State.answer_table, State.raiseIf_table, Memory.read_write_same s.table _ (by omega), Option.map_some, note]
  · rw [State.answer_status, State.raiseIf_status, corrected]
    simp only [decide_eq_true_eq]
    rfl

/-- Settles O22: an index up to 89 has an entry, which RDTAB answers; a greater one takes ILL. -/
theorem rdtabReadsOneEntry : Obligations.RdtabReadsOneEntry := by
  refine ⟨fun idx s h => ?_, fun _ s => exec_rdtab_of_gt s⟩
  obtain ⟨b, hb⟩ := exists_read_of_le s.table h
  exact ⟨b, hb, exec_rdtab_of_read hb⟩

/-- Settles O13: NOP only answers, and a word of its opcode with another field set is rejected. -/
theorem nopOnlyAnswers : Obligations.NopOnlyAnswers := ⟨exec_nop, fun _ => decode_isError_of_opcode_zero⟩

end Sys2Proof.Proofs
end

section
/-!
PROOFS of the statements about BLOCK (spec/41_block_command.md R73 to R79): what it leaves unchanged, the smoother and the
on-threshold in the order of evaluation the rules fix, and the scale index as a floor.
-/

namespace Sys2Proof.Machine

/-! ### The frame (R73) -/

/-- Whatever BLOCK's three steps compute, they reach the smoothed knobs, the derived registers and LOCKED only. -/
theorem block_frame (s : State) (ks : Knobs) (drv : Derived) (locked : Bool) (w : Word) :
    UnchangedBut s ({ s with ks := ks, drv := drv, locked := locked }.answer w)
      (Knob.all.map .ks ++ derivedRegs.map .ro ++ [.ro .locked]) [] where
  registers q hq := by
    simp only [List.mem_append, not_or] at hq
    obtain ⟨⟨hks, hdrv⟩, hlocked⟩ := hq
    cases q with
    | ks k => exact absurd (List.mem_map_of_mem k.mem_all) hks
    | ro r =>
      cases r with
      | gateOn | gateOff | glideC | scaleIdx => exact absurd (List.mem_map_of_mem (by decide)) hdrv
      | locked => exact absurd (List.mem_singleton_self _) hlocked
      | _ => rfl
    | cfg _ | kraw _ | status | id | version => rfl
  table _ _ := rfl
  inbox := rfl
  pos := rfl

/-! ### The values (R74 to R78) -/

/-- The smoother's order of evaluation: subtract, multiply, add, then Snap (R74, R11). -/
theorem smoothKnob_eq (c : Cfg) (ks kraw : F32) :
    smoothKnob c ks kraw =
      if Fp.lt (Fp.abs (Fp.add ks (Fp.mul c.knobCoef (Fp.sub kraw ks)))) c.floor then Fp.zero
      else Fp.add ks (Fp.mul c.knobCoef (Fp.sub kraw ks)) := rfl

/-- The on-threshold is the square of KS_GATE unless that is below GATE_ON_MIN (R75). -/
theorem gateOnOf_eq (c : Cfg) (ks : Knobs) :
    gateOnOf c ks =
      if Fp.lt (Fp.mul ks.gate ks.gate) c.gateOnMin then c.gateOnMin else Fp.mul ks.gate ks.gate := rfl

/-- The scale index is the floor of the value of the rounded product, and `min` leaves it (R77). -/
theorem scaleIdxOf_eq_floor {c : Cfg} (hc : c.Legal) {ks : Knobs} (hk : ks.Unit) :
    ((scaleIdxOf c ks).toNat : Int) = ⌊Fp.value (Fp.mul ks.scale c.scaleMul)⌋ ∧ (scaleIdxOf c ks).toNat ≤ 5 := by
  rw [Fp.floor_value]
  exact scaleIdxOf_spec hc hk

end Sys2Proof.Machine

namespace Sys2Proof.Proofs

open Sys2Proof.Machine

/-- Settles O23: each register BLOCK writes is the rule's expression over the old state and the knobs just smoothed. -/
theorem blockSmoothsAndDerives : Obligations.BlockSmoothsAndDerives := by
  intro s
  refine ⟨_, exec_block s, rfl, block_frame s _ _ _ _, fun k => ?smoothed, ?gateOn, ?gateOff, ?glideC, ?locked⟩
  case smoothed =>
    rw [State.readReg_answer]
    exact (smoothKnobs_get s.cfg s.ks s.kraw k).trans (smoothKnob_eq ..)
  case gateOn => exact gateOnOf_eq ..
  case gateOff | glideC | locked => rfl

/-- Settles O24: under the invariant the knobs just smoothed are in [0, 1], so the rounded product is below 6. -/
theorem blockScaleIndexIsTheFloor : Obligations.BlockScaleIndexIsTheFloor := fun s hs =>
  have smoothed := smoothKnobs_unit hs.cfg hs.ks hs.kraw
  ⟨_, exec_block s, scaleIdxOf_eq_floor hs.cfg smoothed⟩

end Sys2Proof.Proofs
end

section
/-!
PROOFS of the statements about SAMPLE as a command (spec/42_sample_command.md R81, R82): its outcome, its frame, and its sanitiser
case by case.
-/

namespace Sys2Proof.Machine

/-! ### The outcome of SAMPLE and its frame (R81) -/

/-- SAMPLE completes where SCALE_IDX is in 0..5, in the state its four stages give (R28, R81). -/
theorem exec_sample_next (x : Word) {s : State} (h : s.drv.scaleIdx.toNat ≤ 5) :
    ∃ quant, exec (.sample x) s = .next (((s.sampled (sanitizeX x).1 quant).raiseIf (sanitizeX x).2 .nanIn).answer
      (s.sampled (sanitizeX x).1 quant).voice.oscFreq) :=
  have ⟨quant, hq, _⟩ := execSample_next x s h
  ⟨quant, exec_sample_of_stageQ hq⟩

/-- The four stages write the dynamic registers, without LOCKED and Y_OUT. -/
theorem State.readReg_sampled (s : State) (x : F32) (quant : Quant) {q : Reg} (hq : q ∉ sampleRegs.map .ro) :
    (s.sampled x quant).readReg q = s.readReg q := by
  cases q with
  | ro r =>
    cases r with
    | gateOn | gateOff | glideC | scaleIdx | locked | yOut => rfl
    | _ => exact absurd (List.mem_map_of_mem (by decide)) hq
  | cfg _ | kraw _ | ks _ | status | id | version => rfl

theorem sampled_frame (s : State) (x : F32) (quant : Quant) (c : Bool) (w : Word) :
    UnchangedBut s (((s.sampled x quant).raiseIf c .nanIn).answer w) (.status :: sampleRegs.map .ro) [] where
  registers q hq := by
    obtain ⟨hstatus, hdynamic⟩ := List.ne_and_not_mem_of_not_mem_cons hq
    rw [State.readReg_answer, State.readReg_raiseIf _ _ _ hstatus, State.readReg_sampled _ _ _ hdynamic]
  table _ _ := by rw [State.answer_table, State.raiseIf_table]; rfl
  inbox := by rw [State.answer_inbox, State.raiseIf_inbox]; rfl
  pos := by rw [State.answer_pos, State.raiseIf_pos]; rfl

/-! ### The sanitiser, case by case (R82) -/

theorem sanitizeX_nan {x : Word} (h : Fp.isNaN x = true) : sanitizeX x = (Fp.zero, true) := by
  simp [sanitizeX, asF32, h]

theorem sanitizeX_posInf : sanitizeX 0x7F800000#32 = (Fp.one, true) := by decide

theorem sanitizeX_negInf : sanitizeX 0xFF800000#32 = (Fp.negOne, true) := by decide

/-- A finite operand is neither a NaN nor an infinity, and is clipped without a flag. -/
theorem sanitizeX_finite {x : Word} (h : Fp.isFinite x = true) :
    sanitizeX x = (if Fp.lt Fp.one x then Fp.one else if Fp.lt x Fp.negOne then Fp.negOne else x, false) := by
  have ne_inf (sgn : Bool) : x ≠ Fp.inf sgn := by
    rintro rfl
    revert h
    cases sgn <;> decide
  cases above : Fp.lt Fp.one x with
  | true => simp [sanitizeX, asF32, Fp.isNaN_of_finite h, ne_inf, above]
  | false => cases below : Fp.lt x Fp.negOne <;> simp [sanitizeX, asF32, Fp.isNaN_of_finite h, ne_inf, above, below]

/-- What X_LAST and STATUS hold after SAMPLE, by the sanitiser's answer. -/
theorem sampled_of_sanitizeX {x : Word} {v : F32} {flag : Bool} (h : sanitizeX x = (v, flag)) (s : State) (quant : Quant)
    (w : Word) :
    (((s.sampled (sanitizeX x).1 quant).raiseIf (sanitizeX x).2 .nanIn).answer w).xLast = v ∧
      (((s.sampled (sanitizeX x).1 quant).raiseIf (sanitizeX x).2 .nanIn).answer w).status =
        if flag then s.status ||| 0x00000004#32 else s.status := by
  rw [h, State.answer_xLast, State.raiseIf_xLast, State.answer_status, State.raiseIf_status]
  exact ⟨rfl, rfl⟩

end Sys2Proof.Machine

namespace Sys2Proof.Proofs

open Sys2Proof.Machine

/-- Settles O25: the state SAMPLE leaves, and its frame. -/
theorem sampleCompletesWithItsFrame : Obligations.SampleCompletesWithItsFrame := by
  intro s x hs
  obtain ⟨quant, h⟩ := exec_sample_next x hs
  refine ⟨_, h, ?_, sampled_frame s _ quant _ _⟩
  rw [State.answer_response, State.readReg_answer, State.readReg_raiseIf _ _ _ (by decide)]
  rfl

/-- Settles O26: one case of the sanitiser for each clause. -/
theorem sampleSanitizesItsInput : Obligations.SampleSanitizesItsInput := by
  intro s x hs
  obtain ⟨quant, h⟩ := exec_sample_next x hs
  refine ⟨_, h, fun hx => ?nan, fun hx => ?posInf, fun hx => ?negInf, fun hx => ?finite⟩
  case nan => exact sampled_of_sanitizeX (sanitizeX_nan hx) s quant _
  case posInf => exact sampled_of_sanitizeX (hx ▸ sanitizeX_posInf) s quant _
  case negInf => exact sampled_of_sanitizeX (hx ▸ sanitizeX_negInf) s quant _
  case finite => exact (sampled_of_sanitizeX (sanitizeX_finite hx) s quant _).symm

end Sys2Proof.Proofs
end

section
/-!
PROOFS of the statements about safety (spec/42_sample_command.md R86; spec/60_exceptions.md R120): the invariant bounds every f32
register, no command stops in a state that has it, and so along every run.
-/

namespace Sys2Proof.Machine

/-! ### Every f32 register is finite under the invariant (R86) -/

theorem Fp.isFinite_of_within {lo hi v : F32} (h : Fp.within lo hi v = true) (hlo : Fp.isFinite lo = true)
    (hhi : Fp.isFinite hi = true) : Fp.isFinite v = true := (Fp.in_of_within hlo hhi h).finite

theorem Fp.le_of_lt {x y : F32} (h : Fp.lt x y = true) : Fp.le x y = true := by
  simp only [Fp.lt, Fp.le, Bool.and_eq_true, decide_eq_true_eq] at h ⊢
  exact ⟨h.1, h.2.le⟩

theorem CfgReg.range_of_type {r : CfgReg} (h : r.type = .f32) : ∃ lo hi, r.range = .f32 lo hi := by
  unfold CfgReg.type at h
  split at h
  next lo hi hr => exact ⟨lo, hi, hr⟩
  all_goals cases h

theorem Cfg.Legal.finite {c : Cfg} (hc : c.Legal) {r : CfgReg} (h : r.type = .f32) : Fp.isFinite (c.get r) = true := by
  obtain ⟨lo, hi, hr⟩ := CfgReg.range_of_type h
  obtain ⟨hlo, hhi, -⟩ := CfgReg.range_ordered r hr
  exact (hc.float r hr hlo hhi).finite

theorem Knobs.Unit.finite {n : Knobs} (hn : n.Unit) (k : Knob) : Fp.isFinite (n.get k) = true :=
  (in_unit (hn k k.mem_all)).finite

/-- GATE_OFF has no upper bound of its own in the invariant: GATE_ON is above it (R28). -/
theorem Derived.Ok.finite_gateOff {v : Derived} (h : v.Ok) : Fp.isFinite v.gateOff = true := by
  obtain ⟨below, nonneg, on, -⟩ := h
  have hon := in_unit on
  have upper : Fp.le v.gateOff v.gateOn = true := Fp.le_of_lt below
  exact Fp.isFinite_of_within (Bool.and_eq_true_iff.mpr ⟨nonneg, upper⟩) Fp.isFinite_zero hon.finite

theorem State.Inv.finite_readRo {s : State} (hs : s.Inv) {r : RoReg} (h : r.type = .f32) :
    Fp.isFinite (s.readRo r) = true := by
  obtain ⟨-, -, gateOn, glideC, -⟩ := hs.drv
  obtain ⟨dcX1, dcY1, lp, freq, cert⟩ := hs.det
  obtain ⟨envS1, envS2, level⟩ := hs.env
  obtain ⟨qlast, target⟩ := hs.quant
  obtain ⟨smooth, ⟨phaseNonneg, phaseBelow⟩, pitchOut, oscFreq, vcaGain, vcaTgt⟩ := hs.voice
  cases r with
  | scaleIdx | zcState | zcCount | periodLast | gate | locked => cases h
  | gateOff => exact hs.drv.finite_gateOff
  | qlast => exact (noteValue_in qlast).finite
  | target => exact (noteValue_in target).finite
  | lfoPhase =>
    exact Fp.isFinite_of_within (Bool.and_eq_true_iff.mpr ⟨phaseNonneg, Fp.le_of_lt phaseBelow⟩) (by decide) (by decide)
  | yOut => exact hs.yOut
  | xLast => exact Fp.isFinite_of_within hs.xLast (by decide) (by decide)
  | gateOn | glideC | dcX1 | dcY1 | lp | freq | cert | envS1 | envS2 | level | smooth | pitchOut | oscFreq | vcaGain
  | vcaTgt => exact Fp.isFinite_of_within (by assumption) (by decide) (by decide)

theorem State.Inv.finite {s : State} (hs : s.Inv) : s.Finite := by
  intro r h
  cases r with
  | cfg r => exact hs.cfg.finite h
  | kraw k => exact Knobs.Unit.finite hs.kraw k
  | ks k => exact Knobs.Unit.finite hs.ks k
  | ro r => exact hs.finite_readRo h
  | status | id | version => cases h

/-! ### No command stops (R120) -/

/-- Only SAMPLE's search could stop, and SCALE_IDX in 0..5 keeps it within the table (R28, R41). -/
theorem exec_continues (i : Instr) {s : State} (h : s.drv.scaleIdx.toNat ≤ 5) : Continues (exec i s) := by
  cases i with
  | nop => exact ⟨_, exec_nop s⟩
  | sample x => exact (exec_sample_next x h).elim fun _ hx => ⟨_, hx⟩
  | mix w => exact ⟨_, exec_mix w s⟩
  | block => exact ⟨_, exec_block s⟩
  | wrreg idx v =>
    cases hr : Reg.ofIndex idx with
    | none => exact ⟨_, exec_wrreg_of_not_writable v s (by rw [writableIndex, hr])⟩
    | some r =>
      obtain rfl := Reg.index_of_ofIndex hr
      cases r with
      | cfg r => exact ⟨_, exec_wrreg_cfg r v s⟩
      | kraw k => exact ⟨_, exec_wrreg_kraw k v s⟩
      | status => exact ⟨_, exec_wrreg_status v s⟩
      | ks _ | ro _ | id | version => exact ⟨_, exec_wrreg_of_not_writable v s (writableIndex_index _)⟩
  | rdreg idx =>
    cases hr : Reg.ofIndex idx with
    | none => exact ⟨_, exec_rdreg_of_not_readable s (by rw [readableIndex, hr]; rfl)⟩
    | some r =>
      obtain rfl := Reg.index_of_ofIndex hr
      exact ⟨_, exec_rdreg_index r s⟩
  | wrtab idx n =>
    rcases Nat.lt_or_ge 89 idx.toNat with hi | hi
    · exact ⟨_, exec_wrtab_of_gt n s hi⟩
    · exact ⟨_, exec_wrtab_of_le n s hi⟩
  | rdtab idx =>
    rcases Nat.lt_or_ge 89 idx.toNat with hi | hi
    · exact ⟨_, exec_rdtab_of_gt s hi⟩
    · exact (exists_read_of_le s.table hi).elim fun _ hb => ⟨_, exec_rdtab_of_read hb⟩
  | sreset => exact ⟨_, exec_sreset s⟩

theorem runTransaction_continues (t : Transaction) {s : State} (h : s.drv.scaleIdx.toNat ≤ 5) :
    Continues (runTransaction t s) := by
  cases hd : decode t with
  | ok i =>
    rw [runTransaction_of_decode hd]
    exact exec_continues i h
  | error e => exact ⟨_, runTransaction_of_reject hd s⟩

theorem step_continues {s : State} (h : s.drv.scaleIdx.toNat ≤ 5) : Continues (step s) := by
  cases hin : s.inbox with
  | nil => exact ⟨s, by rw [step, stepEvent, hin]⟩
  | cons event rest =>
    cases event with
    | hardReset => exact ⟨(s.takeEvent rest).hardReset, by rw [step, stepEvent, hin]⟩
    | command t =>
      rw [step_command hin]
      exact runTransaction_continues t h

theorem State.Inv.continues {s : State} (hs : s.Inv) : Continues (step s) := by
  obtain ⟨-, -, -, -, scaleIdx⟩ := hs.drv
  exact step_continues scaleIdx

/-! ### Runs -/

theorem run_succ_of_step {M : Host.Core} {s u : M.State} (h : M.step s = .next u) (k : Nat) :
    M.run (k + 1) s = M.run k u := by
  simp only [Host.Core.run, h]

/-- From a state that has the invariant a run of any length goes on, and ends in one that has it. -/
theorem run_next_inv (k : Nat) {s : State} (hs : s.Inv) : ∃ t, core.run k s = .next t ∧ t.Inv := by
  induction k generalizing s with
  | zero => exact ⟨s, rfl, hs⟩
  | succ k ih =>
    obtain ⟨u, hu⟩ := hs.continues
    obtain ⟨t, ht, hinv⟩ := ih (step_keeps_inv hs hu)
    exact ⟨t, (run_succ_of_step (M := core) hu k).trans ht, hinv⟩

/-- Placing events at the port leaves every register at its reset value. -/
theorem State.reset_withInbox_inv (es : List HostEvent) : State.Inv { State.reset with inbox := es } :=
  State.reset_inv.of_same ⟨rfl, rfl, rfl, rfl, rfl, rfl, rfl, rfl, rfl, rfl, rfl, rfl, rfl⟩

end Sys2Proof.Machine

namespace Sys2Proof.Proofs

open Sys2Proof.Machine

/-- Settles O59: each conjunct of the invariant bounds its f32 registers, and SCALE_IDX is in 0..5. -/
theorem invariantIsSafe : Obligations.InvariantIsSafe := fun _ hs => ⟨hs.finite, hs.continues⟩

/-- Settles O60: the invariant holds at reset, whatever the events, and every step keeps it. -/
theorem everyRunStaysFinite : Obligations.EveryRunStaysFinite := fun es k =>
  have ⟨t, hrun, hinv⟩ := run_next_inv k (State.reset_withInbox_inv es)
  ⟨t, hrun, hinv.finite⟩

end Sys2Proof.Proofs
end

section
/-!
PROOFS of the statement about silence (spec/42_sample_command.md R86; spec/44_envelope_gate.md R97 to R100): zeros of the detector
stay +0.0, bit by bit, and the envelope stays within its offset, whose root is not above the on-threshold.
-/

namespace Sys2Proof.Machine.Fp

/-! ### The sign of zero in products and differences -/

/-- The only number of value at least 0 with its sign bit set is -0.0. -/
theorem sign_of_nonneg {x : F32} (h : 0 ≤ toInt x) (hz : x ≠ 0x80000000#32) : sign x = false := by
  rcases h.lt_or_eq with hpos | hzero
  · exact sign_of_pos hpos
  · have magnitude : mag x = 0 := by
      by_contra hm
      have := mt units_eq_zero.mp hm
      unfold toInt at hzero
      split at hzero <;> omega
    by_contra hs
    exact hz (eq_of_sign_mag ((Bool.eq_true_of_not_eq_false hs).trans (by decide)) (magnitude.trans (by decide)))

theorem units_mag_zero : units (mag zero) = 0 := by decide
theorem sign_zero : sign zero = false := by decide

/-- A number with a clear sign bit times +0.0 is +0.0. -/
theorem mul_zero_of_sign {x : F32} (hx : isFinite x = true) (hs : sign x = false) : mul x zero = zero := by
  rw [mul_of_finite hx isFinite_zero, hs, units_mag_zero, sign_zero, Nat.mul_zero, round, roundMag_zero]
  decide

theorem zero_mul_of_sign {x : F32} (hx : isFinite x = true) (hs : sign x = false) : mul zero x = zero := by
  rw [mul_of_finite isFinite_zero hx, hs, units_mag_zero, sign_zero, Nat.zero_mul, round, roundMag_zero]
  decide

/-- `1 - x` for `x` up to 1 has a clear sign bit: an exact zero difference is +0.0. -/
theorem sign_one_sub {x : F32} (hx : In 0 (2 ^ 149) x) : sign (sub one x) = false := by
  have hneg : isFinite (neg x) = true := by rw [isFinite_neg, hx.finite]
  have nonneg : ¬ toInt one + toInt (neg x) < 0 := by
    have := hx.upper
    rw [toInt_one, toInt_neg]
    omega
  rw [sub, add_of_finite isFinite_one hneg]
  split
  next => exact sign_ofMag _ (by norm_num)
  next => rw [sign_round, decide_eq_false nonneg]

theorem snap_zero (fl : F32) : snap fl zero = zero := (snap_cases fl zero).elim id id

/-! ### The bounds of silence: 2^-39 and its root's bound 2^-19 -/

theorem pow_minus_39 : Pow 0x2C000000#32 87 := ⟨by decide, by decide, by decide⟩
theorem pow_minus_19 : Pow 0x36000000#32 107 := ⟨by decide, by decide, by decide⟩

theorem le_pow_iff {B x : F32} {e : Nat} (hB : Pow B e) (hx : isFinite x = true) :
    le x B = true ↔ toInt x ≤ 2 ^ (e + 23) := by
  rw [le_iff hx hB.finite, hB.toInt]

end Sys2Proof.Machine.Fp

namespace Sys2Proof.Machine

/-- A configuration register whose range starts at 0 has a clear sign bit: it never holds -0.0 (R22, R23). -/
theorem Cfg.Legal.sign {c : Cfg} (hc : c.Legal) (r : CfgReg) {hi : F32} (hr : r.range = .f32 Fp.zero hi) :
    Fp.sign (c.get r) = false := by
  obtain ⟨hlo, hhi, -⟩ := CfgReg.range_ordered r hr
  exact Fp.sign_of_nonneg (Fp.toInt_zero ▸ (hc.float r hr hlo hhi).lower) (hc.ne_negZero r hr)

theorem sanitizeX_zero : sanitizeX 0#32 = (Fp.zero, false) := by decide

/-! ### Stage P under silence -/

/-- The detector at reset but for the sample counter. -/
def Detector.silent (count : Word) : Detector := { Detector.reset with zcCount := count }

theorem pitchHp_silent {c : Cfg} (hc : c.Legal) (n : Word) : pitchHp c (.silent n) Fp.zero = Fp.zero := by
  have feedback : Fp.mul c.dcR Fp.zero = Fp.zero := Fp.mul_zero_of_sign (hc.finite (r := .dcR) rfl) (hc.sign .dcR rfl)
  have sum : Fp.add (Fp.sub Fp.zero Fp.zero) Fp.zero = Fp.zero := by decide
  calc pitchHp c (.silent n) Fp.zero
    _ = Fp.snap c.floor (Fp.add (Fp.sub Fp.zero Fp.zero) (Fp.mul c.dcR Fp.zero)) := rfl
    _ = Fp.zero := by rw [feedback, sum, Fp.snap_zero]

theorem pitchLp_silent {c : Cfg} (hc : c.Legal) (n : Word) : pitchLp c (.silent n) Fp.zero = Fp.zero := by
  have unit : Fp.In 0 (2 ^ 149) c.lpKeep := hc.unit .lpKeep rfl
  have kept : Fp.mul c.lpKeep Fp.zero = Fp.zero := Fp.mul_zero_of_sign unit.finite (hc.sign .lpKeep rfl)
  have new : Fp.mul (Fp.sub Fp.one c.lpKeep) Fp.zero = Fp.zero :=
    Fp.mul_zero_of_sign (one_sub_in unit).finite (Fp.sign_one_sub unit)
  have sum : Fp.add Fp.zero Fp.zero = Fp.zero := by decide
  calc pitchLp c (.silent n) Fp.zero
    _ = Fp.snap c.floor (Fp.add (Fp.mul c.lpKeep Fp.zero)
          (Fp.mul (Fp.sub Fp.one c.lpKeep) (pitchHp c (.silent n) Fp.zero))) := rfl
    _ = Fp.zero := by rw [pitchHp_silent hc, kept, new, sum, Fp.snap_zero]

/-- +0.0 is inside the hysteresis band: no edge (R90). -/
theorem pitchEdge_silent {c : Cfg} (hc : c.Legal) (n : Word) : pitchEdge c (.silent n) Fp.zero = .none := by
  have band : Fp.In (Fp.toInt Fp.zero) (Fp.toInt Fp.one) c.zcEps := hc.float .zcEps rfl (by decide) (by decide)
  have inside : Fp.lt c.zcEps Fp.zero = false := by
    rw [Bool.eq_false_iff, Ne, Fp.lt_iff band.finite Fp.isFinite_zero, not_lt]
    exact band.lower
  rw [pitchEdge, pitchLp_silent hc]
  simp [edgeOf, inside, Detector.silent, Detector.reset]

theorem decayedCert_zero {c : Cfg} (hc : c.Legal) : decayedCert c Fp.zero = Fp.zero := by
  have decay : Fp.mul Fp.zero c.certDecay = Fp.zero :=
    Fp.zero_mul_of_sign (hc.finite (r := .certDecay) rfl) (hc.sign .certDecay rfl)
  rw [decayedCert, decay, Fp.snap_zero]

/-- Stage P on a silent detector counts the sample and does nothing else. -/
theorem stageP_silent {c : Cfg} (hc : c.Legal) (n : Word) : stageP c (.silent n) Fp.zero = .silent (countUp n) := by
  have accepted : pitchAccepted c (.silent n) Fp.zero = false := by
    rw [pitchAccepted, pitchEdge_silent hc]
    rfl
  have cert : decayedCert c (Detector.silent n).cert = Fp.zero := decayedCert_zero hc
  simp only [stageP, accepted, pitchEdge_silent hc, pitchHp_silent hc, pitchLp_silent hc, cert]
  rfl

/-! ### Stage E under silence (R97 to R100) -/

/-- Under silence the energy is the offset. -/
theorem energyOf_zero_in {c : Cfg} (hc : c.Legal) (h : Fp.le c.envOffset 0x2C000000#32 = true) :
    Fp.In 0 (2 ^ 110) (energyOf c Fp.zero) := by
  have offset : Fp.In (Fp.toInt Fp.zero) (Fp.toInt 0x3A83126F#32) c.envOffset :=
    hc.float .envOffset rfl (by decide) (by decide)
  have square : Fp.mul Fp.zero Fp.zero = Fp.zero := by decide
  have lower := offset.lower
  have upper := (Fp.le_iff offset.finite Fp.pow_minus_39.finite).mp h
  have between := Fp.add_between Fp.isFinite_zero offset.finite Fp.isFinite_zero Fp.pow_minus_39.finite
    (by rwa [Fp.toInt_zero, zero_add]) (by rwa [Fp.toInt_zero, zero_add])
  rw [Fp.toInt_zero, Fp.pow_minus_39.toInt] at between
  obtain ⟨finite, nonneg, le⟩ := between
  rw [energyOf, square]
  exact ⟨finite, nonneg, le⟩

/-- A section stays within 2^-39 where its state and its input do (R98). -/
theorem envSection_quiet {c : Cfg} (hc : c.Legal) {s x : F32} (hs : Fp.In 0 (2 ^ 110) s) (hx : Fp.In 0 (2 ^ 110) x) :
    Fp.In 0 (2 ^ 110) (envSection c s x) :=
  (Fp.filter_step Fp.pow_minus_39 (by norm_num) hs hx (hc.unit .envA rfl)).snap le_rfl (by norm_num)

/-- The root of a mean square up to 2^-39 is at most 2^-19 (R99): the statement rounds the bound up to a power of two. -/
theorem levelOf_quiet {s : F32} (hs : Fp.In 0 (2 ^ 110) s) : Fp.In 0 (2 ^ 130) (levelOf s) := by
  have hmax := max_in (Fp.in_zero (lo := 0) le_rfl (by positivity)) hs
  have root := sqrt_in (hmax.mono (le_max_of_le_left Fp.toInt_zero.ge) le_rfl) Fp.pow_minus_19.finite
    (by rw [Fp.pow_minus_19.toInt]; positivity) (by rw [Fp.pow_minus_19.toInt]; norm_num)
  rwa [Fp.pow_minus_19.toInt] at root

/-- A closed gate stays closed at a level up to 2^-19 where its on-threshold is no lower (R100). -/
theorem gateAfter_quiet {v : Derived} {gateOpen : Bool} {level : F32} (hv : Fp.isFinite v.gateOn = true)
    (hon : Fp.le 0x36000000#32 v.gateOn = true) (hclosed : gateOpen = false) (hlevel : Fp.In 0 (2 ^ 130) level) :
    gateAfter v gateOpen level = false := by
  have threshold := (Fp.le_iff Fp.pow_minus_19.finite hv).mp hon
  rw [Fp.pow_minus_19.toInt] at threshold
  have not_above : Fp.lt v.gateOn level = false := by
    rw [Bool.eq_false_iff, Ne, Fp.lt_iff hv hlevel.finite, not_lt]
    exact hlevel.upper.trans threshold
  rw [gateAfter, hclosed, if_neg Bool.false_ne_true, not_above]

/-- The envelope under silence: both sections within 2^-39 and the gate closed. -/
structure Envelope.Silent (e : Envelope) : Prop where
  envS1 : Fp.In 0 (2 ^ 110) e.envS1
  envS2 : Fp.In 0 (2 ^ 110) e.envS2
  gateClosed : e.gateOpen = false

/-- Stage E keeps silence where the offset is up to 2^-39 and the on-threshold at least 2^-19. -/
theorem stageE_silent {c : Cfg} (hc : c.Legal) {v : Derived} (hv : v.Ok) {e : Envelope} (he : e.Silent)
    (hoffset : Fp.le c.envOffset 0x2C000000#32 = true) (hon : Fp.le 0x36000000#32 v.gateOn = true) :
    (stageE c v e Fp.zero).Silent := by
  have s1 := envSection_quiet hc he.envS1 (energyOf_zero_in hc hoffset)
  have s2 := envSection_quiet hc he.envS2 s1
  obtain ⟨-, -, on, -⟩ := hv
  exact ⟨s1, s2, gateAfter_quiet (in_unit on).finite hon he.gateClosed (levelOf_quiet s2)⟩

/-- The statement's bound on a section, read with the invariant's. -/
theorem quiet_of_le {x : F32} (hx : Fp.within Fp.zero 0x40000000#32 x = true) (h : Fp.le x 0x2C000000#32 = true) :
    Fp.In 0 (2 ^ 110) x := by
  have range := Fp.in_of_within Fp.isFinite_zero (by decide) hx
  exact ⟨range.finite, Fp.toInt_zero ▸ range.lower, (Fp.le_pow_iff Fp.pow_minus_39 range.finite).mp h⟩

theorem le_of_quiet {x : F32} (h : Fp.In 0 (2 ^ 110) x) : Fp.le x 0x2C000000#32 = true :=
  (Fp.le_pow_iff Fp.pow_minus_39 h.finite).mpr h.upper

theorem vcaTarget_of_gateClosed (c : Cfg) (d : Detector) {e : Envelope} (h : e.gateOpen = false) :
    vcaTarget c d e = Fp.zero := by
  rw [vcaTarget, h, Bool.false_and, if_neg Bool.false_ne_true]

end Sys2Proof.Machine

namespace Sys2Proof.Proofs

open Sys2Proof.Machine

/-- Settles O39: stage P only counts, stage E keeps its bounds and the gate closed, and a closed gate has no target gain. -/
theorem silenceStaysSilent : Obligations.SilenceStaysSilent := by
  intro s hs hdet hgate hoffset hs1 hs2 hon
  obtain ⟨-, -, -, -, scaleIdx⟩ := hs.drv
  obtain ⟨s1, s2, -⟩ := hs.env
  obtain ⟨quant, hnext⟩ := exec_sample_next 0#32 scaleIdx
  rw [sanitizeX_zero] at hnext
  have env := stageE_silent hs.cfg hs.drv ⟨quiet_of_le s1 hs1, quiet_of_le s2 hs2, hgate⟩ hoffset hon
  have det : stageP s.cfg s.det Fp.zero = .silent (countUp s.det.zcCount) := by
    rw [hdet]
    exact stageP_silent hs.cfg _
  refine ⟨_, hnext, ?detector, env.gateClosed, le_of_quiet env.envS1, le_of_quiet env.envS2,
    vcaTarget_of_gateClosed _ _ env.gateClosed⟩
  case detector =>
    rw [State.answer_det, State.raiseIf_det, State.sampled]
    exact det.trans (by rw [det]; rfl)

end Sys2Proof.Proofs
end

section
/-!
PROOFS of the statements about the pitch detector (spec/43_pitch_detector.md R87 to R96): stage P's registers after SAMPLE,
the edge test as conditions on the old flags, and the strict decay of the certainty.
-/

namespace Sys2Proof.Machine.Fp

/-! ### A rounded product by a factor below 1.0 -/

/-- The step up to a magnitude above 2^-126 is less than a 2^23rd of it. -/
theorem units_succ_lt {m : Nat} (h : 2 ^ 23 ≤ m) : 2 ^ 23 * units (m + 1) < 2 ^ 23 * units m + units (m + 1) := by
  obtain ⟨e, k, hm, lower, upper⟩ : ∃ e k, m = e * 2 ^ 23 + k ∧ 2 ^ 23 ≤ k ∧ k < 2 ^ 24 :=
    ⟨m / 2 ^ 23 - 1, 2 ^ 23 + m % 2 ^ 23, by omega, by omega, by omega⟩
  have next : units (m + 1) = k * 2 ^ e + 2 ^ e := by
    rw [hm, Nat.add_assoc, units_pack (by omega) (by omega), Nat.succ_mul]
  have floor : 2 ^ 23 * 2 ^ e ≤ k * 2 ^ e := Nat.mul_le_mul_right _ lower
  have pos := Nat.two_pow_pos e
  rw [next, hm, units_pack lower upper.le]
  omega

theorem units_pred_mag_one : units (mag one - 1) = 2 ^ 149 - 2 ^ 125 := by decide +kernel

/-- A factor below 1.0 takes a magnitude above 2^-126 past the midpoint to the magnitude below it, so the rounded product is
smaller. At 2^-126 itself it may only reach the midpoint, a tie that rounds back up. -/
theorem nearestMag_mul_lt {m q : Nat} (hm : 2 ^ 23 < m) (hq : q < mag one) :
    nearestMag (units m * units q) (2 ^ 149) < m := by
  obtain ⟨k, rfl⟩ : ∃ k, m = k + 1 := ⟨m - 1, by omega⟩
  have gap : 2 ^ 23 * units (k + 1) < 2 ^ 23 * units k + units (k + 1) := units_succ_lt (by omega)
  have factor : units q ≤ 2 ^ 149 - 2 ^ 125 := units_pred_mag_one ▸ units_le_iff.mpr (by omega)
  have product := Nat.mul_le_mul_left (units (k + 1)) factor
  exact Nat.lt_succ_of_le (nearestMag_le_of_lt_mid (by positivity) (by omega))

theorem toInt_pow_minus_125 : toInt 0x01000000#32 = 2 ^ 24 := by decide +kernel

theorem roundInt_natCast (n d : Nat) : roundInt n d = units (roundMag n d) := roundInt_signed false n d

theorem toInt_of_nonneg {x : F32} (h : 0 ≤ toInt x) : toInt x = units (mag x) := by
  unfold toInt at h ⊢
  split at h
  · rw [if_pos ‹_›]
    omega
  · rw [if_neg ‹_›]

/-- From 2^-125 on, a rounded product by a factor in [0, 1) is strictly below the number. -/
theorem mul_lt_of_lt_one {x y : F32} (hx : isFinite x = true) (hy : In 0 (2 ^ 149) y) (large : le 0x01000000#32 x = true)
    (small : lt y one = true) : isFinite (mul x y) = true ∧ toInt (mul x y) < toInt x := by
  rw [le_iff (by decide) hx, toInt_pow_minus_125] at large
  rw [lt_iff hy.finite isFinite_one, toInt_one] at small
  have xval := toInt_of_nonneg (by omega : 0 ≤ toInt x)
  have yval := toInt_of_nonneg hy.lower
  have normal : 2 ^ 23 < mag x := by
    have : units (2 ^ 23) = 2 ^ 23 := by decide +kernel
    exact units_lt_iff.mp (by omega)
  have factor : mag y < mag one := units_lt_iff.mp (by rw [units_mag_one]; omega)
  have less := nearestMag_mul_lt normal factor
  have finite := less.trans (isFinite_iff.mp hx)
  have exact_product : toInt x * toInt y = ((units (mag x) * units (mag y) : Nat) : Int) := by
    rw [xval, yval, Nat.cast_mul]
  refine ⟨(isFinite_mul hx hy.finite).mpr (by rwa [exact_product]), ?_⟩
  rw [toInt_mul hx hy.finite, exact_product, roundInt_natCast, roundMag_of_lt finite, xval]
  exact_mod_cast units_lt_iff.mpr less

end Sys2Proof.Machine.Fp

namespace Sys2Proof.Machine

/-! ### What SAMPLE leaves in the detector -/

/-- After SAMPLE the detector is stage P's, on the sample X_LAST holds (R81, R82). -/
theorem exec_sample_det (x : Word) {s : State} (h : s.drv.scaleIdx.toNat ≤ 5) :
    ∃ t, exec (.sample x) s = .next t ∧ t.det = stageP s.cfg s.det t.xLast := by
  obtain ⟨quant, hnext⟩ := exec_sample_next x h
  refine ⟨_, hnext, ?_⟩
  rw [State.answer_det, State.raiseIf_det, State.answer_xLast, State.raiseIf_xLast]
  rfl

/-! ### The counter and the edge test (R89 to R92) -/

theorem toNat_countUp (n : Word) : (countUp n).toNat = min (n.toNat + 1) 0xFFFFFFFF := by
  unfold countUp
  split
  next saturated => rw [saturated]; rfl
  next below =>
    have := n.isLt
    have : n.toNat ≠ 0xFFFFFFFF := fun h => below (BitVec.eq_of_toNat_eq h)
    rw [BitVec.toNat_add]
    simp only [BitVec.toNat_ofNat]
    omega

/-- A rising edge: FALL = 0 and the low-pass output above the band (R90). -/
def risingEdge (c : Cfg) (d : Detector) (lp : F32) : Bool := !d.fall && Fp.lt c.zcEps lp

theorem edgeOf_of_rise {c : Cfg} {d : Detector} {lp : F32} (h : risingEdge c d lp = true) (n : Word) :
    edgeOf c d lp n = if !d.armed then .arm else if c.holdoff.toNat ≤ n.toNat then .measure else .heldOff := if_pos h

theorem edgeOf_of_no_rise {c : Cfg} {d : Detector} {lp : F32} (h : risingEdge c d lp = false) (n : Word) :
    edgeOf c d lp n = if d.fall && Fp.lt lp (Fp.neg c.zcEps) then .fall else .none := if_neg (Bool.eq_false_iff.mp h)

/-- FALL is set by a rising edge of any kind and cleared by a falling one (R90, R92). -/
theorem fallAfter_edgeOf (c : Cfg) (d : Detector) (lp : F32) (n : Word) :
    (edgeOf c d lp n).fallAfter d.fall = if risingEdge c d lp then true
      else if d.fall && Fp.lt lp (Fp.neg c.zcEps) then false else d.fall := by
  cases rise : risingEdge c d lp with
  | true =>
    rw [edgeOf_of_rise rise, if_pos rfl]
    split
    · rfl
    · split <;> rfl
  | false =>
    rw [edgeOf_of_no_rise rise, if_neg Bool.false_ne_true]
    split <;> rfl

/-- The arming edge is a rising edge before ARMED is set (R91). -/
theorem edgeOf_eq_arm (c : Cfg) (d : Detector) (lp : F32) (n : Word) :
    edgeOf c d lp n = .arm ↔ (risingEdge c d lp && !d.armed) = true := by
  cases rise : risingEdge c d lp with
  | true =>
    rw [edgeOf_of_rise rise, Bool.true_and]
    cases d.armed with
    | false => simp
    | true =>
      rw [Bool.not_true, if_neg Bool.false_ne_true]
      split <;> simp
  | false =>
    rw [edgeOf_of_no_rise rise]
    split <;> simp

/-- The measuring edge is a rising edge after ARMED is set and past the hold-off (R92). -/
theorem edgeOf_eq_measure (c : Cfg) (d : Detector) (lp : F32) (n : Word) :
    edgeOf c d lp n = .measure ↔ (risingEdge c d lp && d.armed && decide (c.holdoff.toNat ≤ n.toNat)) = true := by
  cases rise : risingEdge c d lp with
  | true =>
    rw [edgeOf_of_rise rise, Bool.true_and]
    cases d.armed <;> simp
  | false =>
    rw [edgeOf_of_no_rise rise]
    split <;> simp

/-! ### Stage P, register by register -/

theorem stageP_lp (c : Cfg) (d : Detector) (x : F32) : (stageP c d x).lp = pitchLp c d x := rfl

theorem stageP_fall (c : Cfg) (d : Detector) (x : F32) :
    (stageP c d x).fall = if risingEdge c d (pitchLp c d x) then true
      else if d.fall && Fp.lt (pitchLp c d x) (Fp.neg c.zcEps) then false else d.fall := fallAfter_edgeOf _ _ _ _

theorem stageP_armed (c : Cfg) (d : Detector) (x : F32) :
    (stageP c d x).armed = (d.armed || risingEdge c d (pitchLp c d x)) := by
  have arms : (pitchEdge c d x == .arm) = (risingEdge c d (pitchLp c d x) && !d.armed) := by
    rw [Bool.eq_iff_iff, beq_iff_eq]
    exact edgeOf_eq_arm _ _ _ _
  rw [stageP, arms]
  cases d.armed <;> simp

/-- A measuring edge of the SAMPLE, on the counter already advanced (R89, R92). -/
def pitchMeasures (c : Cfg) (d : Detector) (x : F32) : Bool :=
  risingEdge c d (pitchLp c d x) && d.armed && decide (c.holdoff.toNat ≤ (countUp d.zcCount).toNat)

theorem pitchEdge_eq_measure (c : Cfg) (d : Detector) (x : F32) :
    pitchEdge c d x = .measure ↔ pitchMeasures c d x = true := edgeOf_eq_measure _ _ _ _

theorem stageP_zcCount (c : Cfg) (d : Detector) (x : F32) :
    (stageP c d x).zcCount =
      if pitchMeasures c d x || (risingEdge c d (pitchLp c d x) && !d.armed) then 0#32 else countUp d.zcCount := by
  refine if_congr ?_ rfl rfl
  rw [Bool.or_eq_true, or_comm]
  exact or_congr (pitchEdge_eq_measure c d x) (edgeOf_eq_arm _ _ _ _)

theorem stageP_periodLast (c : Cfg) (d : Detector) (x : F32) :
    (stageP c d x).periodLast = if pitchMeasures c d x then countUp d.zcCount else d.periodLast :=
  if_congr (pitchEdge_eq_measure c d x) rfl rfl

theorem pitchAccepted_eq (c : Cfg) (d : Detector) (x : F32) :
    pitchAccepted c d x = (pitchMeasures c d x && inBand c (candidateFreq c (countUp d.zcCount))) := by
  have measures : (pitchEdge c d x == .measure) = pitchMeasures c d x := by
    rw [Bool.eq_iff_iff, beq_iff_eq]
    exact pitchEdge_eq_measure c d x
  rw [pitchAccepted, measures]

theorem stageP_freq (c : Cfg) (d : Detector) (x : F32) :
    (stageP c d x).freq =
      if pitchAccepted c d x then blendFreq c d.freq (candidateFreq c (countUp d.zcCount)) else d.freq := rfl

theorem stageP_cert (c : Cfg) (d : Detector) (x : F32) :
    (stageP c d x).cert = if pitchAccepted c d x then Fp.one else decayedCert c d.cert := rfl

/-! ### The certainty between acceptances (R96) -/

theorem decayedCert_lt {c : Cfg} (hc : c.Legal) {cert : F32} (hcert : Fp.isFinite cert = true)
    (decays : Fp.lt c.certDecay Fp.one = true) (large : Fp.le 0x01000000#32 cert = true) :
    Fp.lt (decayedCert c cert) cert = true := by
  obtain ⟨finite, less⟩ := Fp.mul_lt_of_lt_one hcert (hc.unit .certDecay rfl) large decays
  rcases Fp.snap_cases c.floor (Fp.mul cert c.certDecay) with snapped | kept
  · rw [Fp.le_iff (by decide) hcert, Fp.toInt_pow_minus_125] at large
    rw [decayedCert, snapped, Fp.lt_iff Fp.isFinite_zero hcert, Fp.toInt_zero]
    omega
  · rw [decayedCert, kept]
    exact (Fp.lt_iff finite hcert).mpr less

end Sys2Proof.Machine

namespace Sys2Proof.Proofs

open Sys2Proof.Machine

/-- Settles O27: DC_X1, DC_Y1 and LP are stage P's, written out in the order of evaluation. -/
theorem sampleFiltersItsInput : Obligations.SampleFiltersItsInput := by
  intro s x hs
  obtain ⟨t, hnext, hdet⟩ := exec_sample_det x hs
  refine ⟨t, hnext, ?_⟩
  rw [hdet]
  exact ⟨rfl, rfl, rfl⟩

/-- Settles O28: the saturating counter, and each kind of edge as its conditions on FALL, ARMED and the counter. -/
theorem sampleDetectsEdges : Obligations.SampleDetectsEdges := by
  intro s x hs
  obtain ⟨t, hnext, hdet⟩ := exec_sample_det x hs
  refine ⟨t, hnext, ?_⟩
  rw [hdet, ← toNat_countUp]
  refine ⟨stageP_fall _ _ _, stageP_armed _ _ _, ?counter, ?period⟩
  case counter =>
    rw [stageP_zcCount]
    exact apply_ite BitVec.toNat _ _ _
  case period =>
    rw [stageP_periodLast]
    exact apply_ite BitVec.toNat _ _ _

/-- Settles O29: acceptance is a measuring edge with its candidate in band. -/
theorem sampleEstimatesFrequency : Obligations.SampleEstimatesFrequency := by
  intro s x hs
  obtain ⟨t, hnext, hdet⟩ := exec_sample_det x hs
  refine ⟨t, hnext, ?_⟩
  have accepted := pitchAccepted_eq s.cfg s.det t.xLast
  rw [inBand, ← Bool.and_assoc] at accepted
  rw [hdet, ← toNat_countUp, stageP_freq, stageP_cert, accepted]
  exact ⟨rfl, rfl⟩

/-- Settles O30: an accepted candidate sets CERT to 1.0; otherwise its one rounded product is below it. -/
theorem certaintyStrictlyDecays : Obligations.CertaintyStrictlyDecays := by
  intro s x hs decays large
  obtain ⟨-, -, -, -, scaleIdx⟩ := hs.drv
  obtain ⟨-, -, -, -, cert⟩ := hs.det
  obtain ⟨t, hnext, hdet⟩ := exec_sample_det x scaleIdx
  have less := decayedCert_lt hs.cfg (in_unit cert).finite decays large
  refine ⟨t, hnext, ?_⟩
  rw [hdet, stageP_cert]
  cases accepted : pitchAccepted s.cfg s.det t.xLast with
  | true => exact ⟨.inl rfl, nofun⟩
  | false => exact ⟨.inr less, fun _ => less⟩

end Sys2Proof.Proofs
end

section
/-!
PROOFS of the statements about the envelope and the gate (spec/44_envelope_gate.md R97 to R100): stage E's registers after SAMPLE,
each section in its order of evaluation, and the gate's three cases.
-/

namespace Sys2Proof.Machine

/-! ### What SAMPLE leaves in the envelope -/

/-- After SAMPLE the envelope and the gate are stage E's, on the sample X_LAST holds (R81, R82). -/
theorem exec_sample_env (x : Word) {s : State} (h : s.drv.scaleIdx.toNat ≤ 5) :
    ∃ t, exec (.sample x) s = .next t ∧ t.env = stageE s.cfg s.drv s.env t.xLast := by
  obtain ⟨quant, hnext⟩ := exec_sample_next x h
  refine ⟨_, hnext, ?_⟩
  rw [State.answer_env, State.raiseIf_env, State.answer_xLast, State.raiseIf_xLast]
  rfl

/-! ### Stage E, register by register (R97 to R99) -/

/-- A section's order of evaluation: subtract, multiply, add, then Snap (R98, R11). -/
theorem envSection_eq (c : Cfg) (s input : F32) :
    envSection c s input =
      if Fp.lt (Fp.abs (Fp.add s (Fp.mul c.envA (Fp.sub input s)))) c.floor then Fp.zero
      else Fp.add s (Fp.mul c.envA (Fp.sub input s)) := rfl

/-- The root is of the mean square where that is above 0.0, of +0.0 otherwise (R99, R10). -/
theorem levelOf_eq (envS2 : F32) : levelOf envS2 = Fp.sqrt (if Fp.lt Fp.zero envS2 then envS2 else Fp.zero) := rfl

theorem stageE_envS1 (c : Cfg) (v : Derived) (e : Envelope) (x : F32) :
    (stageE c v e x).envS1 = envSection c e.envS1 (energyOf c x) := by rw [stageE]

/-- The second section reads the first one's new value (R98). -/
theorem stageE_envS2 (c : Cfg) (v : Derived) (e : Envelope) (x : F32) :
    (stageE c v e x).envS2 = envSection c e.envS2 (stageE c v e x).envS1 := by rw [stageE]

theorem stageE_level (c : Cfg) (v : Derived) (e : Envelope) (x : F32) :
    (stageE c v e x).level = levelOf (stageE c v e x).envS2 := by rw [stageE]

theorem stageE_gateOpen (c : Cfg) (v : Derived) (e : Envelope) (x : F32) :
    (stageE c v e x).gateOpen = gateAfter v e.gateOpen (stageE c v e x).level := by rw [stageE]

/-! ### The gate, case by case (R100) -/

/-- A closed gate is open afterwards exactly where the level is above GATE_ON. -/
theorem gateAfter_closed (v : Derived) (level : F32) : gateAfter v false level = Fp.lt v.gateOn level := rfl

/-- An open gate is closed afterwards exactly where the level is below GATE_OFF. -/
theorem gateAfter_open (v : Derived) (level : F32) : gateAfter v true level = !Fp.lt level v.gateOff := rfl

/-- Between the thresholds, and at either of them, the gate keeps its state. -/
theorem gateAfter_keeps {v : Derived} {gateOpen : Bool} {level : F32}
    (no_opening : ¬ (gateOpen = false ∧ Fp.lt v.gateOn level = true))
    (no_closing : ¬ (gateOpen = true ∧ Fp.lt level v.gateOff = true)) : gateAfter v gateOpen level = gateOpen := by
  cases gateOpen with
  | false =>
    rw [gateAfter_closed]
    exact Bool.eq_false_iff.mpr fun above => no_opening ⟨rfl, above⟩
  | true =>
    rw [gateAfter_open, Bool.not_eq_true']
    exact Bool.eq_false_iff.mpr fun below => no_closing ⟨rfl, below⟩

end Sys2Proof.Machine

namespace Sys2Proof.Proofs

open Sys2Proof.Machine

/-- Settles O31: the two sections and the level are stage E's, each written out over the registers before it. -/
theorem sampleFollowsTheEnvelope : Obligations.SampleFollowsTheEnvelope := by
  intro s x hs
  obtain ⟨t, hnext, henv⟩ := exec_sample_env x hs
  refine ⟨t, hnext, ?_⟩
  rw [henv]
  refine ⟨?envS1, ?envS2, ?level⟩
  case envS1 =>
    rw [stageE_envS1, envSection_eq, energyOf]
  case envS2 =>
    rw [stageE_envS2, envSection_eq]
  case level =>
    rw [stageE_level, levelOf_eq]

/-- Settles O32: the gate before the SAMPLE decides which threshold the new LEVEL is compared with. -/
theorem gateSwitchesWithHysteresis : Obligations.GateSwitchesWithHysteresis := by
  intro s x hs
  obtain ⟨t, hnext, henv⟩ := exec_sample_env x hs
  refine ⟨t, hnext, ?_⟩
  rw [henv, stageE_gateOpen]
  refine ⟨fun closed above => ?opens, fun opened below => ?closes, gateAfter_keeps⟩
  case opens => rw [closed, gateAfter_closed, above]
  case closes => rw [opened, gateAfter_open, below, Bool.not_true]

end Sys2Proof.Proofs
end

section
/-!
PROOFS of the statements about the scale quantizer (spec/45_scale_quantizer.md R103 to R109): where stage Q keeps its registers, the
first nearest candidate where it does not, the search of a value it found before, and QLAST, which no other rule reads.
-/

namespace Sys2Proof.Machine.Fp

/-! ### A difference is zero only between equal numbers -/

/-- A unit is itself a binary32 number, so what is at least a unit does not round to zero. -/
theorem roundInt_pos {n : Int} (h : 0 < n) : 0 < roundInt n 1 := by
  have unit : toInt 0x00000001#32 = 1 := by decide
  have := le_roundInt (d := 1) one_pos (y := 0x00000001#32) (by decide) (n := n) (by rw [unit]; omega)
  rwa [unit] at this

theorem roundInt_eq_zero_iff {n : Int} : roundInt n 1 = 0 ↔ n = 0 := by
  rcases lt_trichotomy n 0 with negative | rfl | positive
  · have := roundInt_pos (neg_pos.mpr negative)
    rw [roundInt_neg] at this
    omega
  · decide
  · have := roundInt_pos positive
    omega

theorem mag_eq_zero_iff {x : F32} : mag x = 0 ↔ toInt x = 0 := by
  rw [← units_eq_zero]
  unfold toInt
  split <;> omega

theorem mag_sub_eq_zero_iff {x y : F32} (hx : isFinite x = true) (hy : isFinite y = true) :
    mag (sub x y) = 0 ↔ toInt x = toInt y := by
  rw [mag_eq_zero_iff, toInt_sub hx hy, roundInt_eq_zero_iff, sub_eq_zero]

/-! ### -0.0 apart, the value is the pattern -/

theorem sign_eq_decide_neg {x : F32} (hx : x ≠ 0x80000000#32) : sign x = decide (toInt x < 0) := by
  cases hs : sign x with
  | false =>
    have value : toInt x = units (mag x) := by rw [toInt, hs, if_neg Bool.false_ne_true]
    exact (decide_eq_false (by omega)).symm
  | true =>
    refine (decide_eq_true ?_).symm
    by_contra nonneg
    rw [sign_of_nonneg (not_lt.mp nonneg) hx] at hs
    cases hs

theorem eq_of_toInt_eq {x y : F32} (h : toInt x = toInt y) (hx : x ≠ 0x80000000#32) (hy : y ≠ 0x80000000#32) : x = y := by
  have signs : sign x = sign y := by rw [sign_eq_decide_neg hx, sign_eq_decide_neg hy, h]
  refine eq_of_sign_mag signs (units_strictMono.injective ?_)
  unfold toInt at h
  rw [signs] at h
  split at h <;> omega

/-- `f32(n)` is never -0.0. -/
theorem ofInt_ne_negZero (n : Int) : ofInt n ≠ 0x80000000#32 := by
  intro h
  have negative : n < 0 := by
    have := congrArg sign h
    rw [ofInt, sign_round] at this
    exact of_decide_eq_true this
  have value : roundInt (n.natAbs * 2 ^ 149 : Nat) 1 = 0 := by
    rw [roundInt_natCast, ← mag_round (decide (n < 0)), ← ofInt, h]
    decide
  rw [roundInt_eq_zero_iff] at value
  omega

/-! ### Order and NaN -/

theorem lt_self (x : F32) : lt x x = false := by simp [lt]

theorem lt_false_of_lt {x y : F32} (h : lt x y = true) : lt y x = false := lt_false_of_le (le_of_lt h)

/-- HzToMidi of a positive finite number is a rounded number, so no NaN (R12). -/
theorem isNaN_hzToMidi {f : F32} (hf : isFinite f = true) (hpos : lt zero f = true) : isNaN (hzToMidi f) = false := by
  rw [lt_iff isFinite_zero hf, toInt_zero] at hpos
  rw [hzToMidi_of_pos hf (sign_of_pos hpos) (mag_pos hpos.ne').ne']
  rcases settle_cases (hzToMidiBounds (units (mag f))) with h | h | h <;> rw [h] <;> exact isNaN_round _ _ _

end Sys2Proof.Machine.Fp

namespace Sys2Proof.Machine

/-! ### Distances (R106) -/

/-- A distance has a clear sign bit. -/
theorem key_distance (t c : F32) : Fp.key (distance t c) = Fp.mag (Fp.sub t c) := by
  rw [distance, Fp.key, Fp.sign_abs, if_neg Bool.false_ne_true, Fp.mag_abs]

/-- A number is nearer to itself than to any number of another value. -/
theorem toInt_eq_of_not_nearer {q c : F32} (hq : Fp.isFinite q = true) (hc : Fp.isFinite c = true)
    (h : Fp.lt (distance q q) (distance q c) = false) : Fp.toInt q = Fp.toInt c := by
  have nan := Fp.isNaN_of_finite hq
  have self : Fp.mag (Fp.sub q q) = 0 := (Fp.mag_sub_eq_zero_iff hq hq).mpr rfl
  rw [lt_eq_key (isNaN_distance nan hq) (isNaN_distance nan hc), key_distance, key_distance, self,
    decide_eq_false_iff_not] at h
  exact (Fp.mag_sub_eq_zero_iff hq hc).mp (by omega)

/-! ### Candidates (R106) -/

/-- Octave offsets are s32 values, whatever the configuration. -/
theorem octave_bounds {c : Cfg} {p : Int × Nat} (h : p ∈ searchOrder c) : -2 ^ 31 ≤ p.1 ∧ p.1 < 2 ^ 31 := by
  obtain ⟨lower, upper, -⟩ := mem_searchOrder.mp (show (p.1, p.2) ∈ searchOrder c from h)
  have := c.octMin.le_toInt
  have := c.octMax.toInt_lt
  omega

/-- A candidate is finite, whatever the configuration and the table. -/
theorem isFinite_candidateNote {c : Cfg} {p : Int × Nat} (h : p ∈ searchOrder c) (note : Byte) :
    Fp.isFinite (candidateNote note p.1) = true := by
  obtain ⟨lower, upper⟩ := octave_bounds h
  have := note.isLt
  exact (Fp.roundsTo_ofInt (abs_lt.mpr ⟨by omega, by omega⟩)).1

/-- What the search reads is a candidate at each place of its order. -/
theorem exists_note_of_mem_readCandidates {m : Memory} {s : Nat} {order : List (Int × Nat)} {cs : List F32}
    (h : readCandidates m s order = .ok cs) {x : F32} (hx : x ∈ cs) : ∃ note, ∃ p ∈ order, x = candidateNote note p.1 := by
  induction order generalizing cs with
  | nil =>
    cases h
    exact absurd hx List.not_mem_nil
  | cons p rest ih =>
    rw [readCandidates] at h
    split at h
    next => cases h
    next note _ =>
      split at h
      next => cases h
      next cs' hrest =>
        cases h
        rcases List.mem_cons.mp hx with rfl | hmem
        · exact ⟨note, p, List.mem_cons_self, rfl⟩
        · obtain ⟨note', p', hp', rfl⟩ := ih hrest hmem
          exact ⟨note', p', List.mem_cons_of_mem _ hp', rfl⟩

/-- The candidates do not depend on the target: where one search answers, every target is searched for among the same, each finite
and no -0.0. -/
theorem exists_candidates_of_nearest {c : Cfg} {m : Memory} {t : F32} {s : Nat} {r : Option F32}
    (h : nearest c m t s = .ok r) :
    ∃ cs, (∀ t', nearest c m t' s = .ok (nearestOf t' cs)) ∧
      ∀ x ∈ cs, Fp.isFinite x = true ∧ x ≠ 0x80000000#32 := by
  cases hread : readCandidates m s (searchOrder c) with
  | error a => simp [nearest, hread] at h
  | ok cs =>
    refine ⟨cs, fun t' => by rw [nearest, hread], fun x hx => ?_⟩
    obtain ⟨note, p, hp, rfl⟩ := exists_note_of_mem_readCandidates hread hx
    exact ⟨isFinite_candidateNote hp note, Fp.ofInt_ne_negZero _⟩

/-- A candidate is found for itself: what the search finds is no farther from it than it is from itself (R109). -/
theorem nearestOf_self {cs : List F32} (hcs : ∀ x ∈ cs, Fp.isFinite x = true ∧ x ≠ 0x80000000#32) {q : F32}
    (hq : q ∈ cs) : nearestOf q cs = some q := by
  obtain ⟨q', hfound⟩ := nearestOf_isSome (t := q) (List.ne_nil_of_mem hq)
  obtain ⟨finite, nonzero⟩ := hcs q hq
  obtain ⟨finite', nonzero'⟩ := hcs q' (nearestOf_mem hfound)
  have not_nearer : Fp.lt (distance q q) (distance q q') = false := by
    obtain ⟨pre, post, hsplit, before, after⟩ :=
      nearestOf_spec (Fp.isNaN_of_finite finite) (fun x hx => (hcs x hx).1) hfound
    rw [hsplit, List.mem_append, List.mem_cons] at hq
    rcases hq with hpre | rfl | hpost
    · exact Fp.lt_false_of_lt (before q hpre)
    · exact Fp.lt_self _
    · exact after q hpost
  rw [hfound, Fp.eq_of_toInt_eq (toInt_eq_of_not_nearer finite finite' not_nearer) nonzero nonzero']

/-! ### The search answers the nearest candidate (R106, R107) -/

/-- The candidate at one place of the search order. -/
def candidateAt (m : Memory) (s : Nat) (p : Int × Nat) : F32 :=
  candidateNote ((Memory.read m (15 * s + p.2)).getD 0#8) p.1

theorem candidatesOf_eq_map (c : Cfg) (m : Memory) (s : Nat) :
    candidatesOf c m s = (searchOrder c).map (candidateAt m s) := rfl

/-- On a row of the table, the candidates of R106 are those at the places of the search order. -/
theorem isCandidate_iff {c : Cfg} {m : Memory} {s : Nat} (hs : s ≤ 5) {k : Int} {j : Nat} {q : F32} :
    IsCandidate c m s k j q ↔ (k, j) ∈ searchOrder c ∧ q = candidateAt m s (k, j) := by
  rw [mem_searchOrder]
  constructor
  · rintro ⟨lower, upper, hj, note, hread, rfl⟩
    refine ⟨⟨lower, upper, hj⟩, ?_⟩
    rw [candidateAt, hread]
    rfl
  · rintro ⟨⟨lower, upper, hj⟩, rfl⟩
    obtain ⟨note, hread⟩ := exists_read_of_le m (a := 15 * s + j) (by omega)
    refine ⟨lower, upper, hj, note, hread, ?_⟩
    rw [candidateAt, hread]
    rfl

/-- The search over a row answers the first candidate at the least distance, for a target that is no NaN. -/
theorem isNearest_of_nearestOf {c : Cfg} {m : Memory} {s : Nat} (hs : s ≤ 5) {t q : F32} (ht : Fp.isNaN t = false)
    (h : nearestOf t (candidatesOf c m s) = some q) : IsNearest c m s t q := by
  have finite : ∀ x ∈ candidatesOf c m s, Fp.isFinite x = true := by
    intro x hx
    obtain ⟨p, hp, rfl⟩ := List.mem_map.mp hx
    exact isFinite_candidateNote hp _
  obtain ⟨pre, post, hsplit, before, after⟩ := nearestOf_spec ht finite h
  rw [candidatesOf_eq_map, List.map_eq_append_iff] at hsplit
  obtain ⟨places, rest, horder, rfl, hrest⟩ := hsplit
  obtain ⟨⟨k, j⟩, places', rfl, rfl, rfl⟩ := List.map_eq_cons_iff.mp hrest
  have sorted := searchOrder_sorted c
  rw [horder, List.pairwise_append, List.pairwise_cons] at sorted
  obtain ⟨-, ⟨later, -⟩, -⟩ := sorted
  refine ⟨k, j, (isCandidate_iff hs).mpr ⟨by simp [horder], rfl⟩, fun k' j' q' hq' => ?_⟩
  obtain ⟨hplace, rfl⟩ := (isCandidate_iff hs).mp hq'
  rw [horder, List.mem_append, List.mem_cons] at hplace
  rcases hplace with hbefore | hsame | hafter
  · have nearer := before _ (List.mem_map_of_mem hbefore)
    exact ⟨Fp.lt_false_of_lt nearer, fun _ => nearer⟩
  · obtain ⟨rfl, rfl⟩ := Prod.mk.inj hsame
    exact ⟨Fp.lt_self _, fun earlier => absurd earlier (by omega)⟩
  · have := later _ hafter
    exact ⟨after _ (List.mem_map_of_mem hafter), fun earlier => absurd earlier (by simp only at this; omega)⟩

/-- With OCT_MIN above OCT_MAX there is no candidate (R106). -/
theorem candidatesOf_empty {c : Cfg} (h : c.octMax.toInt < c.octMin.toInt) (m : Memory) (s : Nat) :
    candidatesOf c m s = [] := by
  have : searchOrder c = [] := List.eq_nil_iff_forall_not_mem.mpr fun ⟨k, j⟩ hp => by
    obtain ⟨lower, upper, -⟩ := mem_searchOrder.mp hp
    omega
  rw [candidatesOf_eq_map, this, List.map_nil]

/-- With OCT_MIN up to OCT_MAX the search finds a candidate (R106). -/
theorem nearestOf_candidatesOf_isSome {c : Cfg} (h : c.octMin.toInt ≤ c.octMax.toInt) (m : Memory) (s : Nat) (t : F32) :
    ∃ q, nearestOf t (candidatesOf c m s) = some q := by
  have first : (c.octMin.toInt, 0) ∈ searchOrder c := mem_searchOrder.mpr ⟨le_rfl, h, by norm_num⟩
  exact nearestOf_isSome (List.ne_nil_of_mem (List.mem_map_of_mem first))

/-! ### Stage Q within SAMPLE (R103 to R108) -/

/-- After SAMPLE, QLAST and TARGET are stage Q's, on the registers stages P and E left in the same SAMPLE (R83, R103). -/
theorem exec_sample_quant (x : Word) {s : State} (h : s.drv.scaleIdx.toNat ≤ 5) :
    ∃ t, exec (.sample x) s = .next t ∧ stageQ s.cfg s.drv s.table t.det t.env s.quant = .ok t.quant := by
  obtain ⟨quant, hq, -⟩ := execSample_next x s h
  refine ⟨_, exec_sample_of_stageQ hq, ?_⟩
  simp only [State.answer_det, State.answer_env, State.answer_quant, State.raiseIf_det, State.raiseIf_env,
    State.raiseIf_quant]
  exact hq

theorem quantEnabled_iff (c : Cfg) (d : Detector) (e : Envelope) :
    quantEnabled c d e = true ↔
      e.gateOpen = true ∧ Fp.lt c.certThresh d.cert = true ∧ Fp.lt Fp.zero d.freq = true := by
  rw [quantEnabled, confident, Bool.and_eq_true, Bool.and_eq_true, and_assoc]

/-- The raw target is no NaN where stage Q is enabled (R86, R104, R105). -/
theorem isNaN_rawTarget {c : Cfg} (hc : c.Legal) (v : Derived) {d : Detector} (hd : d.Ok)
    (hpos : Fp.lt Fp.zero d.freq = true) : Fp.isNaN (rawTarget c v d) = false := by
  obtain ⟨-, -, -, freq, -⟩ := hd
  have interval : Fp.isFinite (intervalOf c v) = true := by
    unfold intervalOf
    split
    · exact hc.finite (r := .intervalWide) rfl
    · exact hc.finite (r := .intervalNarrow) rfl
  exact isNaN_add_finite (Fp.isNaN_hzToMidi (Fp.isFinite_of_within freq (by decide) (by decide)) hpos) interval

/-! ### QLAST is read by no rule (R108) -/

/-- Stage Q decides what to do before it reads QLAST or TARGET: from any values of the two it keeps them, or from any values it
commits one and the same note. -/
theorem stageQ_decides {c : Cfg} {v : Derived} {m : Memory} {d : Detector} {e : Envelope} {n n' : Quant}
    (h : stageQ c v m d e n = .ok n') :
    (n' = n ∧ ∀ p, stageQ c v m d e p = .ok p) ∨
      ∃ q, n' = commit c n q ∧ ∀ p, stageQ c v m d e p = .ok (commit c p q) := by
  unfold stageQ at h ⊢
  split at h
  next enabled =>
    split at h
    next => cases h
    next => exact .inl ⟨(Except.ok.inj h).symm, fun p => if_pos enabled⟩
    next q _ => exact .inr ⟨q, (Except.ok.inj h).symm, fun p => if_pos enabled⟩
  next disabled => exact .inl ⟨(Except.ok.inj h).symm, fun p => if_neg disabled⟩

/-- The state with another QLAST. -/
def State.withQlast (s : State) (q : F32) : State := { s with quant := { s.quant with qlast := q } }

theorem State.withQlast_raiseIf_answer (s : State) (q : F32) (c : Bool) (b : StatusBit) (a : Word) :
    ((s.withQlast q).raiseIf c b).answer a = ((s.raiseIf c b).answer a).withQlast q := by
  cases c <;> rfl

theorem State.readReg_withQlast (s : State) (q : F32) {r : Reg} (h : r ≠ .ro .qlast) :
    (s.withQlast q).readReg r = s.readReg r := by
  cases r with
  | ro r =>
    cases r with
    | qlast => exact absurd rfl h
    | _ => rfl
  | cfg _ | kraw _ | ks _ | status | id | version => rfl

/-- From another QLAST, a command other than the read of QLAST gives the same state and response where it writes QLAST, and the same
but for the other QLAST where it keeps it. -/
theorem exec_withQlast {i : Instr} {s t : State} (q : F32) (hi : i ≠ .rdreg 0x4C#8) (h : exec i s = .next t) :
    exec i (s.withQlast q) = .next t ∨
      (exec i (s.withQlast q) = .next (t.withQlast q) ∧ t.quant.qlast = s.quant.qlast) := by
  cases i with
  | nop =>
    obtain rfl := exec_nop_inv h
    exact .inr ⟨rfl, rfl⟩
  | sample x =>
    obtain ⟨quant, hq, rfl⟩ := exec_sample_inv h
    rcases stageQ_decides hq with ⟨rfl, keeps⟩ | ⟨note, rfl, commits⟩
    · exact .inr ⟨(exec_sample_of_stageQ (s := s.withQlast q) (keeps _)).trans
        (congrArg _ (State.withQlast_raiseIf_answer (s.sampled _ s.quant) q _ _ _)), by simp [State.sampled]⟩
    · exact .inl (exec_sample_of_stageQ (s := s.withQlast q) (commits _))
  | mix x =>
    obtain rfl := exec_mix_inv h
    exact .inr ⟨(exec_mix x _).trans (congrArg _ (State.withQlast_raiseIf_answer
      { s with yOut := mixOf s.xLast s.voice.vcaGain s.ks.mix (sanitizeH x).1 } q _ _ _)), by simp⟩
  | block =>
    obtain rfl := exec_block_inv h
    exact .inr ⟨rfl, rfl⟩
  | wrreg idx v =>
    rcases execWrreg_cases h with ⟨r, rfl, rfl⟩ | ⟨k, rfl, rfl⟩ | ⟨rfl, rfl⟩ | ⟨hw, rfl⟩
    · exact .inr ⟨(exec_wrreg_cfg r v _).trans
        (congrArg _ (State.withQlast_raiseIf_answer { s with cfg := s.cfg.set r _ } q _ _ _)), by simp⟩
    · exact .inr ⟨(exec_wrreg_kraw k v _).trans
        (congrArg _ (State.withQlast_raiseIf_answer { s with kraw := s.kraw.set k _ } q _ _ _)), by simp⟩
    · exact .inr ⟨exec_wrreg_status v _, rfl⟩
    · exact .inr ⟨exec_wrreg_of_not_writable v _ hw, rfl⟩
  | rdreg idx =>
    rcases execRdreg_cases h with ⟨r, rfl, rfl⟩ | ⟨hr, rfl⟩
    · have hne : r ≠ .ro .qlast := fun e => hi (by rw [e]; rfl)
      exact .inr ⟨by rw [exec_rdreg_index, s.readReg_withQlast q hne]; rfl, rfl⟩
    · exact .inr ⟨exec_rdreg_of_not_readable _ hr, rfl⟩
  | wrtab idx n =>
    rcases execWrtab_cases h with ⟨hle, rfl⟩ | ⟨hgt, rfl⟩
    · exact .inr ⟨(exec_wrtab_of_le n _ hle).trans
        (congrArg _ (State.withQlast_raiseIf_answer { s with table := Memory.write s.table _ _ } q _ _ _)), by simp⟩
    · exact .inr ⟨exec_wrtab_of_gt n _ hgt, rfl⟩
  | rdtab idx =>
    rcases execRdtab_cases h with ⟨-, b, hb, rfl⟩ | ⟨hgt, rfl⟩
    · exact .inr ⟨exec_rdtab_of_read hb, rfl⟩
    · exact .inr ⟨exec_rdtab_of_gt _ hgt, rfl⟩
  | sreset =>
    obtain rfl := exec_sreset_inv h
    exact .inl rfl

end Sys2Proof.Machine

namespace Sys2Proof.Proofs

open Sys2Proof.Machine

/-- Settles O33: stage Q commits only where it is enabled and the search has a candidate. -/
theorem quantizerKeepsWhereNotEnabled : Obligations.QuantizerKeepsWhereNotEnabled := by
  intro s x hs
  obtain ⟨t, hnext, hq⟩ := exec_sample_quant x hs
  refine ⟨t, hnext, fun hstops => ?_⟩
  obtain ⟨quant, hq', ⟨rfl, -⟩ | ⟨q, enabled, found, -⟩⟩ := stageQ_cases s.cfg s.table t.det t.env s.quant hs
  · rw [Except.ok.inj (hq.symm.trans hq')]
    exact ⟨rfl, rfl⟩
  · rcases hstops with disabled | empty
    · exact absurd ((quantEnabled_iff ..).mp enabled) disabled
    · rw [candidatesOf_empty empty] at found
      cases found

/-- Settles O34: the search has a candidate and a target that is no NaN, so stage Q commits the first nearest one. -/
theorem quantizerFindsTheNearestNote : Obligations.QuantizerFindsTheNearestNote := by
  intro s x hs hrange
  obtain ⟨-, -, -, -, scaleIdx⟩ := hs.drv
  obtain ⟨t, hnext, hq⟩ := exec_sample_quant x scaleIdx
  refine ⟨t, hnext, fun gate confident positive => ?_⟩
  have enabled := (quantEnabled_iff s.cfg t.det t.env).mpr ⟨gate, confident, positive⟩
  obtain ⟨q, found⟩ := nearestOf_candidatesOf_isSome hrange s.table s.drv.scaleIdx.toNat (rawTarget s.cfg s.drv t.det)
  have committed : t.quant = commit s.cfg s.quant q := by
    refine Except.ok.inj (hq.symm.trans ?_)
    rw [stageQ, if_pos enabled, nearest_eq _ _ _ scaleIdx, found]
  have nan := isNaN_rawTarget hs.cfg s.drv (exec_keeps_inv hs hnext).det positive
  rw [committed]
  exact ⟨isNearest_of_nearestOf scaleIdx nan found, rfl⟩

/-- Settles O35: what the search found is one of the candidates of that row, and a candidate is found for itself. -/
theorem nearestIsIdempotent : Obligations.NearestIsIdempotent := by
  intro c m t q s h
  obtain ⟨cs, search, hcs⟩ := exists_candidates_of_nearest h
  have found : nearestOf t cs = some q := Except.ok.inj ((search t).symm.trans h)
  rw [search, nearestOf_self hcs (nearestOf_mem found)]

/-- Settles O36: QLAST changes the answer to its own read only; every other command writes it unread, or carries it along. -/
theorem qlastIsReadByNoRule : Obligations.QlastIsReadByNoRule := by
  intro i s t q h
  by_cases hi : i = .rdreg 0x4C#8
  · subst hi
    have read (u : State) : exec (.rdreg 0x4C#8) u = .next (u.answer u.quant.qlast) := exec_rdreg_index (.ro .qlast) u
    obtain rfl := Host.Outcome.next.inj ((read s).symm.trans h)
    exact ⟨_, read _, rfl, rfl, .inr ⟨rfl, rfl⟩, fun hne => absurd rfl hne⟩
  · rcases exec_withQlast q hi h with writes | ⟨carries, kept⟩
    · exact ⟨t, writes, rfl, rfl, .inl rfl, fun _ => rfl⟩
    · exact ⟨_, carries, rfl, rfl, .inr ⟨rfl, kept⟩, fun _ => rfl⟩

end Sys2Proof.Proofs
end

section
/-!
PROOFS of the statements about the voice driver (spec/46_voice_driver.md R111 to R117): stage V's registers after SAMPLE, each in its
order of evaluation, the sanitiser and the frame of MIX, and the two ends of the mix knob.
-/

namespace Sys2Proof.Machine.Fp

/-! ### Sums and products where one value is zero -/

/-- A finite number times a zero of either sign is a zero. -/
theorem toInt_mul_zero {x : F32} (hx : isFinite x = true) : toInt (mul x zero) = 0 := by
  rw [(toInt_mul_comm hx isFinite_zero).1, toInt_zero_mul hx]

/-- A sum with a zero has the other operand's value, exactly. -/
theorem toInt_add_of_right_zero {x y : F32} (hx : isFinite x = true) (hy : isFinite y = true) (h : toInt y = 0) :
    toInt (add x y) = toInt x := by
  have exact_sum : roundInt (toInt x * (1 : Nat)) 1 = toInt x := roundInt_toInt one_pos hx
  rw [toInt_add hx hy, h, add_zero]
  rwa [Nat.cast_one, mul_one] at exact_sum

theorem toInt_add_of_left_zero {x y : F32} (hx : isFinite x = true) (hy : isFinite y = true) (h : toInt x = 0) :
    toInt (add x y) = toInt y := by
  rw [toInt_add hx hy, add_comm, ← toInt_add hy hx, toInt_add_of_right_zero hy hx h]

theorem sub_one_zero : sub one zero = one := by decide +kernel

theorem sub_one_one : sub one one = zero := by decide +kernel

end Sys2Proof.Machine.Fp

namespace Sys2Proof.Machine

/-! ### What SAMPLE leaves in the voice -/

/-- After SAMPLE the voice is stage V's, on the registers stages P, E and Q left in the same SAMPLE (R83). -/
theorem exec_sample_voice (x : Word) {s : State} (h : s.drv.scaleIdx.toNat ≤ 5) :
    ∃ t, exec (.sample x) s = .next t ∧ t.voice = stageV s.cfg s.drv s.ks.vib t.det t.env t.quant s.voice := by
  obtain ⟨quant, hnext⟩ := exec_sample_next x h
  refine ⟨_, hnext, ?_⟩
  simp only [State.answer_voice, State.answer_det, State.answer_env, State.answer_quant, State.raiseIf_voice,
    State.raiseIf_det, State.raiseIf_env, State.raiseIf_quant]
  rfl

/-! ### Stage V, register by register (R111 to R115) -/

section
variable (c : Cfg) (v : Derived) (ksVib : F32) (d : Detector) (e : Envelope) (n : Quant) (w : Voice)

theorem stageV_smooth : (stageV c v ksVib d e n w).smooth = glide c v w.smooth n.target := by rw [stageV]

theorem stageV_lfoPhase : (stageV c v ksVib d e n w).lfoPhase = lfoAdvance c w.lfoPhase := by rw [stageV]

/-- The pitch is the new SMOOTH and the vibrato of the phase before the increment (R112, R113). -/
theorem stageV_pitchOut :
    (stageV c v ksVib d e n w).pitchOut =
      Fp.add (stageV c v ksVib d e n w).smooth (vibrato c ksVib w.lfoPhase) := by rw [stageV]

theorem stageV_oscFreq :
    (stageV c v ksVib d e n w).oscFreq = Fp.midiToHz (stageV c v ksVib d e n w).pitchOut := by rw [stageV]

theorem stageV_vcaTgt : (stageV c v ksVib d e n w).vcaTgt = vcaTarget c d e := by rw [stageV]

/-- The slew is toward the new target (R115). -/
theorem stageV_vcaGain :
    (stageV c v ksVib d e n w).vcaGain = vcaSlew c (stageV c v ksVib d e n w).vcaTgt w.vcaGain := by rw [stageV]

end

/-! ### MIX: its sanitiser and its frame (R116, R117) -/

/-- A finite operand passes without a flag; any other one is replaced by +0.0 with the flag (R117). -/
theorem sanitizeH_eq (h : Word) : sanitizeH h = (if Fp.isFinite h then h else Fp.zero, !Fp.isFinite h) := by
  cases hh : Fp.isFinite h with
  | true => exact if_pos hh
  | false => exact if_neg (Bool.eq_false_iff.mp hh)

/-- Y_OUT stands behind its own index and no other (R33). -/
theorem State.readReg_setYOut (s : State) (y : F32) {r : Reg} (h : r ≠ .ro .yOut) :
    { s with yOut := y }.readReg r = s.readReg r := by
  cases r with
  | ro r =>
    cases r with
    | yOut => exact absurd rfl h
    | _ => rfl
  | cfg _ | kraw _ | ks _ | status | id | version => rfl

theorem mix_frame (s : State) (y : F32) (c : Bool) (w : Word) :
    UnchangedBut s (({ s with yOut := y }.raiseIf c .nanIn).answer w) [.ro .yOut, .status] [] where
  registers q hq := by
    obtain ⟨hy, hstatus⟩ : q ≠ .ro .yOut ∧ q ≠ .status := by simpa using hq
    rw [State.readReg_answer, State.readReg_raiseIf _ _ _ hstatus, State.readReg_setYOut _ _ hy]
  table _ _ := by rw [State.answer_table, State.raiseIf_table]
  inbox := by rw [State.answer_inbox, State.raiseIf_inbox]
  pos := by rw [State.answer_pos, State.raiseIf_pos]

/-! ### The ends of the mix knob (R116) -/

section
variable {x g h : F32} (hx : Fp.isFinite x = true) (hg : Fp.In 0 (2 ^ 149) g) (hh : Fp.isFinite h = true)
include hx hg hh

/-- All dry: the dry factor is 1.0 and the harmony term a zero. -/
theorem value_mixOf_zero : Fp.value (mixOf x g Fp.zero h) = Fp.value x := by
  have harmony := (Fp.mul_unit_right hg hh).finite
  have scaled := (Fp.mul_unit_right (Fp.in_zero le_rfl (by positivity)) harmony).finite
  rw [Fp.value_inj, mixOf, Fp.sub_one_zero, Fp.mul_one_of_finite hx,
    Fp.toInt_add_of_right_zero hx scaled (Fp.toInt_mul_zero harmony)]

/-- All harmony: the dry factor is +0.0 and the harmony's factor 1.0. -/
theorem value_mixOf_one : Fp.value (mixOf x g Fp.one h) = Fp.value (Fp.mul h g) := by
  have harmony := (Fp.mul_unit_right hg hh).finite
  have dry := (Fp.mul_unit_right (Fp.in_zero le_rfl (by positivity)) hx).finite
  rw [Fp.value_inj, mixOf, Fp.sub_one_one, Fp.mul_one_of_finite harmony,
    Fp.toInt_add_of_left_zero dry harmony (Fp.toInt_mul_zero hx)]

end

end Sys2Proof.Machine

namespace Sys2Proof.Proofs

open Sys2Proof.Machine

/-- Settles O37: each register is stage V's, over the TARGET stage Q left in this SAMPLE and the phase before the increment. -/
theorem sampleDrivesTheOscillator : Obligations.SampleDrivesTheOscillator := by
  intro s x hs
  obtain ⟨t, hnext, hvoice⟩ := exec_sample_voice x hs
  refine ⟨t, hnext, ?_⟩
  rw [hvoice]
  refine ⟨?smooth, ?lfoPhase, ?pitchOut, stageV_oscFreq ..⟩
  case smooth => rw [stageV_smooth, glide, Fp.snap]
  case lfoPhase => rw [stageV_lfoPhase, lfoAdvance]
  case pitchOut => rw [stageV_pitchOut, vibrato]

/-- Settles O38: the target is of this SAMPLE's gate, level and certainty, and the rate is chosen by the gain before it. -/
theorem sampleSlewsTheGain : Obligations.SampleSlewsTheGain := by
  intro s x hs
  obtain ⟨t, hnext, hvoice⟩ := exec_sample_voice x hs
  refine ⟨t, hnext, ?_⟩
  rw [hvoice]
  refine ⟨?target, ?gain⟩
  case target => rw [stageV_vcaTgt, vcaTarget, confident, Fp.clamp]
  case gain => rw [stageV_vcaGain, vcaSlew, vcaRate, Fp.snap]

/-- Settles O40: the sanitised operand enters the mix, and its flag decides NANIN. -/
theorem mixMixesDryAndHarmony : Obligations.MixMixesDryAndHarmony := by
  intro s h
  refine ⟨_, exec_mix h s, mix_frame s _ _ _, ?response, ?status, ?output⟩
  case response =>
    rw [State.answer_response, State.readReg_answer, State.readReg_raiseIf _ _ _ (by decide)]
    rfl
  case status =>
    rw [State.answer_status, State.raiseIf_status, sanitizeH_eq]
    cases Fp.isFinite h <;> rfl
  case output =>
    rw [State.answer_yOut, State.raiseIf_yOut, sanitizeH_eq, mixOf]

/-- Settles O41: MIX keeps the invariant, so Y_OUT is finite, and at an end of the knob one product is exact, the other a zero. -/
theorem mixEndsOfTheKnob : Obligations.MixEndsOfTheKnob := by
  intro s h hs hh
  have hnext := exec_mix h s
  have finite := (exec_keeps_inv hs hnext).yOut
  have dry := (in_symm_unit hs.xLast).finite
  obtain ⟨-, -, -, -, gain, -⟩ := hs.voice
  refine ⟨_, hnext, fun hm => ⟨finite, ?_⟩, fun hm => ⟨finite, ?_⟩⟩
  all_goals rw [State.answer_yOut, State.raiseIf_yOut, sanitizeH_eq, hh, if_pos rfl, hm]
  · exact value_mixOf_zero dry (in_unit gain) hh
  · exact value_mixOf_one dry (in_unit gain) hh

end Sys2Proof.Proofs
end

section
/-!
PROOFS of the statements about conditions (spec/60_exceptions.md R124, R126, R133): the one bit of STATUS each command may
set, and the idle step.
-/

namespace Sys2Proof.Machine

/-! ### The idle step (R133) -/

theorem step_idle {s : State} (h : s.inbox = []) : step s = .next s := by
  rw [step, stepEvent, h]

/-! ### STATUS after the update a command ends in (R34, R124) -/

/-- A command that touches STATUS only through one flag leaves STATUS or sets that flag's bit, by an OR (R124). -/
theorem State.status_of_raiseIf {s u : State} (h : u.status = s.status) (c : Bool) (b : StatusBit) (w : Word) :
    ((u.raiseIf c b).answer w).status = s.status ∨ ((u.raiseIf c b).answer w).status = s.status ||| b.mask := by
  rw [State.answer_status, State.raiseIf_status, h]
  cases c with
  | false => exact .inl rfl
  | true => exact .inr rfl

/-! ### The indices behind which a write may raise CFGERR or KCLAMP (R22, R26) -/

theorem toNat_index_cfg_le (r : CfgReg) : (Reg.index (.cfg r)).toNat ≤ 0x1E := by
  have rows : ∀ r ∈ CfgReg.all, (Reg.index (.cfg r)).toNat ≤ 0x1E := by decide
  exact rows r (CfgReg.mem_all r)

theorem toNat_index_kraw_range (k : Knob) :
    0x20 ≤ (Reg.index (.kraw k)).toNat ∧ (Reg.index (.kraw k)).toNat ≤ 0x26 := by
  have rows : ∀ k ∈ Knob.all, 0x20 ≤ (Reg.index (.kraw k)).toNat ∧ (Reg.index (.kraw k)).toNat ≤ 0x26 := by decide
  exact rows k (Knob.mem_all k)

/-! ### STATUS after WRREG (R64) -/

/-- A write to STATUS clears the bits its operand names, and sets none (R64). -/
theorem status_of_exec_wrreg_status {v : Word} {s t : State} (h : exec (.wrreg 0x5F#8 v) s = .next t) :
    t.status = clearedStatus s.status v := by
  obtain rfl := Host.Outcome.next.inj (h.symm.trans (exec_wrreg_status v s))
  rw [State.answer_status, State.clearStatus_status]

/-- A write anywhere else clears nothing, and sets the bit of the register's kind at most (R124, R126). -/
theorem status_of_exec_wrreg_other {idx : Byte} {v : Word} {s t : State} (hidx : idx ≠ 0x5F#8)
    (h : exec (.wrreg idx v) s = .next t) :
    t.status = s.status ∨ t.status = s.status ||| StatusBit.ill.mask ∨
      (idx.toNat ≤ 0x1E ∧ t.status = s.status ||| StatusBit.cfgErr.mask) ∨
      (0x20 ≤ idx.toNat ∧ idx.toNat ≤ 0x26 ∧ t.status = s.status ||| StatusBit.kClamp.mask) := by
  rcases execWrreg_cases h with ⟨r, rfl, rfl⟩ | ⟨k, rfl, rfl⟩ | ⟨hstatus, -⟩ | ⟨-, rfl⟩
  · rcases State.status_of_raiseIf (u := { s with cfg := s.cfg.set r _ }) rfl _ .cfgErr _ with same | raised
    · exact .inl same
    · exact .inr (.inr (.inl ⟨toNat_index_cfg_le r, raised⟩))
  · obtain ⟨hlo, hhi⟩ := toNat_index_kraw_range k
    rcases State.status_of_raiseIf (u := { s with kraw := s.kraw.set k _ }) rfl _ .kClamp _ with same | raised
    · exact .inl same
    · exact .inr (.inr (.inr ⟨hlo, hhi, raised⟩))
  · exact absurd hstatus.symm hidx
  · exact .inr (.inl s.takeIll_status)

end Sys2Proof.Machine

namespace Sys2Proof.Proofs

open Sys2Proof.Machine

/-- Settles O53, by the command: each ends in an update that keeps STATUS, raises the one flag of its kind, takes ILL, or clears. -/
theorem statusChangesByOneRule : Obligations.StatusChangesByOneRule := by
  intro i s t h
  cases i with
  | nop =>
    obtain rfl := exec_nop_inv h
    exact s.answer_status _
  | sample x =>
    obtain ⟨quant, -, rfl⟩ := exec_sample_inv h
    exact State.status_of_raiseIf (u := s.sampled _ quant) rfl _ .nanIn _
  | mix w =>
    obtain rfl := exec_mix_inv h
    exact State.status_of_raiseIf (u := { s with yOut := _ }) rfl _ .nanIn _
  | block =>
    obtain rfl := exec_block_inv h
    exact State.answer_status _ _
  | wrreg idx v =>
    dsimp only
    split
    next hidx =>
      subst hidx
      exact status_of_exec_wrreg_status h
    next hidx => exact status_of_exec_wrreg_other hidx h
  | rdreg idx =>
    rcases execRdreg_cases h with ⟨r, -, rfl⟩ | ⟨-, rfl⟩
    · exact .inl (s.answer_status _)
    · exact .inr s.takeIll_status
  | wrtab idx n =>
    rcases execWrtab_cases h with ⟨-, rfl⟩ | ⟨-, rfl⟩
    · exact (State.status_of_raiseIf (u := { s with table := Memory.write s.table _ _ }) rfl _ .cfgErr _).imp_right .inr
    · exact .inr (.inl s.takeIll_status)
  | rdtab idx =>
    rcases execRdtab_cases h with ⟨-, b, -, rfl⟩ | ⟨-, rfl⟩
    · exact .inl (s.answer_status _)
    · exact .inr s.takeIll_status
  | sreset =>
    obtain rfl := exec_sreset_inv h
    rw [State.answer_status, State.softReset_status]

/-- Settles O9: the step of an empty inbox takes no event. -/
theorem idleStepHoldsAllState : Obligations.IdleStepHoldsAllState := fun _ h => step_idle h

end Sys2Proof.Proofs
end

section
/-!
PROOFS of the statements about hardware reset and the host's duties (spec/70_reset_and_hazards.md R136, R144): the values every
register and table entry takes, that a reset event gives them from any state, and the relations the default configuration meets.
-/

namespace Sys2Proof.Machine

/-! ### Hardware reset (R136) -/

/-- Derive() on the default configuration with every knob at +0.0: the reset values of R28. -/
theorem derive_reset : derive Cfg.reset Knobs.reset = ⟨0x3727C5AC#32, 0x36A7C5AC#32, 0x3F800000#32, 0#32⟩ := by
  decide +kernel

/-- After a hardware reset SRESET finds nothing to clear (R68, R138). -/
theorem softReset_reset : State.reset.softReset = State.reset := rfl

theorem afterHardReset_reset : AfterHardReset State.reset where
  cfg := rfl
  kraw := Knobs.reset_get
  ks := Knobs.reset_get
  derived := by
    have read : derivedRegs.map (fun r => State.reset.readReg (.ro r)) =
        [State.reset.drv.gateOn, State.reset.drv.gateOff, State.reset.drv.glideC, State.reset.drv.scaleIdx] := rfl
    have values : State.reset.drv = _ := derive_reset
    rw [read, values]
  dynamic r h := by
    rw [← softReset_reset]
    exact readRo_softReset State.reset h
  status := rfl
  constants := ⟨rfl, rfl⟩
  table := by decide
  noResponse := rfl

/-- From any state, hardware reset leaves every register as `State.reset` has it. -/
@[simp] theorem State.readReg_hardReset (s : State) (r : Reg) : s.hardReset.readReg r = State.reset.readReg r := by
  cases r <;> rfl

theorem afterHardReset_hardReset (s : State) : AfterHardReset s.hardReset where
  cfg := by simpa using afterHardReset_reset.cfg
  kraw k := by simpa using afterHardReset_reset.kraw k
  ks k := by simpa using afterHardReset_reset.ks k
  derived := by simpa using afterHardReset_reset.derived
  dynamic r h := by simpa using afterHardReset_reset.dynamic r h
  status := by simpa using afterHardReset_reset.status
  constants := by simpa using afterHardReset_reset.constants
  table := afterHardReset_reset.table
  noResponse := afterHardReset_reset.noResponse

theorem step_hardReset {s : State} {rest : List HostEvent} (h : s.inbox = .hardReset :: rest) :
    step s = .next (s.takeEvent rest).hardReset := by
  rw [step, stepEvent, h]

/-! ### Covering the band with the octave range (R106, R144) -/

/-- The octave range covers an interval as soon as one candidate lies at or below its lower end and one at or above its upper. -/
theorem octavesCover_of_candidates {c : Cfg} {m : Memory} {s : Nat} (hs : s ≤ 5) {lo hi : F32} {p q : Int × Nat}
    (hp : p ∈ searchOrder c) (hq : q ∈ searchOrder c) (below : Fp.le (candidateAt m s p) lo = true)
    (above : Fp.le hi (candidateAt m s q) = true) : octavesCover c m s lo hi = true := by
  have read : readCandidates m s (searchOrder c) = .ok (candidatesOf c m s) :=
    readCandidates_ok m hs _ fun p hp => (mem_searchOrder.mp (show (p.1, p.2) ∈ _ from hp)).2.2
  rw [octavesCover, read, candidatesOf_eq_map, Bool.and_eq_true, List.any_eq_true, List.any_eq_true]
  exact ⟨⟨_, List.mem_map_of_mem hp, below⟩, ⟨_, List.mem_map_of_mem hq, above⟩⟩

/-- The default band, 60 Hz to 1500 Hz, in fractional MIDI (R104). -/
theorem hzToMidi_default_band :
    Fp.hzToMidi Cfg.reset.fMin = 0x420A0686#32 ∧ Fp.hzToMidi Cfg.reset.fMax = 0x42B4771D#32 := by decide +kernel

/-- With the defaults, the first degree one octave down and the last degree three octaves up reach beyond the band on every
scale. -/
theorem octavesCover_default {s : Nat} (hs : s < 6) :
    octavesCover Cfg.reset [] s
      (Fp.add (Fp.hzToMidi Cfg.reset.fMin) (intervalOf Cfg.reset ⟨Fp.zero, Fp.zero, Fp.zero, BitVec.ofNat 32 s⟩))
      (Fp.add (Fp.hzToMidi Cfg.reset.fMax) (intervalOf Cfg.reset ⟨Fp.zero, Fp.zero, Fp.zero, BitVec.ofNat 32 s⟩)) =
      true := by
  obtain ⟨bottom, top⟩ := hzToMidi_default_band
  have below : ∀ s < 6, Fp.le (candidateAt [] s (-1, 0))
      (Fp.add 0x420A0686#32 (intervalOf Cfg.reset ⟨Fp.zero, Fp.zero, Fp.zero, BitVec.ofNat 32 s⟩)) = true := by
    decide +kernel
  have above : ∀ s < 6,
      Fp.le (Fp.add 0x42B4771D#32 (intervalOf Cfg.reset ⟨Fp.zero, Fp.zero, Fp.zero, BitVec.ofNat 32 s⟩))
        (candidateAt [] s (3, 14)) = true := by
    decide +kernel
  rw [bottom, top]
  exact octavesCover_of_candidates (by omega) (p := (-1, 0)) (q := (3, 14)) (mem_searchOrder.mpr (by decide))
    (mem_searchOrder.mpr (by decide)) (below s hs) (above s hs)

end Sys2Proof.Machine

namespace Sys2Proof.Proofs

open Sys2Proof.Machine

/-- Settles O10: a reset event leaves every register and entry as `State.reset` has it, and those are the reset values. -/
theorem hardResetRestoresEverything : Obligations.HardResetRestoresEverything :=
  ⟨afterHardReset_reset, fun s rest h =>
    ⟨_, step_hardReset h, afterHardReset_hardReset (s.takeEvent rest), State.hardReset_inbox _, State.hardReset_pos _⟩⟩

/-- Settles O56: the octave range reaches beyond the band on every scale; the other relations are comparisons of default values. -/
theorem defaultsMeetTheHostDuties : Obligations.DefaultsMeetTheHostDuties where
  attackFaster := by decide
  certaintyDecays := by decide
  band := by decide
  weightsSum := by decide +kernel
  octavesInOrder := by decide
  octavesReach _ hs := octavesCover_default hs
  glideInOrder := by decide
  holdoffShort := by decide +kernel
  rowsAscend := by decide

/-- Settles O57: the base case of the invariant. -/
theorem invariantHoldsAtReset : Obligations.InvariantHoldsAtReset := State.reset_inv

end Sys2Proof.Proofs
end
